-- ==== Sys2Proof/Word.lean ====
section
/-! DEFINITION. The word types of the HCTR2 core: host words, bytes and field elements. -/

namespace Sys2Proof

/-- A 32-bit host bus word, command word or ARG value (R11, R38, R100). -/
abbrev Word := BitVec 32

/-- One byte of BUF, or one wire byte of a block (R16, R70). -/
abbrev Byte := BitVec 8

/-- A 128-bit field element. Bit `i` is the coefficient of `x^i` (R13, R16, R130). It is also the value on a
128-bit block-cipher data bus, whose bits `[8j+7:8j]` carry wire byte `j` (R84). -/
abbrev Elem := BitVec 128

end Sys2Proof
end

