-- ==== Sys2Proof/Syntax.lean ====
section
/-! DEFINITION. The abstract syntax: the four field registers and the fourteen commands of the opcode table. -/

namespace Sys2Proof

/-- The field registers FR0 to FR3 that the 2-bit fields RD, RS1 and RS2 select (R30, R101). -/
inductive FReg where
  | f0
  | f1
  | f2
  | f3
deriving DecidableEq, Repr

/-- The fourteen commands of R105, one constructor for each row of the opcode table. Memory operands are never in
a command: they come from the latched ARG registers (R102). -/
inductive Instr where
  /-- `nop` (R240). -/
  | nop
  /-- `fe.xor fd, fa, fb` (R138). -/
  | feXor (rd rs1 rs2 : FReg)
  /-- `fe.mul fd, fa, fb` (R139). -/
  | feMul (rd rs1 rs2 : FReg)
  /-- `fe.dbl fd, fa` (R140). -/
  | feDbl (rd rs1 : FReg)
  /-- `pv.init fa` (R153). -/
  | pvInit (rs1 : FReg)
  /-- `pv.reset` (R154). -/
  | pvReset
  /-- `pv.upd fa` (R155). -/
  | pvUpd (rs1 : FReg)
  /-- `pv.updb` (R156). -/
  | pvUpdb
  /-- `pv.sum fd` (R157). -/
  | pvSum (rd : FReg)
  /-- `pv.rest fa` (R158). -/
  | pvRest (rs1 : FReg)
  /-- `xctr fa` (R224). -/
  | xctr (rs1 : FReg)
  /-- `hctr2.init` (R180). -/
  | hctr2Init
  /-- `hctr2.enc` (R191). -/
  | hctr2Enc
  /-- `hctr2.dec` (R192). -/
  | hctr2Dec
deriving DecidableEq, Repr

end Sys2Proof
end

