-- ==== Sys2Proof/WellFormed.lean ====
section
/-! DEFINITION. When a command is well formed: the class rules of R104 and the legality rules of R107, said of the
five fields of a command word, apart from the decoder's own table. -/

namespace Sys2Proof

/-- The five fields of a command word, as numbers that nothing bounds yet (R100, R101). -/
structure Fields where
  opc : Nat
  rsv : Nat
  rd : Nat
  rs1 : Nat
  rs2 : Nat
deriving DecidableEq, Repr

/-- The format classes of R104. -/
inductive Format where
  | r3
  | r2
  | s1
  | d1
  | n
deriving DecidableEq, Repr

/-- The classes that use the field RD (R104). -/
def Format.usesRd : Format → Bool
  | .r3 => true
  | .r2 => true
  | .s1 => false
  | .d1 => true
  | .n => false

/-- The classes that use the field RS1 (R104). -/
def Format.usesRs1 : Format → Bool
  | .r3 => true
  | .r2 => true
  | .s1 => true
  | .d1 => false
  | .n => false

/-- The classes that use the field RS2 (R104). -/
def Format.usesRs2 : Format → Bool
  | .r3 => true
  | .r2 => false
  | .s1 => false
  | .d1 => false
  | .n => false

/-- The class of an assigned opcode, none where the opcode is unassigned (R105, R107). -/
def formatOf (opc : Nat) : Option Format :=
  if opc ∈ [0x01, 0x02] then some .r3
  else if opc = 0x03 then some .r2
  else if opc ∈ [0x10, 0x12, 0x15, 0x20] then some .s1
  else if opc = 0x14 then some .d1
  else if opc ∈ [0x00, 0x11, 0x13, 0x30, 0x31, 0x32] then some .n
  else none

/-- R107 (a): OPC is one of the fourteen assigned values. -/
def Fields.opcAssigned (f : Fields) : Bool := (formatOf f.opc).isSome

/-- R107 (b): RSV is 0. -/
def Fields.rsvZero (f : Fields) : Bool := f.rsv == 0

/-- Each register field is an unsigned 2-bit index (R101). -/
def Fields.regsFit (f : Fields) : Bool :=
  decide (f.rd < 4) && decide (f.rs1 < 4) && decide (f.rs2 < 4)

/-- R107 (c): a register field that the class does not use is 0. An unassigned opcode has no class, so nothing is
asked of its fields here. -/
def Fields.unusedZero (f : Fields) : Bool :=
  match formatOf f.opc with
  | some c => (c.usesRd || f.rd == 0) && (c.usesRs1 || f.rs1 == 0) && (c.usesRs2 || f.rs2 == 0)
  | none => true

/-- A legal set of fields: none of the three grounds of R107 holds, and the register numbers fit their fields. -/
def Fields.wf (f : Fields) : Bool := f.opcAssigned && f.rsvZero && f.regsFit && f.unusedZero

/-- The fields of a command word `w` (R101). -/
def Fields.ofWord (w : Word) : Fields where
  opc := w.toNat % 256
  rd := w.toNat / 256 % 4
  rs1 := w.toNat / 1024 % 4
  rs2 := w.toNat / 4096 % 4
  rsv := w.toNat / 16384

/-- The number of a field register. -/
def FReg.index : FReg → Nat
  | .f0 => 0
  | .f1 => 1
  | .f2 => 2
  | .f3 => 3

/-- The fields of a command, from R104 and R105. -/
def Instr.fields : Instr → Fields
  | .nop => ⟨0x00, 0, 0, 0, 0⟩
  | .feXor rd rs1 rs2 => ⟨0x01, 0, rd.index, rs1.index, rs2.index⟩
  | .feMul rd rs1 rs2 => ⟨0x02, 0, rd.index, rs1.index, rs2.index⟩
  | .feDbl rd rs1 => ⟨0x03, 0, rd.index, rs1.index, 0⟩
  | .pvInit rs1 => ⟨0x10, 0, 0, rs1.index, 0⟩
  | .pvReset => ⟨0x11, 0, 0, 0, 0⟩
  | .pvUpd rs1 => ⟨0x12, 0, 0, rs1.index, 0⟩
  | .pvUpdb => ⟨0x13, 0, 0, 0, 0⟩
  | .pvSum rd => ⟨0x14, 0, rd.index, 0, 0⟩
  | .pvRest rs1 => ⟨0x15, 0, 0, rs1.index, 0⟩
  | .xctr rs1 => ⟨0x20, 0, 0, rs1.index, 0⟩
  | .hctr2Init => ⟨0x30, 0, 0, 0, 0⟩
  | .hctr2Enc => ⟨0x31, 0, 0, 0, 0⟩
  | .hctr2Dec => ⟨0x32, 0, 0, 0, 0⟩

/-- A well-formed command: its fields are legal. The operands are typed, so every term of `Instr` is well formed
(`Sys2Proof.Laws.instr_wf`); the checks above refuse ill-formed `Fields`. -/
def Instr.wf (i : Instr) : Bool := i.fields.wf

end Sys2Proof
end

