-- ==== Sys2Proof/Decode.lean ====
section
/-! DEFINITION. The decoder of command words and, after it, the encoder, both written from the opcode map of R105. -/

namespace Sys2Proof

/-- Why a command word is illegal: the three grounds of R107. -/
inductive DecodeError where
  /-- R107 (a): OPC is not one of the fourteen assigned values. -/
  | unassignedOpcode
  /-- R107 (b): RSV is not 0. -/
  | reservedBits
  /-- R107 (c): a register field that the command's class does not use is not 0. -/
  | unusedField
deriving DecidableEq, Repr

/-- One row of the opcode map of R105: the word with every register field 0, the mask of the bits that must match,
and the command that the row's register fields make. -/
structure Row where
  word : Word
  mask : Word
  make : FReg → FReg → FReg → Instr

/-- The opcode map of R105, in its order. -/
def opcodeMap : List Row :=
  [ ⟨0x00000000, 0xFFFFFFFF, fun _ _ _ => .nop⟩,
    ⟨0x00000001, 0xFFFFC0FF, fun rd rs1 rs2 => .feXor rd rs1 rs2⟩,
    ⟨0x00000002, 0xFFFFC0FF, fun rd rs1 rs2 => .feMul rd rs1 rs2⟩,
    ⟨0x00000003, 0xFFFFF0FF, fun rd rs1 _ => .feDbl rd rs1⟩,
    ⟨0x00000010, 0xFFFFF3FF, fun _ rs1 _ => .pvInit rs1⟩,
    ⟨0x00000011, 0xFFFFFFFF, fun _ _ _ => .pvReset⟩,
    ⟨0x00000012, 0xFFFFF3FF, fun _ rs1 _ => .pvUpd rs1⟩,
    ⟨0x00000013, 0xFFFFFFFF, fun _ _ _ => .pvUpdb⟩,
    ⟨0x00000014, 0xFFFFFCFF, fun rd _ _ => .pvSum rd⟩,
    ⟨0x00000015, 0xFFFFF3FF, fun _ rs1 _ => .pvRest rs1⟩,
    ⟨0x00000020, 0xFFFFF3FF, fun _ rs1 _ => .xctr rs1⟩,
    ⟨0x00000030, 0xFFFFFFFF, fun _ _ _ => .hctr2Init⟩,
    ⟨0x00000031, 0xFFFFFFFF, fun _ _ _ => .hctr2Enc⟩,
    ⟨0x00000032, 0xFFFFFFFF, fun _ _ _ => .hctr2Dec⟩ ]

/-- The field register of a 2-bit index (R101). -/
def FReg.ofBits (b : BitVec 2) : FReg :=
  match b.toNat with
  | 0 => .f0
  | 1 => .f1
  | 2 => .f2
  | _ => .f3

/-- `OPC = w[7:0]` (R101). -/
def opcField (w : Word) : BitVec 8 := w.extractLsb' 0 8

/-- `RD = w[9:8]` (R101). -/
def rdField (w : Word) : FReg := FReg.ofBits (w.extractLsb' 8 2)

/-- `RS1 = w[11:10]` (R101). -/
def rs1Field (w : Word) : FReg := FReg.ofBits (w.extractLsb' 10 2)

/-- `RS2 = w[13:12]` (R101). -/
def rs2Field (w : Word) : FReg := FReg.ofBits (w.extractLsb' 12 2)

/-- `RSV = w[31:14]` (R101). -/
def rsvField (w : Word) : BitVec 18 := w.extractLsb' 14 18

/-- The ground on which a word that no row matches is illegal, in the order of R107. -/
def illegalGround (w : Word) : DecodeError :=
  if opcodeMap.all (fun r => opcField r.word != opcField w) then .unassignedOpcode
  else if rsvField w ≠ 0 then .reservedBits
  else .unusedField

/-- Decode a command word: the row of R105 that it matches, or the ground of R107 on which it is illegal. -/
def decode (w : Word) : Except DecodeError Instr :=
  match opcodeMap.find? (fun r => w &&& r.mask == r.word) with
  | some r => .ok (r.make (rdField w) (rs1Field w) (rs2Field w))
  | none => .error (illegalGround w)

/-- The 2-bit index of a field register (R101). -/
def FReg.toBits : FReg → BitVec 2
  | .f0 => 0
  | .f1 => 1
  | .f2 => 2
  | .f3 => 3

/-- `OPC | rd << 8 | rs1 << 10 | rs2 << 12` (R105). -/
def packWord (opc : BitVec 8) (rd rs1 rs2 : FReg) : Word :=
  opc.setWidth 32 ||| (rd.toBits.setWidth 32 <<< 8) ||| (rs1.toBits.setWidth 32 <<< 10) |||
    (rs2.toBits.setWidth 32 <<< 12)

/-- The command word of a command (R105); a field that the class does not use is 0 (R104). -/
def encode : Instr → Word
  | .nop => packWord 0x00 .f0 .f0 .f0
  | .feXor rd rs1 rs2 => packWord 0x01 rd rs1 rs2
  | .feMul rd rs1 rs2 => packWord 0x02 rd rs1 rs2
  | .feDbl rd rs1 => packWord 0x03 rd rs1 .f0
  | .pvInit rs1 => packWord 0x10 .f0 rs1 .f0
  | .pvReset => packWord 0x11 .f0 .f0 .f0
  | .pvUpd rs1 => packWord 0x12 .f0 rs1 .f0
  | .pvUpdb => packWord 0x13 .f0 .f0 .f0
  | .pvSum rd => packWord 0x14 rd .f0 .f0
  | .pvRest rs1 => packWord 0x15 .f0 rs1 .f0
  | .xctr rs1 => packWord 0x20 .f0 rs1 .f0
  | .hctr2Init => packWord 0x30 .f0 .f0 .f0
  | .hctr2Enc => packWord 0x31 .f0 .f0 .f0
  | .hctr2Dec => packWord 0x32 .f0 .f0 .f0

/-- The command word that an instruction of `nbits` bits with value `w` is. Every command is one 32-bit word
written to CMD (R100), so there is no byte order to lay out: bit 0 of `w` is bit 0 of the word. -/
def commandWord (nbits w : Nat) : Word := BitVec.ofNat 32 (w % 2 ^ nbits)

/-- The command that the decoder reads from an instruction of `nbits` bits with value `w`. -/
def decodeTableWord (nbits w : Nat) : Option Instr :=
  match decode (commandWord nbits w) with
  | .ok i => some i
  | .error _ => none

end Sys2Proof
end

