-- ==== Sys2Proof/Machine/Field.lean ====
section
/-! DEFINITION. GF(2^128) modulo `P = x^128 + x^127 + x^126 + x^121 + 1`: doubling, the POLYVAL product, and the
Karatsuba multiplier with its reduction. -/

namespace Sys2Proof.Machine

/-- X128, the element `x^128 mod P` (R130). -/
def x128 : Elem := 0xC2000000000000000000000000000001

/-- `x^(-128) mod P` (R131). -/
def xInv128 : Elem := 0x92040000000000000000000000000001

/-- `double(a) = a · x mod P` (R134). -/
def double (a : Elem) : Elem :=
  (a <<< 1) ^^^ (if a.getLsbD 127 then x128 else 0)

/-- The plain product `a · b mod P`, by Horner's rule over the bits of `b` (R130). -/
def mulMod (a b : Elem) : Elem :=
  (List.range 128).foldr (fun i acc => double acc ^^^ (if b.getLsbD i then a else 0)) 0

/-- `dot(a, b) = a · b · x^(-128) mod P`, the POLYVAL product, as the normative R131 gives it. -/
def dot (a b : Elem) : Elem := mulMod (mulMod a b) xInv128

/-- `clmul64(a, b)`: the 128-bit carry-less product of two 64-bit values (R15). -/
def clmul64 (a b : BitVec 64) : BitVec 128 :=
  (List.range 64).foldr (fun i acc => (acc <<< 1) ^^^ (if b.getLsbD i then a.setWidth 128 else 0)) 0

/-- The Karatsuba step of R132: the 256-bit product by three 64×64 carry-less products. -/
def karatsuba (a b : Elem) : BitVec 256 :=
  let a0 := a.extractLsb' 0 64
  let a1 := a.extractLsb' 64 64
  let b0 := b.extractLsb' 0 64
  let b1 := b.extractLsb' 64 64
  let lo := clmul64 a0 b0
  let hi := clmul64 a1 b1
  let mid := clmul64 (a0 ^^^ a1) (b0 ^^^ b1) ^^^ lo ^^^ hi
  lo.setWidth 256 ^^^ (mid.setWidth 256 <<< 64) ^^^ (hi.setWidth 256 <<< 128)

/-- The reduction constant `C` of R133: bits 63, 62 and 57. -/
def reductionConstant : BitVec 64 := 0xc200000000000000

/-- The two folds of R133 over the four 64-bit words of a 256-bit product. -/
def reduce (d : BitVec 256) : Elem :=
  let v0 := d.extractLsb' 0 64
  let v1 := d.extractLsb' 64 64
  let v2 := d.extractLsb' 128 64
  let v3 := d.extractLsb' 192 64
  let t := clmul64 v0 reductionConstant
  let v1 := v1 ^^^ t.extractLsb' 0 64
  let v2 := v2 ^^^ v0 ^^^ t.extractLsb' 64 64
  let t := clmul64 v1 reductionConstant
  let v2 := v2 ^^^ t.extractLsb' 0 64
  let v3 := v3 ^^^ v1 ^^^ t.extractLsb' 64 64
  v3 ++ v2

/-- The product as the multiplier computes it, by R132 and then R133. R131 is normative and `dot` is what the
commands use; the two are claimed equal. -/
def dotByReduction (a b : Elem) : Elem := reduce (karatsuba a b)

end Sys2Proof.Machine
end

