-- ==== Sys2Proof/Config.lean ====
section
/-! DEFINITION. The free values: the external block cipher and the draws that the spec leaves unconstrained. None has
a body, so no proof can see what a value is. The parameter BUF_BYTES and the inputs of the block-cipher port are fields
of the state (`State.bufSel`, `State.inputs`), so that a statement about every state covers every legal value. -/

namespace Sys2Proof

/-- The external block cipher under each of its keys: a permutation of the 16-byte blocks, read as 128-bit bus values
(R12, R84). `Ek` is the permutation and `Dk` its inverse, so `Dk(Ek(x)) = x` and `Ek(Dk(x)) = x` hold by
construction. The key is a label of the environment; the core never sees it (R296). -/
opaque Config.blockCipher : Nat → Equiv.Perm Elem

/-- The 32-bit draws: draw `n` is what a host read returns where R71 or R248 leaves the value unconstrained. -/
opaque Config.freeWord : Nat → Word

/-- The 128-bit draws for the scratch registers, whose contents between commands are unspecified (R35): value `k` of
draw `n`. -/
opaque Config.freeElem : Nat → Nat → Elem

end Sys2Proof
end

