-- ==== Sys2Proof/Machine/State.lean ====
section
/-! DEFINITION. The state of the core, of its inputs and of its surroundings, the reasons a step can stop, and the
state after reset. -/

namespace Sys2Proof.Machine

/-- The error codes of R261. Codes 8 to 15 are never produced, so no constructor stands for them. -/
inductive ErrCode where
  /-- 0x0 NONE. -/
  | noError
  /-- 0x1 ILLEGAL (R262). -/
  | illegal
  /-- 0x2 NOT_READY (R263). -/
  | notReady
  /-- 0x3 BLOCK_SIZE (R264). -/
  | blockSize
  /-- 0x4 RANGE (R265). -/
  | range
  /-- 0x5 SRC_SHORT (R266). -/
  | srcShort
  /-- 0x6 DST_SHORT (R267). -/
  | dstShort
  /-- 0x7 OVERLAP (R268). -/
  | overlap
deriving DecidableEq, Repr

/-- The field registers FR0 to FR3 (R30). -/
structure FieldRegs where
  f0 : Elem
  f1 : Elem
  f2 : Elem
  f3 : Elem
deriving DecidableEq, Repr

/-- The six ARG registers (R38); also the copy of them that a command latches (R37, R242). -/
structure Args where
  src : Word
  dst : Word
  len : Word
  dlen : Word
  twk : Word
  tlen : Word
deriving DecidableEq, Repr

/-- The tweak-hash cache: CACHE_VALID, CACHE_TLEN, SNAP[0] and SNAP[1] (R36). -/
structure Cache where
  valid : Bool
  tlen : Word
  snap0 : Elem
  snap1 : Elem
deriving DecidableEq, Repr

/-- The scratch registers MM, UU, S, TS and the counter block CTR (R35). -/
structure Scratch where
  mm : Elem
  uu : Elem
  s : Elem
  ts : Elem
  ctr : Elem
deriving DecidableEq, Repr

/-- The fields of STATUS that hold state of their own (R39). READY is `State.ready` and BCX is the input
`bc_has_xctr`; the reserved bits read 0. -/
structure Status where
  busy : Bool
  done : Bool
  err : Bool
  overrun : Bool
  errCode : ErrCode
  firstErr : ErrCode
deriving DecidableEq, Repr

/-- What the outside of the core holds at its inputs. `bcKey` is the key label of the external block cipher and
`bcAnswers` says that it answers its requests by itself, all of them; while it does not, it answers one only by the event
`response`. The core sees neither (R296, R305). -/
structure Inputs where
  rst : Bool
  bcBlockSize : Byte
  bcHasXctr : Bool
  bcKey : Nat
  bcAnswers : Bool
deriving DecidableEq, Repr

/-- The direction of a block-cipher request, `bc_req_dir` (R84). -/
inductive BcDir where
  | encrypt
  | decrypt
deriving DecidableEq, Repr

/-- One request of the core at the block-cipher port with the response to it (R84). -/
structure BcExchange where
  dir : BcDir
  req : Elem
  rsp : Elem
deriving DecidableEq, Repr

/-- Where the command in progress stands at the block-cipher port: how many of its requests are answered, and how many
are outstanding, that is transferred and not answered yet (R84, R85, R292). -/
structure Port where
  answered : Nat
  outstanding : Nat
deriving DecidableEq, Repr

/-- No request of the command in progress has been transferred: the port after reset, and while no command runs (R86,
R292). -/
def Port.idle : Port := ⟨0, 0⟩

/-- How a host bus access ended (R76 to R78, R290). -/
inductive BusResponse where
  /-- OKAY to a read, with its data. -/
  | okayRead (data : Word)
  /-- OKAY to a write. -/
  | okayWrite
  /-- ERROR to a read, with what stands on the data lines. -/
  | errorRead (data : Word)
  /-- ERROR to a write. -/
  | errorWrite
  /-- The core accepted no access, since `rst` was asserted. -/
  | notAccepted
deriving DecidableEq, Repr

/-- What happens next around the core, in the order of the agenda. -/
inductive Event where
  /-- The core has its turn: a command in progress is run to its completion (R243). -/
  | core
  /-- A host read of the register space (R76). -/
  | read (a : BitVec 16)
  /-- A host write to the register space (R76). -/
  | write (a : BitVec 16) (v : Word)
  /-- The input `rst` takes a level (R290). -/
  | setRst (level : Bool)
  /-- The input `bc_block_size` takes a value (R12). -/
  | setBlockSize (n : Byte)
  /-- The input `bc_has_xctr` takes a value (R12). -/
  | setHasXctr (b : Bool)
  /-- The external block cipher takes a key (R296, R300). -/
  | rekey (k : Nat)
  /-- The external block cipher starts or stops answering, by itself, whatever is asked of it (R305). -/
  | setAnswers (b : Bool)
  /-- The next request of the command in progress is transferred to the block cipher (R84, R86). -/
  | request
  /-- The block cipher answers the oldest outstanding request, with `Ek` or `Dk` of its data (R84). -/
  | response
  /-- `bc_rsp_valid` is 1 with data that answers no request of the command in progress (R292). -/
  | strayResponse (data : Elem)
deriving DecidableEq, Repr

/-- The local buffer BUF: the written bytes, by strictly rising offset (R70, R71). -/
abbrev Memory := List Host.Cell

/-- The state: the core's registers and memory, its parameter BUF_BYTES, its inputs, and the model's own fields. -/
structure State where
  /-- FR0 to FR3 (R30). -/
  fr : FieldRegs
  /-- H, the POLYVAL key (R31). -/
  h : Elem
  /-- Y, the POLYVAL accumulator (R32). -/
  y : Elem
  /-- L, the cipher constant (R33). -/
  l : Elem
  /-- READY (R34). -/
  ready : Bool
  /-- The tweak-hash cache (R36). -/
  cache : Cache
  /-- The scratch registers (R35). -/
  scratch : Scratch
  /-- BUF (R46, R70). -/
  buf : Memory
  /-- The ARG registers (R38). -/
  arg : Args
  /-- CTRL.IRQ_EN (R42). -/
  irqEn : Bool
  /-- STATUS (R39). -/
  status : Status
  /-- CUR_CMD of the command latch (R37). -/
  curCmd : Word
  /-- CUR_ARG of the command latch (R37). -/
  curArg : Args
  /-- The requests of the command in progress at the block-cipher port (R84, R85, R292). -/
  port : Port
  /-- The parameter BUF_BYTES, which is `2 ^ (6 + bufSel)`: a power of two from 64 to 32768 (R9). -/
  bufSel : Fin 10
  /-- The inputs of the core and the block cipher behind its port (R12, R290). -/
  inputs : Inputs
  /-- The model's own: what the host and the surroundings do next, and where the core has its turn. -/
  agenda : List Event
  /-- The model's own: how the last host bus access ended. -/
  busOut : Option BusResponse
  /-- The model's own: the exchanges of completed commands at the block-cipher port, oldest first. -/
  bcLog : List BcExchange
  /-- The model's own: the number of the next draw of a free value. -/
  draws : Nat
deriving DecidableEq, Repr

/-- Why a step stops. -/
inductive Fault where
  /-- Raised by `pv.updb`, `xctr`, `hctr2.enc` and `hctr2.dec` that read the BUF byte at this offset, which nothing has
  written: such a command has no meaning (R71, R303). Safe: no claim is made of what follows. -/
  | unwrittenRead (offset : Nat)
  /-- Raised by the event `rekey` while a command is in progress: a violation of a host duty that has no meaning
  (R300). Safe. -/
  | keyChangeWhileBusy
  /-- Raised by the event `strayResponse` while a request is outstanding, which the core would take for its answer: the
  platform must prevent it (R292, I16). Safe. -/
  | strayResponseWhileOutstanding
deriving DecidableEq, Repr

/-- Why a step is refused. -/
inductive Refusal where
  /-- Raised by an arm of `exec` whose instruction has no meaning yet; no arm raises it now. Safe. -/
  | notModelled (mnemonic : String)
deriving DecidableEq, Repr

/-- Six ARG registers that hold 0. -/
def Args.zero : Args := ⟨0, 0, 0, 0, 0, 0⟩

/-- The machine right after reset (R48, R290, R291), with BUF_BYTES = 4096 (R9). Where the spec gives no value the
assumption log names it: the scratch registers and the command latch (entry 3), the inputs (entry 4). -/
def State.reset : State where
  fr := ⟨0, 0, 0, 0⟩
  h := 0
  y := 0
  l := 0
  ready := false
  cache := ⟨false, 0, 0, 0⟩
  scratch := ⟨0, 0, 0, 0, 0⟩
  buf := []
  arg := Args.zero
  irqEn := false
  status := ⟨false, false, false, false, .noError, .noError⟩
  curCmd := 0
  curArg := Args.zero
  port := Port.idle
  bufSel := 6
  inputs := ⟨false, 16, false, 0, true⟩
  agenda := []
  busOut := none
  bcLog := []
  draws := 0

end Sys2Proof.Machine
end

