-- ==== Sys2Proof/Machine/Flags.lean ====
section
/-! DEFINITION. The words of the status, control and configuration registers, the error codes, and the interrupt. -/

namespace Sys2Proof.Machine

/-- The 4-bit code of an error (R261). -/
def ErrCode.code : ErrCode → BitVec 4
  | .noError => 0x0
  | .illegal => 0x1
  | .notReady => 0x2
  | .blockSize => 0x3
  | .range => 0x4
  | .srcShort => 0x5
  | .dstShort => 0x6
  | .overlap => 0x7

/-- A one-bit flag at bit `k` of a host word. -/
def flagAt (b : Bool) (k : Nat) : Word := (BitVec.ofBool b).setWidth 32 <<< k

/-- The STATUS word (R39): BUSY 0, DONE 1, ERR 2, OVERRUN 3, READY 4, BCX 5, ERRCODE 11:8, FIRST_ERR 15:12; every
other bit reads 0. -/
def statusWord (s : State) : Word :=
  flagAt s.status.busy 0 ||| flagAt s.status.done 1 ||| flagAt s.status.err 2 ||| flagAt s.status.overrun 3 |||
    flagAt s.ready 4 ||| flagAt s.inputs.bcHasXctr 5 ||| (s.status.errCode.code.setWidth 32 <<< 8) |||
    (s.status.firstErr.code.setWidth 32 <<< 12)

/-- The ID word (R40). -/
def idWord : Word := 0x32544348

/-- BUF_LOG2 of CONFIG: the logarithm of BUF_BYTES, from 6 to 15 (R9, R41). -/
def bufLog2 (s : State) : Nat := 6 + s.bufSel.val

/-- The CONFIG word (R41): BUF_LOG2 in bits 4:0 and NFR = 4 in bits 15:8. -/
def configWord (s : State) : Word := BitVec.ofNat 32 (bufLog2 s) ||| (4 <<< 8)

/-- The CTRL word (R42): IRQ_EN in bit 0. -/
def ctrlWord (s : State) : Word := flagAt s.irqEn 0

/-- The output `irq = CTRL.IRQ_EN AND STATUS.DONE`, which is no state (R45, R273). -/
def irq (s : State) : Bool := s.irqEn && s.status.done

/-- What a write of `w` to STATUS leaves of its fields: a 1 clears DONE, ERR with FIRST_ERR, or OVERRUN; every other
bit is ignored (R39). -/
def Status.clearedBy (w : Word) (t : Status) : Status where
  busy := t.busy
  done := t.done && !w.getLsbD 1
  err := t.err && !w.getLsbD 2
  overrun := t.overrun && !w.getLsbD 3
  errCode := t.errCode
  firstErr := if w.getLsbD 2 then .noError else t.firstErr

end Sys2Proof.Machine
end

