-- ==== Sys2Proof/Machine/Operands.lean ====
section
/-! DEFINITION. Operands: the field registers, the regions that the latched ARG values name, and the checks made of
them, in the order of R269. -/

namespace Sys2Proof.Machine

/-- Read field register `r` (R30). -/
def FieldRegs.read (f : FieldRegs) : FReg → Elem
  | .f0 => f.f0
  | .f1 => f.f1
  | .f2 => f.f2
  | .f3 => f.f3

/-- Write field register `r` (R30). -/
def FieldRegs.write (f : FieldRegs) (r : FReg) (v : Elem) : FieldRegs :=
  match r with
  | .f0 => { f with f0 := v }
  | .f1 => { f with f1 := v }
  | .f2 => { f with f2 := v }
  | .f3 => { f with f3 := v }

/-- BUF_BYTES, the size of BUF (R9). -/
def bufBytes (s : State) : Nat := 2 ^ bufLog2 s

/-- XCTR_LANES (R10). It bounds the keystream requests outstanding at once (R85); no meaning of a command reads it. -/
def xctrLanes (s : State) : Nat := if s.inputs.bcHasXctr then 4 else 1

/-- `Ek` under the block cipher's current key (R12). -/
def ek (s : State) (x : Elem) : Elem := Config.blockCipher s.inputs.bcKey x

/-- `Dk` under the block cipher's current key (R12). -/
def dk (s : State) (x : Elem) : Elem := (Config.blockCipher s.inputs.bcKey).symm x

/-- A region `[o, o+k)` is in range when `o + k <= BUF_BYTES`, in exact arithmetic (R15, R189). -/
def inRange (s : State) (o k : Word) : Bool := decide (o.toNat + k.toNat ≤ bufBytes s)

/-- Partial overlap of the regions of length `n` at `a` and `b` (R188). -/
def partialOverlap (a b n : Nat) : Bool :=
  decide (0 < n) && decide (a ≠ b) && decide (a < b + n) && decide (b < a + n)

/-- Partial overlap of the latched source with the first ARG_LEN bytes of the destination (R268). -/
def argsOverlap (a : Args) : Bool := partialOverlap a.src.toNat a.dst.toNat a.len.toNat

/-- The check of `hctr2.init` (R180). It samples `bc_block_size` before the first request: once a request has been
transferred, the check has passed (R86; DEDUCED, log entry 16). -/
def initCheck (s : State) : Option ErrCode :=
  if s.port = Port.idle ∧ s.inputs.bcBlockSize ≠ 16 then some .blockSize else none

/-- The checks of `pv.updb` (R156, R269). -/
def updbCheck (s : State) : Option ErrCode :=
  if !inRange s s.curArg.src s.curArg.len then some .range else none

/-- The checks of `xctr`, in the order of R269 (R224). -/
def xctrCheck (s : State) : Option ErrCode :=
  if !s.ready then some .notReady
  else if !(inRange s s.curArg.src s.curArg.len && inRange s s.curArg.dst s.curArg.dlen) then some .range
  else if s.curArg.dlen.toNat < s.curArg.len.toNat then some .dstShort
  else if argsOverlap s.curArg then some .overlap
  else none

/-- `check_cipher_args` of R187, in the order of R269. -/
def cipherCheck (s : State) : Option ErrCode :=
  if !s.ready then some .notReady
  else if !(inRange s s.curArg.src s.curArg.len && inRange s s.curArg.dst s.curArg.dlen &&
      inRange s s.curArg.twk s.curArg.tlen) then some .range
  else if s.curArg.len.toNat < 16 then some .srcShort
  else if s.curArg.dlen.toNat < s.curArg.len.toNat then some .dstShort
  else if argsOverlap s.curArg then some .overlap
  else none

end Sys2Proof.Machine
end

