-- ==== Sys2Proof/Machine/Ops.lean ====
section
/-! DEFINITION. The named operations over BUF and over the command lifecycle: acceptance, completion, the error that
ends a command (this core's one exception) and its acknowledgement, and the block-cipher exchanges. -/

namespace Sys2Proof.Machine

/-- What a byte of BUF that nothing has written reads as: no value (R71). -/
def Memory.unlisted : Option Byte := none

/-- Read the byte of BUF at an offset; none where nothing has written it (R71). -/
def Memory.read : Memory → Nat → Option Byte
  | [], _ => Memory.unlisted
  | c :: m, a => if c.1 = a then some c.2 else Memory.read m a

/-- Write the byte of BUF at an offset. -/
def Memory.write : Memory → Nat → Byte → Memory
  | [], a, b => [(a, b)]
  | c :: m, a, b =>
    if a < c.1 then (a, b) :: c :: m
    else if a = c.1 then (a, b) :: m
    else c :: Memory.write m a b

/-- The canonical form of BUF: strictly rising offsets. No entry can equal what an unlisted byte reads as, since
that is no value. -/
abbrev Memory.wf (m : Memory) : Prop := m.Pairwise (fun c d => c.1 < d.1)

/-- `MemRead(addr, n)` (R72), or the first offset that nothing has written. -/
def Memory.readBytes (m : Memory) : Nat → Nat → Except Nat (List Byte)
  | _, 0 => .ok []
  | a, n + 1 =>
    match m.read a with
    | none => .error a
    | some b =>
      match Memory.readBytes m (a + 1) n with
      | .error e => .error e
      | .ok bs => .ok (b :: bs)

/-- `MemWrite(addr, n, v)` (R73), with `n` the length of `v`. -/
def Memory.writeBytes : Memory → Nat → List Byte → Memory
  | m, _, [] => m
  | m, a, b :: bs => Memory.writeBytes (m.write a b) (a + 1) bs

/-- The outcome type of a meaning. -/
abbrev Result := Host.Outcome State Fault Refusal

/-- A command that reads `n` bytes of BUF at `a` and goes on with them; an unwritten byte among them is a fault
(R71, R303). -/
def readBuf (s : State) (a n : Word) (k : List Byte → Result) : Result :=
  match s.buf.readBytes a.toNat n.toNat with
  | .error e => .fault (.unwrittenRead e)
  | .ok bs => k bs

/-- Acceptance of the command word `w` (R242). -/
def accept (w : Word) (s : State) : State :=
  { s with
    curCmd := w
    curArg := s.arg
    status := { s.status with busy := true, done := false } }

/-- The command word that the core runs: CUR_CMD (R37, R243). It fetches nothing else (R89). -/
def fetchWord (s : State) : Word := s.curCmd

/-- Completion without error: `complete` (R244). -/
def complete (s : State) : State :=
  { s with status := { s.status with errCode := .noError, done := true, busy := false } }

/-- Completion with error, `raise Error(code)`: the one exception entry of this core (R245, R260, R274). -/
def raiseError (code : ErrCode) (s : State) : State :=
  { s with
    status :=
      { s.status with
        errCode := code
        firstErr := if s.status.err then s.status.firstErr else code
        err := true
        done := true
        busy := false } }

/-- A host write of `w` to STATUS: the acknowledgement of a completion or an error, this core's only return from one
(R39, R275). -/
def acknowledge (w : Word) (s : State) : State :=
  { s with status := s.status.clearedBy w }

/-- One more request is transferred (R84). -/
def Port.issue (p : Port) : Port := { p with outstanding := p.outstanding + 1 }

/-- The oldest outstanding request is answered; with none outstanding nothing happens (R84, R292). -/
def Port.answer (p : Port) : Port :=
  if p.outstanding = 0 then p else ⟨p.answered + 1, p.outstanding - 1⟩

/-- A command whose checks have passed and whose block-cipher exchanges are `log`. It takes the state `after` once the
block cipher has answered them all: those that are not answered yet it answers by itself where it answers. Where it does
not, the core stays BUSY as it is (R305; DESIGN CHOICE of form, log entries 10, 12 and 23). -/
def exchange (log : List BcExchange) (s after : State) : Result :=
  if s.inputs.bcAnswers || decide (log.length ≤ s.port.answered) then
    .next { after with bcLog := s.bcLog ++ log, port := Port.idle }
  else .next s

/-- The scratch registers after a command that uses them: unspecified values, taken from draw `n` (R35). -/
def freeScratch (n : Nat) : Scratch :=
  ⟨Config.freeElem n 0, Config.freeElem n 1, Config.freeElem n 2, Config.freeElem n 3, Config.freeElem n 4⟩

/-- The scratch registers are left with unspecified values (R35, R193; DESIGN CHOICE of form, log entry 9). -/
def leaveScratch (s : State) : State :=
  { s with scratch := freeScratch s.draws, draws := s.draws + 1 }

end Sys2Proof.Machine
end

