-- ==== Sys2Proof/Machine/FieldCommands.lean ====
section
/-! DEFINITION. The meanings of the field commands FE_XOR, FE_MUL and FE_DOUBLE. -/

namespace Sys2Proof.Machine

/-- A field command completes with the value `v` in register `rd` (R18, R244). -/
def finishField (rd : FReg) (v : Elem) (s : State) : Result :=
  .next (complete { s with fr := s.fr.write rd v })

/-- `fe.xor fd, fa, fb` (R135, R138). -/
def execFeXor (rd rs1 rs2 : FReg) (s : State) : Result :=
  finishField rd (s.fr.read rs1 ^^^ s.fr.read rs2) s

/-- `fe.mul fd, fa, fb` (R131, R139). -/
def execFeMul (rd rs1 rs2 : FReg) (s : State) : Result :=
  finishField rd (dot (s.fr.read rs1) (s.fr.read rs2)) s

/-- `fe.dbl fd, fa` (R134, R140). -/
def execFeDbl (rd rs1 : FReg) (s : State) : Result :=
  finishField rd (double (s.fr.read rs1)) s

end Sys2Proof.Machine
end

