-- ==== Sys2Proof/Machine/Bytes.lean ====
section
/-! DEFINITION. Byte order: the wire bytes of field elements and host words, padding, and the cutting into blocks. -/

namespace Sys2Proof.Machine

/-- `bytes(v)` of R16: the 16 wire bytes of a field element, byte 0 first; byte `j` is `v[8j+7:8j]`. -/
def bytesOf (v : Elem) : List Byte :=
  (List.range 16).map fun j => v.extractLsb' (8 * j) 8

/-- `fe(B)` of R16: `B[0] + B[1] * 2^8 + B[2] * 2^16 + …` for at most 16 bytes. -/
def fe (bs : List Byte) : Elem :=
  bs.foldr (fun b acc => (acc <<< 8) ||| b.setWidth 128) 0

/-- The four bytes of a host word, the byte of bits `[7:0]` first (R80, R81). -/
def wordBytes (w : Word) : List Byte :=
  (List.range 4).map fun j => w.extractLsb' (8 * j) 8

/-- The host word of four bytes, the first in bits `[7:0]` (R80, R81). -/
def wordOf (bs : List Byte) : Word :=
  bs.foldr (fun b acc => (acc <<< 8) ||| b.setWidth 32) 0

/-- `bin64(v) ‖ 0^64` as a field element: `v` in the low 64 bits (R14, R82, R181). -/
def bin64 (v : Nat) : Elem := (BitVec.ofNat 64 v).setWidth 128

/-- `bin128(i)`: the counter as a 128-bit little-endian integer (R220). -/
def bin128 (i : Nat) : Elem := BitVec.ofNat 128 i

/-- `pad16` of R182: the fewest zero bytes that make the length a multiple of 16. -/
def pad16 (bs : List Byte) : List Byte :=
  bs ++ List.replicate ((16 - bs.length % 16) % 16) 0

/-- The whole 16-byte blocks of a byte string, as field elements (R150, R152). -/
def blocks (bs : List Byte) : List Elem :=
  (List.range (bs.length / 16)).map fun k => fe ((bs.drop (16 * k)).take 16)

/-- `ceil(n/16)` (R15). -/
def ceil16 (n : Nat) : Nat := (n + 15) / 16

end Sys2Proof.Machine
end

