-- ==== Sys2Proof/Machine/Hash.lean ====
section
/-! DEFINITION. POLYVAL, the HCTR2 tweak hash, and the tweak-hash cache. -/

namespace Sys2Proof.Machine

/-- `absorb(x)`: the new Y is `dot(Y ⊕ x, H)` (R151). -/
def absorb (h y x : Elem) : Elem := dot (y ^^^ x) h

/-- `absorb_bytes(X)`: one absorb for each 16-byte block, the last one padded with zero bytes and no marker (R152). -/
def absorbBytes (h y : Elem) (bs : List Byte) : Elem :=
  (blocks (pad16 bs)).foldl (absorb h) y

/-- `POLYVAL(h, X1 ‖ … ‖ Xn)` over the blocks (R150). -/
def polyval (h : Elem) (xs : List Elem) : Elem :=
  xs.foldl (fun y x => dot (y ^^^ x) h) 0

/-- The alignment bit `a` of a trailing segment of `n` bytes (R181). -/
def alignBit (n : Nat) : Bool := n % 16 != 0

/-- The header block `hdr(t, a) = bin64(16·t + 2 + a) ‖ 0^64` (R181). -/
def hdr (t : Nat) (a : Bool) : Elem := bin64 (16 * t + 2 + a.toNat)

/-- `X ‖ [0x01 if a = 1]` (R182). -/
def marked (bs : List Byte) (a : Bool) : List Byte := if a then bs ++ [0x01] else bs

/-- The tweak hash `H(T, X)` as a function (R182). -/
def tweakHash (h : Elem) (t x : List Byte) : Elem :=
  let a := alignBit x.length
  polyval h (hdr t.length a :: (blocks (pad16 t) ++ blocks (pad16 (marked x a))))

/-- The cache after `cache_state(t, a)`: as it was on a hit, both snapshots computed anew on a miss (R183). -/
def cacheState (c : Cache) (h : Elem) (t : Word) : Cache :=
  if c.valid && c.tlen == t then c
  else ⟨true, t, dot (hdr t.toNat false) h, dot (hdr t.toNat true) h⟩

/-- `SNAP[a]` (R36). -/
def Cache.snap (c : Cache) (a : Bool) : Elem := if a then c.snap1 else c.snap0

/-- `tweak_prefix(T, a)`: TS, the state after the header and the tweak, from `SNAP[a]` (R184). -/
def tweakPrefix (h snap : Elem) (t : List Byte) : Elem := absorbBytes h snap t

/-- `hash_tail(X, a)`: the tail absorbed from TS (R184). -/
def hashTail (h ts : Elem) (x : List Byte) (a : Bool) : Elem := absorbBytes h ts (marked x a)

end Sys2Proof.Machine
end

