-- ==== Sys2Proof/Machine/Keystream.lean ====
section
/-! DEFINITION. The XCTR keystream over a block-cipher encryption `e`. -/

namespace Sys2Proof.Machine

/-- Keystream block `i` for the nonce `n`: `Ek(bytes(S ⊕ bin128(i)))`, the counter put in before the call (R220, C1). -/
def ksBlock (e : Elem → Elem) (n : Elem) (i : Nat) : Elem := e (n ^^^ bin128 i)

/-- The blocks `KS_1 ‖ … ‖ KS_m` as bytes, one at a time: the generic path (R221, R223). -/
def keystream (e : Elem → Elem) (n : Elem) (m : Nat) : List Byte :=
  (List.range m).flatMap fun k => bytesOf (ksBlock e n (k + 1))

/-- `XCTR(S)[0:k]` applied to `k` bytes (R221). -/
def xctrBytes (e : Elem → Elem) (n : Elem) (bs : List Byte) : List Byte :=
  List.zipWith (· ^^^ ·) bs (keystream e n (ceil16 bs.length))

/-- The block-cipher exchanges of a keystream over `k` bytes: one encrypt request a block, block 1 first (R86, R221). -/
def keystreamLog (e : Elem → Elem) (n : Elem) (k : Nat) : List BcExchange :=
  (List.range (ceil16 k)).map fun j => ⟨.encrypt, n ^^^ bin128 (j + 1), ksBlock e n (j + 1)⟩

/-- The blocks `KS_1 ‖ … ‖ KS_m` by groups of `lanes` consecutive counters: the accelerated path (R85, R223). The
commands use `keystream`; the two are claimed equal. -/
def keystreamByLanes (e : Elem → Elem) (lanes : Nat) (n : Elem) (m : Nat) : List Byte :=
  (List.range ((m + lanes - 1) / lanes)).flatMap fun g =>
    ((List.range lanes).filter fun k => lanes * g + k < m).flatMap fun k =>
      bytesOf (ksBlock e n (lanes * g + k + 1))

end Sys2Proof.Machine
end

