-- ==== Sys2Proof/Machine/Hctr2.lean ====
section
/-! DEFINITION. The meanings of HCTR2_INIT, HCTR2_ENCRYPT and HCTR2_DECRYPT, over the nine steps. -/

namespace Sys2Proof.Machine

/-- The element 1, the constant block `bin64(1) ‖ 0^64` (R180). -/
def constantBlock : Elem := bin64 1

/-- `hctr2.init` (R180). -/
def execHctr2Init (s : State) : Result :=
  match initCheck s with
  | some code => .next (raiseError code { s with ready := false })
  | none =>
    exchange [⟨.encrypt, 0, ek s 0⟩, ⟨.encrypt, constantBlock, ek s constantBlock⟩] s
      (complete
        { s with
          h := ek s 0
          l := ek s constantBlock
          y := 0
          cache := { s.cache with valid := false }
          ready := true })

/-- What the nine steps give: the output bytes, the final Y, and the block-cipher exchanges. -/
structure Hctr2Out where
  bytes : List Byte
  y : Elem
  log : List BcExchange
deriving DecidableEq, Repr

/-- The block-cipher call of step 5: `Ek` when sealing and `Dk` when opening (R190, C7). -/
def stepFive (e d : Elem → Elem) (dir : BcDir) (mm : Elem) : Elem :=
  match dir with
  | .encrypt => e mm
  | .decrypt => d mm

/-- The nine steps `hctr2_core(dir)` over the input `p` and the tweak `t` (R190), with the block cipher `e`, `d`, the
registers `h` and `l`, and the snapshot of the header block (R183). -/
def hctr2Core (e d : Elem → Elem) (dir : BcDir) (h l snap : Elem) (p t : List Byte) : Hctr2Out :=
  let m := fe (p.take 16)
  let n := p.drop 16
  let a := alignBit n.length
  let ts := tweakPrefix h snap t
  let mm := m ^^^ hashTail h ts n a
  let uu := stepFive e d dir mm
  let nonce := mm ^^^ uu ^^^ l
  let v := xctrBytes e nonce n
  let hv := hashTail h ts v a
  { bytes := bytesOf (uu ^^^ hv) ++ v
    y := hv
    log := ⟨dir, mm, uu⟩ :: keystreamLog e nonce n.length }

/-- `check_cipher_args; hctr2_core(dir)`: one run of the cipher command in direction `dir` (R187, R190 to R193). -/
def hctr2Run (dir : BcDir) (s : State) : Result :=
  match cipherCheck s with
  | some code => .next (raiseError code s)
  | none =>
    readBuf s s.curArg.src s.curArg.len fun p =>
      readBuf s s.curArg.twk s.curArg.tlen fun t =>
        let c := cacheState s.cache s.h s.curArg.tlen
        let r := hctr2Core (ek s) (dk s) dir s.h s.l (c.snap (alignBit (p.length - 16))) p t
        exchange r.log s
          (complete (leaveScratch
            { s with y := r.y, cache := c, buf := s.buf.writeBytes s.curArg.dst.toNat r.bytes }))

/-- `hctr2.enc` (R191). -/
def execHctr2Enc (s : State) : Result := hctr2Run .encrypt s

/-- `hctr2.dec` (R192). -/
def execHctr2Dec (s : State) : Result := hctr2Run .decrypt s

end Sys2Proof.Machine
end

