-- ==== Sys2Proof/Machine/Polyval.lean ====
section
/-! DEFINITION. The meanings of the POLYVAL commands. -/

namespace Sys2Proof.Machine

/-- `pv.init fa`: the key is taken verbatim; Y, READY and the cache are cleared (R153, R185). -/
def execPvInit (rs1 : FReg) (s : State) : Result :=
  .next (complete
    { s with h := s.fr.read rs1, y := 0, ready := false, cache := { s.cache with valid := false } })

/-- `pv.reset` (R154). -/
def execPvReset (s : State) : Result := .next (complete { s with y := 0 })

/-- `pv.upd fa` (R155). -/
def execPvUpd (rs1 : FReg) (s : State) : Result :=
  .next (complete { s with y := absorb s.h s.y (s.fr.read rs1) })

/-- `pv.updb` (R156). -/
def execPvUpdb (s : State) : Result :=
  match updbCheck s with
  | some code => .next (raiseError code s)
  | none =>
    readBuf s s.curArg.src s.curArg.len fun bs =>
      .next (complete { s with y := absorbBytes s.h s.y bs })

/-- `pv.sum fd` (R157). -/
def execPvSum (rd : FReg) (s : State) : Result :=
  .next (complete { s with fr := s.fr.write rd s.y })

/-- `pv.rest fa` (R158). -/
def execPvRest (rs1 : FReg) (s : State) : Result :=
  .next (complete { s with y := s.fr.read rs1 })

end Sys2Proof.Machine
end

