-- ==== Sys2Proof/Machine/System.lean ====
section
/-! DEFINITION. The meaning of NOP. -/

namespace Sys2Proof.Machine

/-- `nop`: it only completes (R240). -/
def execNop (s : State) : Result := .next (complete s)

end Sys2Proof.Machine
end

