-- ==== Sys2Proof/Machine/Xctr.lean ====
section
/-! DEFINITION. The meaning of XCTR. -/

namespace Sys2Proof.Machine

/-- `xctr fa` (R224). -/
def execXctr (rs1 : FReg) (s : State) : Result :=
  match xctrCheck s with
  | some code => .next (raiseError code s)
  | none =>
    readBuf s s.curArg.src s.curArg.len fun bs =>
      exchange (keystreamLog (ek s) (s.fr.read rs1) bs.length) s
        (complete (leaveScratch
          { s with buf := s.buf.writeBytes s.curArg.dst.toNat (xctrBytes (ek s) (s.fr.read rs1) bs) }))

end Sys2Proof.Machine
end

