-- ==== Sys2Proof/Machine/Dispatch.lean ====
section
/-! DEFINITION. One arm for each command: the effect of a legal command at its completion (R243). -/

namespace Sys2Proof.Machine

def exec (i : Instr) (s : State) : Host.Outcome State Fault Refusal :=
  match i with
  | .nop => Sys2Proof.Machine.execNop s
  | .feXor rd rs1 rs2 => Sys2Proof.Machine.execFeXor rd rs1 rs2 s
  | .feMul rd rs1 rs2 => Sys2Proof.Machine.execFeMul rd rs1 rs2 s
  | .feDbl rd rs1 => Sys2Proof.Machine.execFeDbl rd rs1 s
  | .pvInit rs1 => Sys2Proof.Machine.execPvInit rs1 s
  | .pvReset => Sys2Proof.Machine.execPvReset s
  | .pvUpd rs1 => Sys2Proof.Machine.execPvUpd rs1 s
  | .pvUpdb => Sys2Proof.Machine.execPvUpdb s
  | .pvSum rd => Sys2Proof.Machine.execPvSum rd s
  | .pvRest rs1 => Sys2Proof.Machine.execPvRest rs1 s
  | .xctr rs1 => Sys2Proof.Machine.execXctr rs1 s
  | .hctr2Init => Sys2Proof.Machine.execHctr2Init s
  | .hctr2Enc => Sys2Proof.Machine.execHctr2Enc s
  | .hctr2Dec => Sys2Proof.Machine.execHctr2Dec s

end Sys2Proof.Machine
end

