-- ==== Sys2Proof/Machine/Bus.lean ====
section
/-! DEFINITION. The host register space: the address map, and what a host read or write does. -/

namespace Sys2Proof.Machine

/-- The six ARG registers by name (R38). -/
inductive ArgReg where
  | src
  | dst
  | len
  | dlen
  | twk
  | tlen
deriving DecidableEq, Repr

/-- What an address of the host register space names (R77 to R79). -/
inductive Target where
  | misaligned
  | unmapped
  | id
  | config
  | ctrl
  | status
  | cmd
  | arg (k : ArgReg)
  /-- Word `j` of field register `r`. -/
  | frWord (r : FReg) (j : Fin 4)
  /-- Word `k` of BUF. -/
  | bufWord (k : Nat)
deriving DecidableEq, Repr

/-- The registers below offset 0x040 (R79). -/
def lowTarget (n : Nat) : Target :=
  match n with
  | 0x000 => .id
  | 0x004 => .config
  | 0x008 => .ctrl
  | 0x00C => .status
  | 0x010 => .cmd
  | 0x014 => .arg .src
  | 0x018 => .arg .dst
  | 0x01C => .arg .len
  | 0x020 => .arg .dlen
  | 0x024 => .arg .twk
  | 0x028 => .arg .tlen
  | _ => .unmapped

/-- The address map of R79 for a buffer of `size` bytes, with the alignment rule of R77. -/
def target (size : Nat) (a : BitVec 16) : Target :=
  let n := a.toNat
  if n % 4 ≠ 0 then .misaligned
  else if n < 0x40 then lowTarget n
  else if n < 0x80 then .frWord (FReg.ofBits (BitVec.ofNat 2 ((n - 0x40) / 16))) (Fin.ofNat 4 (n % 16 / 4))
  else if 0x8000 ≤ n ∧ n < 0x8000 + size then .bufWord ((n - 0x8000) / 4)
  else .unmapped

/-- Read an ARG register (R38). -/
def Args.read (g : Args) : ArgReg → Word
  | .src => g.src
  | .dst => g.dst
  | .len => g.len
  | .dlen => g.dlen
  | .twk => g.twk
  | .tlen => g.tlen

/-- Write an ARG register (R38). -/
def Args.write (g : Args) (k : ArgReg) (v : Word) : Args :=
  match k with
  | .src => { g with src := v }
  | .dst => { g with dst := v }
  | .len => { g with len := v }
  | .dlen => { g with dlen := v }
  | .twk => { g with twk := v }
  | .tlen => { g with tlen := v }

/-- Bits `[32j+31:32j]` of a field element (R80). -/
def elemWord (v : Elem) (j : Fin 4) : Word := v.extractLsb' (32 * j.val) 32

/-- A field element with bits `[32j+31:32j]` set to `w` and the other 96 bits unchanged (R80). -/
def setElemWord (v : Elem) (j : Fin 4) (w : Word) : Elem :=
  (v &&& ~~~(0xFFFFFFFF#128 <<< (32 * j.val))) ||| (w.setWidth 128 <<< (32 * j.val))

/-- BUF word `k` with byte `j` of `free` for each of its bytes that is unwritten (R71, R81; DESIGN CHOICE of form, log
entry 7). -/
def bufWordWith (m : Memory) (k : Nat) (free : Word) : Word :=
  wordOf ((List.range 4).map fun j => (m.read (4 * k + j)).getD (free.extractLsb' (8 * j) 8))

/-- All four bytes of BUF word `k` are written (R71). -/
def bufWordWritten (m : Memory) (k : Nat) : Bool :=
  (List.range 4).all fun j => (m.read (4 * k + j)).isSome

/-- A read that returns a draw: a field-register or BUF word while BUSY = 1 (R248), or a BUF word with an unwritten byte
(R71). The forms are log entries 7 and 8. -/
def readDraws (s : State) : Target → Bool
  | .frWord _ _ => s.status.busy
  | .bufWord k => s.status.busy || !bufWordWritten s.buf k
  | _ => false

/-- How a host read of a target ends (R38 to R43, R77 to R81, R248). -/
def readResponse (s : State) : Target → BusResponse
  | .misaligned => .errorRead 0
  | .unmapped => .errorRead 0
  | .id => .okayRead idWord
  | .config => .okayRead (configWord s)
  | .ctrl => .okayRead (ctrlWord s)
  | .status => .okayRead (statusWord s)
  | .cmd => .okayRead 0
  | .arg k => .okayRead (s.arg.read k)
  | .frWord r j => .okayRead (if s.status.busy then Config.freeWord s.draws else elemWord (s.fr.read r) j)
  | .bufWord k =>
    .okayRead (if s.status.busy then Config.freeWord s.draws else bufWordWith s.buf k (Config.freeWord s.draws))

/-- A host read: it changes nothing but the response and the number of the next draw (R83). -/
def hostRead (a : BitVec 16) (s : State) : State :=
  let t := target (bufBytes s) a
  { s with
    busOut := some (readResponse s t)
    draws := if readDraws s t then s.draws + 1 else s.draws }

/-- A write dropped because BUSY = 1: it sets OVERRUN and nothing else (R246, R247). -/
def dropWrite (s : State) : State := { s with status := { s.status with overrun := true } }

/-- A write that is taken only while BUSY = 0 (R246, R247). -/
def unlessBusy (s : State) (taken : State) : State := if s.status.busy then dropWrite s else taken

/-- What a host write of `v` to a target does (R38 to R43, R77 to R81, R241, R246, R247). -/
def writeTarget (v : Word) (s : State) : Target → State
  | .misaligned => s
  | .unmapped => s
  | .id => s
  | .config => s
  | .ctrl => { s with irqEn := v.getLsbD 0 }
  | .status => acknowledge v s
  | .cmd => unlessBusy s (accept v s)
  | .arg k => unlessBusy s { s with arg := s.arg.write k v }
  | .frWord r j => unlessBusy s { s with fr := s.fr.write r (setElemWord (s.fr.read r) j v) }
  | .bufWord k => unlessBusy s { s with buf := s.buf.writeBytes (4 * k) (wordBytes v) }

/-- How a host write to a target ends: ERROR where the access is misaligned or unmapped, else OKAY (R77, R78). -/
def writeResponse : Target → BusResponse
  | .misaligned => .errorWrite
  | .unmapped => .errorWrite
  | _ => .okayWrite

/-- A host write (R76). -/
def hostWrite (a : BitVec 16) (v : Word) (s : State) : State :=
  let t := target (bufBytes s) a
  { writeTarget v s t with busOut := some (writeResponse t) }

/-- A host access while `rst` is asserted: the core accepts none (R290). That it ends with `notAccepted` is a DESIGN
CHOICE (log entry 11). -/
def refuseAccess (s : State) : State := { s with busOut := some .notAccepted }

end Sys2Proof.Machine
end

