-- ==== Sys2Proof/Machine/Env.lean ====
section
/-! DEFINITION. What the surroundings of the core do: reset, the inputs, the block cipher's key, its requests and
responses, and host accesses. -/

namespace Sys2Proof.Machine

/-- The core under reset: every register at its reset value, BUF unwritten, the command in progress abandoned with
its requests (R48, R290 to R292). The scratch registers take unspecified values (R35); the parameter, the inputs and the model's own fields
stay (log entries 9, 11 and 17). -/
def resetCore (s : State) : State :=
  leaveScratch
    { State.reset with
      bufSel := s.bufSel
      inputs := s.inputs
      agenda := s.agenda
      busOut := s.busOut
      bcLog := s.bcLog
      draws := s.draws }

/-- The input `rst` takes a level. The registers take their reset values while it is asserted and hold them when it is
released (R290); a level that is already there changes nothing that the spec states (DEDUCED,
log entry 11). -/
def setRst (level : Bool) (s : State) : State :=
  if level || s.inputs.rst then
    resetCore { s with inputs := { s.inputs with rst := level } }
  else s

/-- How many block-cipher requests the command issues on the latched arguments: those of R86 where its checks pass, and
none where it ends in error. -/
def requestCount (s : State) : Instr → Nat
  | .nop => 0
  | .feXor _ _ _ => 0
  | .feMul _ _ _ => 0
  | .feDbl _ _ => 0
  | .pvInit _ => 0
  | .pvReset => 0
  | .pvUpd _ => 0
  | .pvUpdb => 0
  | .pvSum _ => 0
  | .pvRest _ => 0
  | .xctr _ => if (xctrCheck s).isNone then ceil16 s.curArg.len.toNat else 0
  | .hctr2Init => if (initCheck s).isNone then 2 else 0
  | .hctr2Enc => if (cipherCheck s).isNone then 1 + ceil16 (s.curArg.len.toNat - 16) else 0
  | .hctr2Dec => if (cipherCheck s).isNone then 1 + ceil16 (s.curArg.len.toNat - 16) else 0

/-- How many requests the command may have outstanding: XCTR_LANES during a keystream and one otherwise (R85). The
keystream of a cipher command follows step 5, whose answer its nonce is made of (R190; DEDUCED, log entry 23). -/
def requestWindow (s : State) : Instr → Nat
  | .nop => 1
  | .feXor _ _ _ => 1
  | .feMul _ _ _ => 1
  | .feDbl _ _ => 1
  | .pvInit _ => 1
  | .pvReset => 1
  | .pvUpd _ => 1
  | .pvUpdb => 1
  | .pvSum _ => 1
  | .pvRest _ => 1
  | .xctr _ => xctrLanes s
  | .hctr2Init => 1
  | .hctr2Enc => if s.port.answered = 0 then 1 else xctrLanes s
  | .hctr2Dec => if s.port.answered = 0 then 1 else xctrLanes s

/-- The core has a request for the block cipher: it is BUSY with a command that has more to issue, and has not as many
outstanding as it may (R84 to R86). Under reset it issues none (R290). -/
def mayRequest (s : State) : Bool :=
  s.status.busy && !s.inputs.rst &&
    match decode (fetchWord s) with
    | .ok i =>
      decide (s.port.answered + s.port.outstanding < requestCount s i) &&
        decide (s.port.outstanding < requestWindow s i)
    | .error _ => false

/-- The transfer of the next request, where the core has one (R84). -/
def transferRequest (s : State) : State :=
  { s with port := if mayRequest s then s.port.issue else s.port }

/-- A response that the block cipher gives to the oldest outstanding request (R84). -/
def takeResponse (s : State) : State := { s with port := s.port.answer }

/-- What an event of the agenda does, apart from the core's own turn. -/
def happen : Event → State → Result
  | .core, s => .next s
  | .read a, s => .next (if s.inputs.rst then refuseAccess s else hostRead a s)
  | .write a v, s => .next (if s.inputs.rst then refuseAccess s else hostWrite a v s)
  | .setRst level, s => .next (setRst level s)
  | .setBlockSize n, s => .next { s with inputs := { s.inputs with bcBlockSize := n } }
  | .setHasXctr b, s => .next { s with inputs := { s.inputs with bcHasXctr := b } }
  | .rekey k, s =>
    if s.status.busy then .fault .keyChangeWhileBusy
    else .next { s with inputs := { s.inputs with bcKey := k } }
  | .setAnswers b, s => .next { s with inputs := { s.inputs with bcAnswers := b } }
  | .request, s => .next (transferRequest s)
  | .response, s => .next (takeResponse s)
  | .strayResponse _, s =>
    if s.port.outstanding = 0 then .next s else .fault .strayResponseWhileOutstanding

end Sys2Proof.Machine
end

