-- ==== Sys2Proof/Machine/Step.lean ====
section
/-! DEFINITION. One step of the machine: the next entry of the agenda happens, or the core has its turn. -/

namespace Sys2Proof.Machine

/-- The core runs the command word it has latched: an illegal word ends with ILLEGAL, a legal one by its rule (R243,
R262). -/
def runCommand (s : State) : Host.Outcome State Fault Refusal :=
  match decode (fetchWord s) with
  | .ok i => exec i s
  | .error _ => .next (raiseError .illegal s)

/-- The core's turn: it completes the command in progress. An idle core, or one under reset, does nothing (R281,
R290). -/
def coreTurn (s : State) : Host.Outcome State Fault Refusal :=
  if s.status.busy && !s.inputs.rst then runCommand s else .next s

/-- One step. The agenda says what happens next; while nothing is on it, it is the core's turn (DESIGN CHOICE, log
entry 1). -/
def step (s : State) : Host.Outcome State Fault Refusal :=
  match s.agenda with
  | [] => coreTurn s
  | .core :: rest => coreTurn { s with agenda := rest }
  | e :: rest => happen e { s with agenda := rest }

/-- The state in which the next step runs the command whose `nbits` bits are `w`: the command word is accepted as R242
says (the ARG registers latched, BUSY set, DONE cleared), it is the core's turn, `rst` is released and the block cipher
answers (DEDUCED, log entry 2). -/
def State.withFetchWord (s : State) (nbits w : Nat) : State :=
  { accept (commandWord nbits w) s with
    agenda := .core :: s.agenda
    inputs := { s.inputs with rst := false, bcAnswers := true } }

end Sys2Proof.Machine
end

