-- ==== Sys2Proof/Safety.lean ====
section
/-! DEFINITION. What counts as a safe run, the invariant of the machine, and the words that claims are stated in: how a
command ends, and what it leaves unchanged. -/

namespace Sys2Proof.Machine

/-- A run: `t` follows from `s` by steps that each give a next state. -/
inductive Reaches (s : State) : State → Prop where
  | here : Reaches s s
  | step (t u : State) : Reaches s t → Sys2Proof.Machine.step t = .next u → Reaches s u

/-- A safe run never stops with a fault: no command reads an unwritten byte (R303), the key is stable while a command
is in progress (R300), and no stray response arrives while a request is outstanding (R292). -/
def RunsSafely (s : State) : Prop := ∀ t f, Reaches s t → step t ≠ .fault f

/-- The cache, while it is valid, holds the states after the header block for its tweak length under the current H
(R36, R186). -/
def CacheCurrent (s : State) : Prop :=
  s.cache.valid = true →
    s.cache.snap0 = dot (hdr s.cache.tlen.toNat false) s.h ∧ s.cache.snap1 = dot (hdr s.cache.tlen.toNat true) s.h

/-- Every register at its reset value, BUF unwritten and no block-cipher request outstanding (R48, R291, R292). The scratch registers are not named: their value
is unspecified. -/
structure AtReset (s : State) : Prop where
  fr : ∀ r, s.fr.read r = 0
  h : s.h = 0
  y : s.y = 0
  l : s.l = 0
  ready : s.ready = false
  cache : s.cache = ⟨false, 0, 0, 0⟩
  arg : s.arg = ⟨0, 0, 0, 0, 0, 0⟩
  irqEn : s.irqEn = false
  status : s.status = ⟨false, false, false, false, .noError, .noError⟩
  buf : ∀ a, s.buf.read a = none
  port : s.port = Port.idle

/-- The invariant of the machine. -/
structure MachineInv (s : State) : Prop where
  /-- BUF has its canonical form. -/
  bufWf : s.buf.wf
  /-- Every written byte lies in BUF (R70). -/
  bufInside : ∀ c ∈ s.buf, c.1 < bufBytes s
  /-- The cache is current (R186). -/
  cacheCurrent : CacheCurrent s
  /-- READY = 1 only while H and L hold what a successful `hctr2.init` gave them: `Ek(0)` and `Ek(1)` under some key
  (R34, R180). That key need not be the current one (R296). -/
  readyKeyed : s.ready = true → ∃ k, s.h = Config.blockCipher k 0 ∧ s.l = Config.blockCipher k 1
  /-- FIRST_ERR is 0 exactly while ERR is 0 (R39, R245). -/
  firstErr : s.status.firstErr = .noError ↔ s.status.err = false
  /-- DONE is 0 while a command is in progress (R242). -/
  busyNotDone : s.status.busy = true → s.status.done = false
  /-- A request has been transferred only for a command in progress whose checks pass, and no more than the command
  issues (R84, R86). So an idle core, and a command that ends in error, has none outstanding. -/
  portBusy : s.port ≠ Port.idle → s.status.busy = true ∧ ∃ i, decode s.curCmd = .ok i ∧
    s.port.answered + s.port.outstanding ≤ requestCount s i
  /-- At most four requests are outstanding (R85). -/
  portWindow : s.port.outstanding ≤ 4
  /-- While `rst` is asserted the registers hold their reset values, so the core is idle (DEDUCED, log entry 11: R290
  states the values for the release). -/
  underReset : s.inputs.rst = true → AtReset s

/-- The command ended without error: ERRCODE is 0, DONE is 1, BUSY is 0, and the sticky fields are kept (R244). -/
def Completed (s t : State) : Prop :=
  t.status = ⟨false, true, s.status.err, s.status.overrun, .noError, s.status.firstErr⟩

/-- The command ended with the error `c`: ERRCODE is `c`, FIRST_ERR takes it when ERR was 0, ERR and DONE are 1 and
BUSY is 0 (R245, R260). -/
def Failed (c : ErrCode) (s t : State) : Prop :=
  t.status = ⟨false, true, true, s.status.overrun, c, if s.status.err then s.status.firstErr else c⟩

/-- No byte of BUF changed, written or unwritten. -/
def SameBuf (s t : State) : Prop := ∀ a, t.buf.read a = s.buf.read a

/-- No field register changed. -/
def SameFr (s t : State) : Prop := ∀ r, t.fr.read r = s.fr.read r

/-- What no command writes: ARG, CTRL, the command latch, the parameter, the inputs, and what is the surroundings' own. -/
structure SameOutside (s t : State) : Prop where
  arg : t.arg = s.arg
  irqEn : t.irqEn = s.irqEn
  curCmd : t.curCmd = s.curCmd
  curArg : t.curArg = s.curArg
  bufSel : t.bufSel = s.bufSel
  inputs : t.inputs = s.inputs
  agenda : t.agenda = s.agenda
  busOut : t.busOut = s.busOut

/-- What only the cipher commands write: L, the scratch registers, the block-cipher port with its exchanges, and the
draws. -/
structure SamePort (s t : State) : Prop where
  l : t.l = s.l
  port : t.port = s.port
  scratch : t.scratch = s.scratch
  bcLog : t.bcLog = s.bcLog
  draws : t.draws = s.draws

/-- H, READY and the cache are unchanged. -/
structure SameKey (s t : State) : Prop where
  h : t.h = s.h
  ready : t.ready = s.ready
  cache : t.cache = s.cache

/-- The bytes of BUF from offset `a` on are `bs`, all of them written (R72). -/
def BytesAt (m : Memory) (a : Nat) (bs : List Byte) : Prop :=
  ∀ j (h : j < bs.length), m.read (a + j) = some bs[j]

/-- Every byte of BUF outside `[a, a+n)` is as before. -/
def SameBufOutside (a n : Nat) (s t : State) : Prop :=
  ∀ x, ¬(a ≤ x ∧ x < a + n) → t.buf.read x = s.buf.read x

end Sys2Proof.Machine
end

