-- ==== Sys2Proof/Certificates/Slice0/Obligations.lean ====
section
/-! DEFINITION. The statements for the provers, and the words that only they use. -/

open Sys2Proof Sys2Proof.Machine

/-! ### Words of the statements -/

/-- A bit vector as a polynomial over GF(2): the sum of `x^i` over its set bits (R130). -/
noncomputable def Sys2Proof.Claims.poly {n : Nat} (v : BitVec n) : Polynomial (ZMod 2) :=
  ∑ i ∈ Finset.range n, if v.getLsbD i then Polynomial.X ^ i else 0

/-- The field polynomial `P = x^128 + x^127 + x^126 + x^121 + 1` (R130). -/
noncomputable def Sys2Proof.Claims.fieldPoly : Polynomial (ZMod 2) :=
  Polynomial.X ^ 128 + Polynomial.X ^ 127 + Polynomial.X ^ 126 + Polynomial.X ^ 121 + 1

/-- A command word is illegal on one of the three grounds of R107, with the classes of R104 written out. -/
def Sys2Proof.Claims.IllegalWord (w : Word) : Prop :=
  let f := Fields.ofWord w
  f.opc ∉ [0x00, 0x01, 0x02, 0x03, 0x10, 0x11, 0x12, 0x13, 0x14, 0x15, 0x20, 0x30, 0x31, 0x32] ∨
    f.rsv ≠ 0 ∨
    (f.rd ≠ 0 ∧ f.opc ∉ [0x01, 0x02, 0x03, 0x14]) ∨
    (f.rs1 ≠ 0 ∧ f.opc ∉ [0x01, 0x02, 0x03, 0x10, 0x12, 0x15, 0x20]) ∨
    (f.rs2 ≠ 0 ∧ f.opc ∉ [0x01, 0x02])

/-- The core has its turn in `s`: the entry `core` is first on the agenda, or the agenda is empty (log entry 1). -/
def Sys2Proof.Claims.HasTurn (s : State) : Prop := s.agenda = [] ∨ ∃ rest, s.agenda = .core :: rest

/-- `s` with the core's turn used up and nothing else changed. -/
def Sys2Proof.Claims.turnTaken (s : State) : State := { s with agenda := s.agenda.tail }

/-- The core has its turn in `s` with the command `i` in progress. -/
def Sys2Proof.Claims.Runs (s : State) (i : Instr) : Prop :=
  s.status.busy = true ∧ s.inputs.rst = false ∧ decode s.curCmd = .ok i ∧ Sys2Proof.Claims.HasTurn s

/-- `t` agrees with `s` on FR[d] and on H, and may differ from it in all else. -/
def Sys2Proof.Claims.AgreeOn (d : FReg) (s t : State) : Prop := t.fr.read d = s.fr.read d ∧ t.h = s.h

/-- The commands, one after the other, lead from `s` to `u`. Each runs from any state that agrees on FR[d] and H with
the one before it, so each has its own acceptance, arguments, buffer and status, and gives a next state. -/
def Sys2Proof.Claims.RunsBetween (d : FReg) : List Instr → State → State → Prop
  | [], s, u => Sys2Proof.Claims.AgreeOn d s u
  | i :: is, s, u =>
    ∃ s' t, Sys2Proof.Claims.AgreeOn d s s' ∧ exec i s' = .next t ∧ Sys2Proof.Claims.RunsBetween d is t u

/-- The field register that a command writes (R30). -/
def Sys2Proof.Claims.writtenReg : Instr → Option FReg
  | .feXor rd _ _ => some rd
  | .feMul rd _ _ => some rd
  | .feDbl rd _ => some rd
  | .pvSum rd => some rd
  | _ => none

/-- The regions `[a, a+n)` and `[b, b+n)` are equal, disjoint or empty. -/
def Sys2Proof.Claims.Apart (a b n : Nat) : Prop := n = 0 ∨ a = b ∨ a + n ≤ b ∨ b + n ≤ a

/-- `N xor XCTR(S)[0 : |N|]`, byte by byte as R221 writes it. -/
def Sys2Proof.Claims.xorKeystream (e : Elem → Elem) (nonce : Elem) (bs : List Byte) : List Byte :=
  bs.mapIdx fun j b => b ^^^ (e (nonce ^^^ BitVec.ofNat 128 (j / 16 + 1))).extractLsb' (8 * (j % 16)) 8

/-- The exchanges of a keystream of `m` blocks, block 1 first (R86, R220). -/
def Sys2Proof.Claims.keystreamRequests (e : Elem → Elem) (nonce : Elem) (m : Nat) : List BcExchange :=
  (List.range m).map fun j =>
    ⟨.encrypt, nonce ^^^ BitVec.ofNat 128 (j + 1), e (nonce ^^^ BitVec.ofNat 128 (j + 1))⟩

/-- The directions of the block-cipher requests that a command issues, in order (R86). -/
def Sys2Proof.Claims.requestDirs (i : Instr) (s : State) : List BcDir :=
  match i with
  | .hctr2Init => [.encrypt, .encrypt]
  | .xctr _ => List.replicate ((s.curArg.len.toNat + 15) / 16) .encrypt
  | .hctr2Enc => .encrypt :: List.replicate ((s.curArg.len.toNat - 16 + 15) / 16) .encrypt
  | .hctr2Dec => .decrypt :: List.replicate ((s.curArg.len.toNat - 16 + 15) / 16) .encrypt
  | _ => []

/-- Every request of the command `i` gets its answer: the block cipher answers by itself, or has answered them all
already (R84, R305). -/
def Sys2Proof.Claims.Answered (i : Instr) (s : State) : Prop :=
  s.inputs.bcAnswers = true ∨ (Sys2Proof.Claims.requestDirs i s).length ≤ s.port.answered

/-- The result of a cipher command against the nine steps with the tweak hash computed from scratch (R182, R190). -/
def Sys2Proof.Claims.CipherResult (i : Instr) (dir : BcDir) : Prop :=
  ∀ (s : State) (p t : List Byte),
    s.ready = true → CacheCurrent s → Sys2Proof.Claims.Answered i s →
    s.curArg.src.toNat + s.curArg.len.toNat ≤ bufBytes s →
    s.curArg.dst.toNat + s.curArg.dlen.toNat ≤ bufBytes s →
    s.curArg.twk.toNat + s.curArg.tlen.toNat ≤ bufBytes s →
    16 ≤ s.curArg.len.toNat → s.curArg.len.toNat ≤ s.curArg.dlen.toNat →
    Sys2Proof.Claims.Apart s.curArg.src.toNat s.curArg.dst.toNat s.curArg.len.toNat →
    p.length = s.curArg.len.toNat → BytesAt s.buf s.curArg.src.toNat p →
    t.length = s.curArg.tlen.toNat → BytesAt s.buf s.curArg.twk.toNat t →
    ∃ u, exec i s = .next u ∧ Completed s u ∧
      (let key := Config.blockCipher s.inputs.bcKey
       let n := p.drop 16
       let mm := fe (p.take 16) ^^^ tweakHash s.h t n
       let uu := match dir with
         | .encrypt => key mm
         | .decrypt => key.symm mm
       let nonce := mm ^^^ uu ^^^ s.l
       let v := Sys2Proof.Claims.xorKeystream key nonce n
       BytesAt u.buf s.curArg.dst.toNat (bytesOf (uu ^^^ tweakHash s.h t v) ++ v) ∧
         u.y = tweakHash s.h t v ∧
         u.bcLog = s.bcLog ++
           (⟨dir, mm, uu⟩ :: Sys2Proof.Claims.keystreamRequests key nonce ((s.curArg.len.toNat - 16 + 15) / 16))) ∧
      SameBufOutside s.curArg.dst.toNat s.curArg.len.toNat s u ∧
      u.cache.valid = true ∧ u.cache.tlen = s.curArg.tlen ∧ CacheCurrent u ∧
      u.h = s.h ∧ u.l = s.l ∧ u.ready = true ∧ u.port = Port.idle ∧ SameFr s u ∧ SameOutside s u

/-- The checks of R269 with the code that each reports, in the rule's order. `hctr2.init` samples `bc_block_size` before
its first request (R180; log entry 16). -/
def Sys2Proof.Claims.orderedChecks (i : Instr) (s : State) : List (Bool × ErrCode) :=
  let xc := match i with | .xctr _ => true | _ => false
  let enc := decide (i = .hctr2Enc) || decide (i = .hctr2Dec)
  let upd := decide (i = .pvUpdb)
  let out (o k : Word) : Bool := decide (bufBytes s < o.toNat + k.toNat)
  let a := s.curArg
  [ (decide (i = .hctr2Init) && decide (s.port = Port.idle ∧ s.inputs.bcBlockSize ≠ 16), .blockSize),
    ((xc || enc) && !s.ready, .notReady),
    ((upd && out a.src a.len) || ((xc || enc) && (out a.src a.len || out a.dst a.dlen)) ||
      (enc && out a.twk a.tlen), .range),
    (enc && decide (a.len.toNat < 16), .srcShort),
    ((xc || enc) && decide (a.dlen.toNat < a.len.toNat), .dstShort),
    ((xc || enc) && decide (0 < a.len.toNat ∧ a.src.toNat ≠ a.dst.toNat ∧
      a.src.toNat < a.dst.toNat + a.len.toNat ∧ a.dst.toNat < a.src.toNat + a.len.toNat), .overlap) ]

/-- The code of the first failing check of R269, none where every check passes. -/
def Sys2Proof.Claims.firstFailure (i : Instr) (s : State) : Option ErrCode :=
  ((Sys2Proof.Claims.orderedChecks i s).find? (·.1)).map (·.2)

/-- How many requests may be outstanding at once (R10, R85): XCTR_LANES in a keystream and one elsewhere. The keystream of a
cipher command comes after step 5 is answered (R190). -/
def Sys2Proof.Claims.inFlightLimit (i : Instr) (s : State) : Nat :=
  let lanes := if s.inputs.bcHasXctr then 4 else 1
  match i with
  | .xctr _ => lanes
  | .hctr2Enc => if 0 < s.port.answered then lanes else 1
  | .hctr2Dec => if 0 < s.port.answered then lanes else 1
  | _ => 1

/-- The core has a request to make: BUSY with a legal command that no check fails and that has more requests to issue
(R86), and fewer outstanding than it may have (R85). -/
def Sys2Proof.Claims.CanRequest (s : State) : Prop :=
  s.status.busy = true ∧ s.inputs.rst = false ∧ ∃ i, decode s.curCmd = .ok i ∧
    Sys2Proof.Claims.firstFailure i s = none ∧
    s.port.answered + s.port.outstanding < (Sys2Proof.Claims.requestDirs i s).length ∧
    s.port.outstanding < Sys2Proof.Claims.inFlightLimit i s

/-- The next state of an outcome, changed by `f`; a stop stays as it is. -/
def Sys2Proof.Claims.mapNext (f : State → State) : Result → Result
  | .next t => .next (f t)
  | .fault r => .fault r
  | .refused r => .refused r

/-- An address that R79 lists, for a buffer of `size` bytes. -/
def Sys2Proof.Claims.Listed (size : Nat) (a : BitVec 16) : Prop :=
  a.toNat % 4 = 0 ∧
    (a.toNat ≤ 0x028 ∨ (0x040 ≤ a.toNat ∧ a.toNat < 0x080) ∨ (0x8000 ≤ a.toNat ∧ a.toNat < 0x8000 + size))

/-! ### Encoding -/

/-- Every command is read back from its word (R104, R105): no operand bit of an encoding is dropped. -/
def Obligations.DecodeEncodeRoundTrip : Prop :=
  ∀ i : Instr, i.wf = true ∧ decode (encode i) = .ok i

/-- A word that decodes is the word of the command it decodes to: each command has one word (R100, R105). -/
def Obligations.DecodedWordIsItsEncoding : Prop :=
  ∀ (w : Word) (i : Instr), decode w = .ok i → encode i = w

/-- The decoder rejects exactly the words that R107 calls illegal. -/
def Obligations.IllegalWordsAreRejected : Prop :=
  ∀ w : Word, (∃ e, decode w = .error e) ↔ Sys2Proof.Claims.IllegalWord w

/-- R262: an illegal word completes with ILLEGAL (0x1) at the core's turn, whatever the state, and changes STATUS
alone. -/
def Obligations.IllegalCommandEndsWithIllegal : Prop :=
  ∀ s : State, s.status.busy = true → s.inputs.rst = false → Sys2Proof.Claims.HasTurn s →
    Sys2Proof.Claims.IllegalWord s.curCmd →
    ∃ t, step s = .next t ∧ Failed .illegal s t ∧ ErrCode.illegal.code = 0x1 ∧
      { t with status := s.status } = Sys2Proof.Claims.turnTaken s

/-- Words written out in the spec's examples decode to the commands they stand for. -/
def Obligations.SpecWordsDecode : Prop :=
  decode 0x00000000 = .ok .nop ∧ decode 0x00002401 = .ok (.feXor .f0 .f1 .f2) ∧
    decode 0x00002702 = .ok (.feMul .f3 .f1 .f2) ∧ decode 0x00000603 = .ok (.feDbl .f2 .f1) ∧
    decode 0x00000412 = .ok (.pvUpd .f1) ∧ decode 0x00000314 = .ok (.pvSum .f3) ∧
    decode 0x00000815 = .ok (.pvRest .f2) ∧ decode 0x00000420 = .ok (.xctr .f1) ∧
    decode 0x00000031 = .ok .hctr2Enc

/-- A step runs the decoded command: with BUSY = 1 and `rst` released, the core's turn on a word that decodes to `i` is
`exec i`. The turn comes with the entry `core` of the agenda, which it uses up, or while the agenda is empty (log entry
1). The turn of an idle core, or of one under reset, changes nothing: it holds all state and issues no request (R281,
R290). -/
def Obligations.StepRunsDecodedCommand : Prop :=
  (∀ (s : State) (i : Instr) (rest : List Event),
    s.status.busy = true → s.inputs.rst = false → decode s.curCmd = .ok i →
    step { s with agenda := [] } = exec i { s with agenda := [] } ∧
      step { s with agenda := .core :: rest } = exec i { s with agenda := rest }) ∧
    ∀ (s : State) (rest : List Event), s.status.busy = false ∨ s.inputs.rst = true →
      step { s with agenda := [] } = .next { s with agenda := [] } ∧
        step { s with agenda := .core :: rest } = .next { s with agenda := rest }

/-! ### Field arithmetic -/

/-- R131: `dot(a, b)` is `a · b · x^(-128) mod P`, as polynomials over GF(2), and the constant of the rule is
`x^(-128) mod P`. -/
def Obligations.DotIsPolyvalProduct : Prop :=
  (∀ a b : Elem, Sys2Proof.Claims.fieldPoly ∣
      Sys2Proof.Claims.poly a * Sys2Proof.Claims.poly b - Sys2Proof.Claims.poly (dot a b) * Polynomial.X ^ 128) ∧
    Sys2Proof.Claims.fieldPoly ∣
      Sys2Proof.Claims.poly (0x92040000000000000000000000000001 : Elem) * Polynomial.X ^ 128 - 1

/-- `double(a)` is the ordinary product `a · x mod P`, and not `dot(a, x)` (R134). -/
def Obligations.DoubleIsTimesX : Prop :=
  (∀ a : Elem, Sys2Proof.Claims.fieldPoly ∣
      Sys2Proof.Claims.poly a * Polynomial.X - Sys2Proof.Claims.poly (double a)) ∧
    (∀ a : Elem, double a =
      if a.getLsbD 127 then (a <<< 1) ^^^ 0xC2000000000000000000000000000001 else a <<< 1) ∧
    ∃ a : Elem, double a ≠ dot a 2

/-- The multiplier refines the product: the Karatsuba step gives `a · b` as polynomials (R132), and its reduction
(R133) gives `dot(a, b)` for all operands. -/
def Obligations.MultiplierRefinesDot : Prop :=
  ∀ a b : Elem,
    Sys2Proof.Claims.poly (karatsuba a b) = Sys2Proof.Claims.poly a * Sys2Proof.Claims.poly b ∧
      dotByReduction a b = dot a b

/-- The laws of `dot` (R136), apart from the absence of zero divisors: commutative, associative, distributive over
XOR, 0 absorbs, X128 is the identity, and `dot(a, 1)` is the plain product with `x^(-128) mod P`. -/
def Obligations.DotAlgebraLaws : Prop :=
  ∀ a b c : Elem,
    dot a b = dot b a ∧ dot (dot a b) c = dot a (dot b c) ∧ dot a (b ^^^ c) = dot a b ^^^ dot a c ∧
      dot a 0 = 0 ∧ dot a 0xC2000000000000000000000000000001 = a ∧
      dot a 1 = mulMod a 0x92040000000000000000000000000001

/-! ### NOP and the field commands -/

/-- `nop` completes and changes STATUS alone; with IRQ_EN = 1 it raises `irq` (R240). -/
def Obligations.NopCompletes : Prop :=
  ∀ s : State, ∃ t, exec .nop s = .next t ∧ Completed s t ∧ { t with status := s.status } = s ∧ irq t = s.irqEn

/-- `fe.xor`: the sum in FR[rd], every other field register and all else unchanged (R138). -/
def Obligations.FeXorResult : Prop :=
  ∀ (rd rs1 rs2 : FReg) (s : State), ∃ t, exec (.feXor rd rs1 rs2) s = .next t ∧ Completed s t ∧
    t.fr.read rd = s.fr.read rs1 ^^^ s.fr.read rs2 ∧ (rs1 = rs2 → t.fr.read rd = 0) ∧
    (∀ r, r ≠ rd → t.fr.read r = s.fr.read r) ∧
    t.y = s.y ∧ SameKey s t ∧ SamePort s t ∧ SameBuf s t ∧ SameOutside s t

/-- `fe.mul`: the POLYVAL product in FR[rd], every other field register and all else unchanged (R139). -/
def Obligations.FeMulResult : Prop :=
  ∀ (rd rs1 rs2 : FReg) (s : State), ∃ t, exec (.feMul rd rs1 rs2) s = .next t ∧ Completed s t ∧
    t.fr.read rd = dot (s.fr.read rs1) (s.fr.read rs2) ∧
    (∀ r, r ≠ rd → t.fr.read r = s.fr.read r) ∧
    t.y = s.y ∧ SameKey s t ∧ SamePort s t ∧ SameBuf s t ∧ SameOutside s t

/-- `fe.dbl`: the doubled element in FR[rd], every other field register and all else unchanged (R140). -/
def Obligations.FeDoubleResult : Prop :=
  ∀ (rd rs1 : FReg) (s : State), ∃ t, exec (.feDbl rd rs1) s = .next t ∧ Completed s t ∧
    t.fr.read rd = (s.fr.read rs1 <<< 1) ^^^
      (if (s.fr.read rs1).getLsbD 127 then 0xC2000000000000000000000000000001 else 0) ∧
    (∀ r, r ≠ rd → t.fr.read r = s.fr.read r) ∧
    t.y = s.y ∧ SameKey s t ∧ SamePort s t ∧ SameBuf s t ∧ SameOutside s t

/-! ### POLYVAL -/

/-- `pv.init`: H takes the key verbatim; Y, READY and CACHE_VALID are cleared; all else is unchanged (R153). -/
def Obligations.PvInitResult : Prop :=
  ∀ (rs1 : FReg) (s : State), ∃ t, exec (.pvInit rs1) s = .next t ∧ Completed s t ∧
    t.h = s.fr.read rs1 ∧ t.y = 0 ∧ t.ready = false ∧ t.cache = { s.cache with valid := false } ∧
    SameFr s t ∧ SamePort s t ∧ SameBuf s t ∧ SameOutside s t

/-- `pv.reset`: Y is cleared; H, READY, the cache and all else are unchanged (R154). -/
def Obligations.PvResetResult : Prop :=
  ∀ s : State, ∃ t, exec .pvReset s = .next t ∧ Completed s t ∧ t.y = 0 ∧
    SameFr s t ∧ SameKey s t ∧ SamePort s t ∧ SameBuf s t ∧ SameOutside s t

/-- `pv.upd`: Y takes `dot(Y ⊕ FR[rs1], H)`; all else is unchanged (R151, R155). -/
def Obligations.PvUpdateResult : Prop :=
  ∀ (rs1 : FReg) (s : State), ∃ t, exec (.pvUpd rs1) s = .next t ∧ Completed s t ∧
    t.y = dot (s.y ^^^ s.fr.read rs1) s.h ∧ (s.fr.read rs1 = s.y → t.y = 0) ∧
    SameFr s t ∧ SameKey s t ∧ SamePort s t ∧ SameBuf s t ∧ SameOutside s t

/-- `pv.updb` over a written source in range: Y takes one absorb for each 16-byte block of the zero-padded source, none
for an empty one; all else is unchanged (R152, R156). -/
def Obligations.PvUpdateBufResult : Prop :=
  ∀ (s : State) (bs : List Byte),
    s.curArg.src.toNat + s.curArg.len.toNat ≤ bufBytes s →
    bs.length = s.curArg.len.toNat → BytesAt s.buf s.curArg.src.toNat bs →
    ∃ t, exec .pvUpdb s = .next t ∧ Completed s t ∧
      t.y = ((List.range ((bs.length + 15) / 16)).map fun k => fe ((bs.drop (16 * k)).take 16)).foldl
        (fun y x => dot (y ^^^ x) s.h) s.y ∧
      SameFr s t ∧ SameKey s t ∧ SamePort s t ∧ SameBuf s t ∧ SameOutside s t

/-- `pv.sum`: FR[rd] takes Y; Y, every other field register and all else are unchanged (R157). -/
def Obligations.PvSumResult : Prop :=
  ∀ (rd : FReg) (s : State), ∃ t, exec (.pvSum rd) s = .next t ∧ Completed s t ∧
    t.fr.read rd = s.y ∧ (∀ r, r ≠ rd → t.fr.read r = s.fr.read r) ∧
    t.y = s.y ∧ SameKey s t ∧ SamePort s t ∧ SameBuf s t ∧ SameOutside s t

/-- `pv.rest`: Y takes FR[rs1]; all else is unchanged (R158). -/
def Obligations.PvRestoreResult : Prop :=
  ∀ (rs1 : FReg) (s : State), ∃ t, exec (.pvRest rs1) s = .next t ∧ Completed s t ∧ t.y = s.fr.read rs1 ∧
    SameFr s t ∧ SameKey s t ∧ SamePort s t ∧ SameBuf s t ∧ SameOutside s t

/-- R159: a `pv.rest fd` after a `pv.sum fd` restores Y, whatever the commands in between did to it, if none of them
writes FR[d]; and if none of them is `pv.init` or `hctr2.init`, the absorbs that follow give what they would have given
at the snapshot. Each command is accepted with its own arguments, and between two commands the state may change in all
but FR[d] and H: any host access but a write to FR[d], and any event but a reset. -/
def Obligations.SnapshotThenRestore : Prop :=
  ∀ (d : FReg) (is : List Instr) (s t u v : State),
    (∀ i ∈ is, Sys2Proof.Claims.writtenReg i ≠ some d) →
    exec (.pvSum d) s = .next t → Sys2Proof.Claims.RunsBetween d is t u → exec (.pvRest d) u = .next v →
    v.y = s.y ∧
      ((∀ i ∈ is, (∀ r, i ≠ .pvInit r) ∧ i ≠ .hctr2Init) →
        ∀ bs, absorbBytes v.h v.y bs = absorbBytes s.h s.y bs)

/-- Incremental hashing equals hashing the whole (R150, R160): a byte string after whole blocks may be absorbed apart;
one block is one absorb; and from Y = 0 the result is POLYVAL of the zero-padded string. -/
def Obligations.IncrementalEqualsWhole : Prop :=
  ∀ (h y : Elem) (xs ys : List Byte),
    (xs.length % 16 = 0 → absorbBytes h y (xs ++ ys) = absorbBytes h (absorbBytes h y xs) ys) ∧
      (xs.length = 16 → absorbBytes h y xs = dot (y ^^^ fe xs) h) ∧
      absorbBytes h 0 ys = polyval h (blocks (pad16 ys)) ∧
      polyval h [] = 0 ∧
      ∀ (zs : List Elem) (z : Elem), polyval h (zs ++ [z]) = dot (polyval h zs ^^^ z) h

/-! ### HCTR2_INIT and XCTR -/

/-- `hctr2.init` with a block size of 16: H and L from two encrypt requests, Y and CACHE_VALID cleared, READY set, all
else unchanged (R180). The block size is sampled before the first request (log entry 16). -/
def Obligations.Hctr2InitResult : Prop :=
  ∀ s : State, s.inputs.bcBlockSize = 16 ∨ s.port ≠ Port.idle → Sys2Proof.Claims.Answered .hctr2Init s →
    ∃ t, exec .hctr2Init s = .next t ∧ Completed s t ∧
      t.h = Config.blockCipher s.inputs.bcKey 0 ∧ t.l = Config.blockCipher s.inputs.bcKey 1 ∧ t.y = 0 ∧
      t.ready = true ∧ t.cache = { s.cache with valid := false } ∧
      t.bcLog = s.bcLog ++ [⟨.encrypt, 0, t.h⟩, ⟨.encrypt, 1, t.l⟩] ∧
      t.scratch = s.scratch ∧ t.draws = s.draws ∧ t.port = Port.idle ∧ SameFr s t ∧ SameBuf s t ∧ SameOutside s t

/-- R264: BLOCK_SIZE (0x3) is raised by `hctr2.init` when `bc_block_size` is not 16; READY is cleared and STATUS changes
and nothing else does. Its code is no other error's. The input is sampled before the first request (R180; log entry 16),
so none has been transferred. -/
def Obligations.WrongBlockSizeEndsWithBlockSize : Prop :=
  (∀ s : State, s.port = Port.idle → s.inputs.bcBlockSize ≠ 16 →
    ∃ t, exec .hctr2Init s = .next t ∧ Failed .blockSize s t ∧ t.ready = false ∧
      { t with status := s.status, ready := s.ready } = s) ∧
    ErrCode.blockSize.code = 0x3 ∧ ∀ c : ErrCode, c ≠ .blockSize → c.code ≠ 0x3

/-- `xctr` within its checks: the destination takes the source XOR the keystream, byte by byte; every byte outside it
and all else are unchanged; the exchanges are the keystream blocks (R221, R224). The scratch registers are left
unspecified (R35). -/
def Obligations.XctrResult : Prop :=
  ∀ (rs1 : FReg) (s : State) (bs : List Byte),
    s.ready = true → Sys2Proof.Claims.Answered (.xctr rs1) s →
    s.curArg.src.toNat + s.curArg.len.toNat ≤ bufBytes s →
    s.curArg.dst.toNat + s.curArg.dlen.toNat ≤ bufBytes s →
    s.curArg.len.toNat ≤ s.curArg.dlen.toNat →
    Sys2Proof.Claims.Apart s.curArg.src.toNat s.curArg.dst.toNat s.curArg.len.toNat →
    bs.length = s.curArg.len.toNat → BytesAt s.buf s.curArg.src.toNat bs →
    ∃ t, exec (.xctr rs1) s = .next t ∧ Completed s t ∧
      BytesAt t.buf s.curArg.dst.toNat
        (Sys2Proof.Claims.xorKeystream (Config.blockCipher s.inputs.bcKey) (s.fr.read rs1) bs) ∧
      SameBufOutside s.curArg.dst.toNat s.curArg.len.toNat s t ∧
      t.bcLog = s.bcLog ++ Sys2Proof.Claims.keystreamRequests (Config.blockCipher s.inputs.bcKey) (s.fr.read rs1)
        ((s.curArg.len.toNat + 15) / 16) ∧
      t.port = Port.idle ∧ SameFr s t ∧ t.y = s.y ∧ t.l = s.l ∧ SameKey s t ∧ SameOutside s t

/-- R225: XCTR is an involution. A second run with the same nonce, key and length over the output of a first one writes
the original bytes, wherever the two runs read and write. -/
def Obligations.XctrIsInvolution : Prop :=
  ∀ (q r : FReg) (s t u v : State) (bs : List Byte),
    bs.length = s.curArg.len.toNat → BytesAt s.buf s.curArg.src.toNat bs →
    Sys2Proof.Claims.Answered (.xctr q) s → exec (.xctr q) s = .next t → Completed s t →
    u.fr.read r = s.fr.read q → u.inputs.bcKey = s.inputs.bcKey → u.curArg.len = s.curArg.len →
    (∀ j, j < bs.length → u.buf.read (u.curArg.src.toNat + j) = t.buf.read (s.curArg.dst.toNat + j)) →
    Sys2Proof.Claims.Answered (.xctr r) u → exec (.xctr r) u = .next v → Completed u v →
    BytesAt v.buf u.curArg.dst.toNat bs

/-- The accelerated path gives the keystream of the generic one, for every length and for a stride of 1 or 4 (R223). -/
def Obligations.AcceleratedKeystreamIdentical : Prop :=
  ∀ (e : Elem → Elem) (nonce : Elem) (m : Nat),
    keystreamByLanes e 1 nonce m = keystream e nonce m ∧ keystreamByLanes e 4 nonce m = keystream e nonce m

/-- No result depends on `bc_has_xctr`, so on XCTR_LANES (R10, R307). -/
def Obligations.ResultsIgnoreLanes : Prop :=
  ∀ (i : Instr) (s : State) (b : Bool),
    exec i { s with inputs := { s.inputs with bcHasXctr := b } } =
      Sys2Proof.Claims.mapNext (fun t => { t with inputs := { t.inputs with bcHasXctr := b } }) (exec i s)

/-! ### HCTR2 -/

/-- `hctr2.enc` within its checks gives what the nine steps give with the tweak hash computed from scratch, and changes
nothing outside the destination but Y and the cache (R182, R190, R193). The scratch registers are unspecified. -/
def Obligations.Hctr2EncryptResult : Prop := Sys2Proof.Claims.CipherResult .hctr2Enc .encrypt

/-- `hctr2.dec` within its checks gives what the nine steps give with `Dk` in step 5, and changes nothing outside the
destination but Y and the cache (R182, R190, R193). The scratch registers are unspecified. -/
def Obligations.Hctr2DecryptResult : Prop := Sys2Proof.Claims.CipherResult .hctr2Dec .decrypt

/-- R195: decryption of the output of an encryption under the same key and tweak gives the plaintext back, for every
key, tweak and input of at least 16 bytes, wherever the two commands read and write. -/
def Obligations.DecryptUndoesEncrypt : Prop :=
  ∀ (s t u v : State) (p tw : List Byte),
    p.length = s.curArg.len.toNat → BytesAt s.buf s.curArg.src.toNat p →
    tw.length = s.curArg.tlen.toNat → BytesAt s.buf s.curArg.twk.toNat tw →
    CacheCurrent s → Sys2Proof.Claims.Answered .hctr2Enc s → exec .hctr2Enc s = .next t → Completed s t →
    u.inputs.bcKey = s.inputs.bcKey → u.h = s.h → u.l = s.l →
    u.curArg.len = s.curArg.len → u.curArg.tlen = s.curArg.tlen → BytesAt u.buf u.curArg.twk.toNat tw →
    (∀ j, j < p.length → u.buf.read (u.curArg.src.toNat + j) = t.buf.read (s.curArg.dst.toNat + j)) →
    CacheCurrent u → Sys2Proof.Claims.Answered .hctr2Dec u → exec .hctr2Dec u = .next v → Completed u v →
    BytesAt v.buf u.curArg.dst.toNat p

/-- R186: the cache is current after reset, every step keeps it current, and from states that differ only in a current
cache the cipher commands end alike, with the same bytes of BUF and the same Y. -/
def Obligations.CacheIsTransparent : Prop :=
  CacheCurrent State.reset ∧ (∀ s t : State, CacheCurrent s → step s = .next t → CacheCurrent t) ∧
    ∀ (i : Instr) (s : State) (c : Cache), i = .hctr2Enc ∨ i = .hctr2Dec →
      CacheCurrent s → CacheCurrent { s with cache := c } →
      (∀ t, exec i s = .next t →
        ∃ t', exec i { s with cache := c } = .next t' ∧ SameBuf t t' ∧ t'.y = t.y ∧ t'.status = t.status ∧
          t'.bcLog = t.bcLog) ∧
      ∀ f, exec i s = .fault f → exec i { s with cache := c } = .fault f

/-- The output of a cipher command is a function of the block cipher, the source bytes and the tweak bytes: two runs
that agree on them, on H and on L write the same bytes and leave the same Y, whatever else differs (R196). -/
def Obligations.OutputDependsOnInputsOnly : Prop :=
  ∀ (i : Instr) (s t s' t' : State) (p tw : List Byte), i = .hctr2Enc ∨ i = .hctr2Dec →
    p.length = s.curArg.len.toNat → BytesAt s.buf s.curArg.src.toNat p →
    tw.length = s.curArg.tlen.toNat → BytesAt s.buf s.curArg.twk.toNat tw →
    CacheCurrent s → Sys2Proof.Claims.Answered i s → exec i s = .next t → Completed s t →
    s'.inputs.bcKey = s.inputs.bcKey → s'.h = s.h → s'.l = s.l →
    s'.curArg.len = s.curArg.len → s'.curArg.tlen = s.curArg.tlen →
    BytesAt s'.buf s'.curArg.src.toNat p → BytesAt s'.buf s'.curArg.twk.toNat tw →
    CacheCurrent s' → Sys2Proof.Claims.Answered i s' → exec i s' = .next t' → Completed s' t' →
    (∀ j, j < p.length → t'.buf.read (s'.curArg.dst.toNat + j) = t.buf.read (s.curArg.dst.toNat + j)) ∧ t'.y = t.y

/-! ### The command lifecycle and its errors -/

/-- The block-cipher requests of a command (R84, R86): those it issues are in the order and the directions of the
rule, each is answered with `Ek` or `Dk` of its data, and a command that ends in error issues none. That a recorded
request belongs to a completed command is the model's choice, not the rule's: `bcLog` records completed commands only
(log entry 10), and the requests that a command makes before it completes are counted in `port` and not recorded (log
entries 12 and 23). -/
def Obligations.CommandsIssueTheirRequests : Prop :=
  ∀ (i : Instr) (s t : State), exec i s = .next t →
    ∃ es, t.bcLog = s.bcLog ++ es ∧
      (∀ e ∈ es, e.rsp = match e.dir with
        | .encrypt => Config.blockCipher s.inputs.bcKey e.req
        | .decrypt => (Config.blockCipher s.inputs.bcKey).symm e.req) ∧
      (es ≠ [] → Completed s t ∧ es.map (·.dir) = Sys2Proof.Claims.requestDirs i s) ∧
      (Sys2Proof.Claims.Answered i s → Completed s t → es.map (·.dir) = Sys2Proof.Claims.requestDirs i s)

/-- R242: the effects of acceptance, all at once and no others; and from then on a command reads the latch and never the
ARG registers. -/
def Obligations.AcceptanceLatchesCommand : Prop :=
  (∀ (s : State) (w : Word) (rest : List Event), s.status.busy = false → s.inputs.rst = false →
    step { s with agenda := .write 0x010 w :: rest } =
      .next
        { s with
          agenda := rest
          busOut := some .okayWrite
          curCmd := w
          curArg := s.arg
          status := { s.status with busy := true, done := false } }) ∧
    ∀ (i : Instr) (s : State) (g : Args),
      exec i { s with arg := g } = Sys2Proof.Claims.mapNext (fun t => { t with arg := g }) (exec i s)

/-- R245 and R270: how a command can end. It completes without error, or with one error by which STATUS alone changes,
and READY where `hctr2.init` fails with BLOCK_SIZE; or it waits as it is for a block cipher that does not answer. An
illegal command ends with an error too. -/
def Obligations.ErrorsWriteOnlyStatus : Prop :=
  (∀ (i : Instr) (s t : State), exec i s = .next t →
    (Completed s t ∧ SameOutside s t) ∨
      (∃ c, c ≠ .noError ∧ Failed c s t ∧ { t with status := s.status, ready := s.ready } = s ∧
        (t.ready = s.ready ∨ (i = .hctr2Init ∧ c = .blockSize ∧ t.ready = false))) ∨
      (t = s ∧ s.inputs.bcAnswers = false ∧ s.port.answered < (Sys2Proof.Claims.requestDirs i s).length)) ∧
    ∀ (s : State) (e : DecodeError), s.status.busy = true → s.inputs.rst = false → Sys2Proof.Claims.HasTurn s →
      decode s.curCmd = .error e →
      ∃ t, step s = .next t ∧ Failed .illegal s t ∧ { t with status := s.status } = Sys2Proof.Claims.turnTaken s

/-- R269: a command makes its checks in the rule's order and reports the first that fails. An illegal word reports
ILLEGAL; a legal one reports the first failing check of its command; and where no check fails, none is reported. -/
def Obligations.FirstFailingCheckIsReported : Prop :=
  ∀ s : State, s.status.busy = true → s.inputs.rst = false → Sys2Proof.Claims.HasTurn s →
    (Sys2Proof.Claims.IllegalWord s.curCmd → ∃ t, step s = .next t ∧ Failed .illegal s t) ∧
      (¬Sys2Proof.Claims.IllegalWord s.curCmd → ∃ i, decode s.curCmd = .ok i ∧
        (∀ c, Sys2Proof.Claims.firstFailure i s = some c → ∃ t, step s = .next t ∧ Failed c s t) ∧
        (Sys2Proof.Claims.firstFailure i s = none →
          ∀ t, step s = .next t → Completed s t ∨ t = Sys2Proof.Claims.turnTaken s))

/-- R188: two regions of length `n` partially overlap when they differ in their starts and share a byte; equal starts,
disjoint regions and empty ones do not. The destination region is the first ARG_LEN bytes of the destination. -/
def Obligations.PartialOverlapTest : Prop :=
  (∀ a b n : Nat, partialOverlap a b n = true ↔ (0 < n ∧ a ≠ b ∧ a < b + n ∧ b < a + n)) ∧
    (∀ a b n : Nat, partialOverlap a b n = true ↔
      (a ≠ b ∧ ∃ x, (a ≤ x ∧ x < a + n) ∧ b ≤ x ∧ x < b + n)) ∧
    ∀ g : Args, argsOverlap g = partialOverlap g.src.toNat g.dst.toNat g.len.toNat

/-- The faults of a command (R71): only `pv.updb`, `xctr`, `hctr2.enc` and `hctr2.dec` fault, at a byte that nothing
has written in their source or, for the last two, in their tweak. No command and no step is refused. -/
def Obligations.FaultsOnlyAtUnwrittenBytes : Prop :=
  (∀ (i : Instr) (s : State) (f : Fault), exec i s = .fault f →
    ∃ e, f = .unwrittenRead e ∧ s.buf.read e = none ∧
      ((i = .pvUpdb ∨ (∃ r, i = .xctr r) ∨ i = .hctr2Enc ∨ i = .hctr2Dec) ∧
          s.curArg.src.toNat ≤ e ∧ e < s.curArg.src.toNat + s.curArg.len.toNat ∨
        (i = .hctr2Enc ∨ i = .hctr2Dec) ∧
          s.curArg.twk.toNat ≤ e ∧ e < s.curArg.twk.toNat + s.curArg.tlen.toNat)) ∧
    ∀ (s : State) (r : Refusal), step s ≠ .refused r

/-- A command whose checks pass and that reads an unwritten byte, in its source or, for `hctr2.enc` and `hctr2.dec`, in
its tweak, is given no meaning: it faults (R71, R303). -/
def Obligations.UnwrittenReadFaults : Prop :=
  ∀ (i : Instr) (s : State) (x : Nat),
    i = .pvUpdb ∨ (∃ r, i = .xctr r) ∨ i = .hctr2Enc ∨ i = .hctr2Dec →
    Sys2Proof.Claims.firstFailure i s = none → s.buf.read x = none →
    ((s.curArg.src.toNat ≤ x ∧ x < s.curArg.src.toNat + s.curArg.len.toNat) ∨
      (i = .hctr2Enc ∨ i = .hctr2Dec) ∧
        s.curArg.twk.toNat ≤ x ∧ x < s.curArg.twk.toNat + s.curArg.tlen.toNat) →
    ∃ e, exec i s = .fault (.unwrittenRead e)

/-- A command within its checks stays in progress as it is while the block cipher does not answer and some request of
the command has no answer yet: `hctr2.init`, `xctr`, `hctr2.enc` and `hctr2.dec` (R305). -/
def Obligations.SilentBlockCipherHangs : Prop :=
  (∀ s : State, s.inputs.bcAnswers = false → s.inputs.bcBlockSize = 16 ∨ s.port ≠ Port.idle →
      s.port.answered < 2 → exec .hctr2Init s = .next s) ∧
    (∀ (r : FReg) (s : State) (bs : List Byte), s.inputs.bcAnswers = false →
      Sys2Proof.Claims.firstFailure (.xctr r) s = none → s.port.answered < (s.curArg.len.toNat + 15) / 16 →
      bs.length = s.curArg.len.toNat → BytesAt s.buf s.curArg.src.toNat bs → exec (.xctr r) s = .next s) ∧
    ∀ (i : Instr) (s : State) (p t : List Byte), i = .hctr2Enc ∨ i = .hctr2Dec → s.inputs.bcAnswers = false →
      Sys2Proof.Claims.firstFailure i s = none → s.port.answered < 1 + (s.curArg.len.toNat - 16 + 15) / 16 →
      p.length = s.curArg.len.toNat → BytesAt s.buf s.curArg.src.toNat p →
      t.length = s.curArg.tlen.toNat → BytesAt s.buf s.curArg.twk.toNat t → exec i s = .next s

/-- With a block cipher that answers, or has answered all requests, the core's turn ends the command in progress: BUSY is
0 and DONE is 1 (R305). -/
def Obligations.AnsweredCommandEnds : Prop :=
  ∀ s t : State, s.status.busy = true → s.inputs.rst = false →
    (∀ i, decode s.curCmd = .ok i → Sys2Proof.Claims.Answered i s) →
    Sys2Proof.Claims.HasTurn s → step s = .next t → t.status.busy = false ∧ t.status.done = true

/-- Who writes the key registers (R31, R33, R34, R185): H, L and READY change only by `pv.init` (not L), by
`hctr2.init` and by reset; a valid cache is invalidated only by them, and filled only by the cipher commands. -/
def Obligations.WritersOfKeyRegisters : Prop :=
  ∀ s t : State, step s = .next t →
    let reset := ∃ level rest, s.agenda = .setRst level :: rest
    let init := Sys2Proof.Claims.Runs s .hctr2Init
    let pvInit := ∃ r, Sys2Proof.Claims.Runs s (.pvInit r)
    (t.h ≠ s.h → pvInit ∨ init ∨ reset) ∧
      (t.l ≠ s.l → init ∨ reset) ∧
      (t.ready ≠ s.ready → pvInit ∨ init ∨ reset) ∧
      (s.cache.valid = true → t.cache.valid = false → pvInit ∨ init ∨ reset) ∧
      (t.cache ≠ s.cache →
        pvInit ∨ init ∨ reset ∨ Sys2Proof.Claims.Runs s .hctr2Enc ∨ Sys2Proof.Claims.Runs s .hctr2Dec)

/-! ### The host bus -/

/-- R246: a write to CMD while BUSY = 1 is dropped: OKAY, OVERRUN set, every other state unchanged. -/
def Obligations.CommandWhileBusyIsDropped : Prop :=
  ∀ (s : State) (w : Word) (rest : List Event), s.status.busy = true → s.inputs.rst = false →
    step { s with agenda := .write 0x010 w :: rest } =
      .next { s with agenda := rest, busOut := some .okayWrite, status := { s.status with overrun := true } }

/-- R247: while BUSY = 1 a write to an ARG register, a field-register word or a BUF word is dropped: OKAY, OVERRUN set,
nothing else changed. Writes to CTRL and STATUS are taken; writes to ID and CONFIG are ignored. -/
def Obligations.OperandWriteWhileBusyIsDropped : Prop :=
  ∀ (s : State) (a : BitVec 16) (v : Word) (rest : List Event), s.status.busy = true → s.inputs.rst = false →
    (Sys2Proof.Claims.Listed (bufBytes s) a → 0x014 ≤ a.toNat →
      step { s with agenda := .write a v :: rest } =
        .next { s with agenda := rest, busOut := some .okayWrite, status := { s.status with overrun := true } }) ∧
    step { s with agenda := .write 0x008 v :: rest } =
      .next { s with agenda := rest, busOut := some .okayWrite, irqEn := v.getLsbD 0 } ∧
    step { s with agenda := .write 0x00C v :: rest } =
      .next { s with agenda := rest, busOut := some .okayWrite, status := s.status.clearedBy v } ∧
    step { s with agenda := .write 0x000 v :: rest } =
      .next { s with agenda := rest, busOut := some .okayWrite } ∧
    step { s with agenda := .write 0x004 v :: rest } =
      .next { s with agenda := rest, busOut := some .okayWrite }

/-- R248: while BUSY = 1 a read of a field-register or BUF word completes OKAY with a draw of its own; reads of ID,
CONFIG, CTRL, STATUS and the ARG registers return their current values. -/
def Obligations.ReadWhileBusyIsADraw : Prop :=
  ∀ (s : State) (a : BitVec 16) (rest : List Event), s.status.busy = true → s.inputs.rst = false →
    let answer (a : BitVec 16) (w : Word) : Prop :=
      step { s with agenda := .read a :: rest } = .next { s with agenda := rest, busOut := some (.okayRead w) }
    (Sys2Proof.Claims.Listed (bufBytes s) a → 0x040 ≤ a.toNat →
      step { s with agenda := .read a :: rest } =
        .next
          { s with
            agenda := rest
            busOut := some (.okayRead (Config.freeWord s.draws))
            draws := s.draws + 1 }) ∧
    answer 0x000 0x32544348 ∧ answer 0x004 (configWord s) ∧ answer 0x008 (ctrlWord s) ∧
    answer 0x00C (statusWord s) ∧ answer 0x014 s.arg.src ∧ answer 0x018 s.arg.dst ∧ answer 0x01C s.arg.len ∧
    answer 0x020 s.arg.dlen ∧ answer 0x024 s.arg.twk ∧ answer 0x028 s.arg.tlen

/-- R77: a misaligned access completes with ERROR and has no effect, and a read returns 0. -/
def Obligations.MisalignedAccessHasNoEffect : Prop :=
  ∀ (s : State) (a : BitVec 16) (v : Word) (rest : List Event), s.inputs.rst = false → a.toNat % 4 ≠ 0 →
    step { s with agenda := .read a :: rest } =
        .next { s with agenda := rest, busOut := some (.errorRead 0) } ∧
      step { s with agenda := .write a v :: rest } =
        .next { s with agenda := rest, busOut := some .errorWrite }

/-- R78: an aligned access to an unlisted address completes with ERROR and has no effect, and a read returns 0. Reserved
bits of the listed registers read 0 and ignore writes; writes to ID and CONFIG are ignored with OKAY; a read of CMD returns
0 with OKAY. An access to a listed address never ends with ERROR. -/
def Obligations.UnlistedAddressHasNoEffect : Prop :=
  ∀ (s : State) (a : BitVec 16) (v : Word) (rest : List Event), s.inputs.rst = false →
    (a.toNat % 4 = 0 → ¬Sys2Proof.Claims.Listed (bufBytes s) a →
      step { s with agenda := .read a :: rest } =
          .next { s with agenda := rest, busOut := some (.errorRead 0) } ∧
        step { s with agenda := .write a v :: rest } =
          .next { s with agenda := rest, busOut := some .errorWrite }) ∧
    (Sys2Proof.Claims.Listed (bufBytes s) a →
      (∃ t w, step { s with agenda := .read a :: rest } = .next t ∧ t.busOut = some (.okayRead w)) ∧
        ∃ t, step { s with agenda := .write a v :: rest } = .next t ∧ t.busOut = some .okayWrite) ∧
    (∀ k, (k = 6 ∨ k = 7 ∨ 16 ≤ k) → (statusWord s).getLsbD k = false) ∧
    (∀ k, 1 ≤ k → (ctrlWord s).getLsbD k = false) ∧
    (∀ k, (5 ≤ k ∧ k < 8) ∨ 16 ≤ k → (configWord s).getLsbD k = false) ∧
    (∀ t t' : State, ∀ v', (∀ k, 1 ≤ k → k < 4 → v'.getLsbD k = v.getLsbD k) →
      step { s with agenda := .write 0x00C v :: rest } = .next t →
      step { s with agenda := .write 0x00C v' :: rest } = .next t' → t' = t) ∧
    (∀ t t' : State, ∀ v', v'.getLsbD 0 = v.getLsbD 0 →
      step { s with agenda := .write 0x008 v :: rest } = .next t →
      step { s with agenda := .write 0x008 v' :: rest } = .next t' → t' = t) ∧
    step { s with agenda := .write 0x000 v :: rest } = .next { s with agenda := rest, busOut := some .okayWrite } ∧
    step { s with agenda := .write 0x004 v :: rest } = .next { s with agenda := rest, busOut := some .okayWrite } ∧
    step { s with agenda := .read 0x010 :: rest } =
      .next { s with agenda := rest, busOut := some (.okayRead 0) }

/-- R80: the host word at 0x040 + 16r + 4j is bits `[32j+31:32j]` of FR[r], its wire bytes 4j to 4j+3; a write sets exactly
those bits, and every other bit of every field register and all else are unchanged. -/
def Obligations.FieldWordAccess : Prop :=
  ∀ (s : State) (r : FReg) (j : Nat) (v : Word) (rest : List Event),
    s.inputs.rst = false → s.status.busy = false → j < 4 →
    let a : BitVec 16 := BitVec.ofNat 16 (0x040 + 16 * r.index + 4 * j)
    (∃ w, step { s with agenda := .read a :: rest } =
        .next { s with agenda := rest, busOut := some (.okayRead w) } ∧
        ∀ k, k < 4 → some (w.extractLsb' (8 * k) 8) = (bytesOf (s.fr.read r))[4 * j + k]?) ∧
      ∃ t, step { s with agenda := .write a v :: rest } = .next t ∧
        { t with fr := s.fr } = { s with agenda := rest, busOut := some .okayWrite } ∧
        (∀ q, q ≠ r → t.fr.read q = s.fr.read q) ∧
        ∀ k, k < 128 → (t.fr.read r).getLsbD k =
          if k / 32 = j then v.getLsbD (k % 32) else (s.fr.read r).getLsbD k

/-- R81: the host word at 0x8000 + 4k holds BUF[4k] in bits 7:0 to BUF[4k+3] in bits 31:24. A write sets those four
bytes and marks them written; a read of four written bytes returns them; all else is unchanged. -/
def Obligations.BufferWordAccess : Prop :=
  ∀ (s : State) (k : Nat) (v : Word) (rest : List Event),
    s.inputs.rst = false → s.status.busy = false → 4 * k < bufBytes s →
    let a : BitVec 16 := BitVec.ofNat 16 (0x8000 + 4 * k)
    (∀ b0 b1 b2 b3 : Byte, BytesAt s.buf (4 * k) [b0, b1, b2, b3] →
      step { s with agenda := .read a :: rest } =
        .next { s with agenda := rest, busOut := some (.okayRead (b3 ++ b2 ++ b1 ++ b0)) }) ∧
      ∃ t, step { s with agenda := .write a v :: rest } = .next t ∧
        { t with buf := s.buf } = { s with agenda := rest, busOut := some .okayWrite } ∧
        (∀ j, j < 4 → t.buf.read (4 * k + j) = some (v.extractLsb' (8 * j) 8)) ∧
        ∀ x, ¬(4 * k ≤ x ∧ x < 4 * k + 4) → t.buf.read x = s.buf.read x

/-- A host read of a BUF word with an unwritten byte returns the written bytes exactly and a draw for the others, which
stay unwritten, so that the next read draws anew (R71). -/
def Obligations.UnwrittenByteReadIsADraw : Prop :=
  ∀ (s : State) (k j : Nat) (rest : List Event),
    s.inputs.rst = false → s.status.busy = false → 4 * k < bufBytes s → j < 4 → s.buf.read (4 * k + j) = none →
    ∃ w, step { s with agenda := .read (BitVec.ofNat 16 (0x8000 + 4 * k)) :: rest } =
        .next { s with agenda := rest, busOut := some (.okayRead w), draws := s.draws + 1 } ∧
      ∀ i, i < 4 → w.extractLsb' (8 * i) 8 =
        (s.buf.read (4 * k + i)).getD ((Config.freeWord s.draws).extractLsb' (8 * i) 8)

/-- In every state the STATUS word holds each field in its bits (R39). A host read of STATUS, busy or not, answers that
word and changes nothing: it is the read that ends every wait (R88). A write of 1 to DONE, ERR or OVERRUN clears it (and
FIRST_ERR with ERR), a write of 0 leaves it, and no other bit is written, busy or not. -/
def Obligations.StatusRegisterAccess : Prop :=
  ∀ s : State,
    ((statusWord s).getLsbD 0 = s.status.busy ∧ (statusWord s).getLsbD 1 = s.status.done ∧
      (statusWord s).getLsbD 2 = s.status.err ∧ (statusWord s).getLsbD 3 = s.status.overrun ∧
      (statusWord s).getLsbD 4 = s.ready ∧ (statusWord s).getLsbD 5 = s.inputs.bcHasXctr ∧
      (statusWord s).extractLsb' 6 2 = 0 ∧ (statusWord s).extractLsb' 8 4 = s.status.errCode.code ∧
      (statusWord s).extractLsb' 12 4 = s.status.firstErr.code ∧ (statusWord s).extractLsb' 16 16 = 0) ∧
    ∀ (v : Word) (rest : List Event), s.inputs.rst = false →
      step { s with agenda := .read 0x00C :: rest } =
          .next { s with agenda := rest, busOut := some (.okayRead (statusWord s)) } ∧
        ∃ t, step { s with agenda := .write 0x00C v :: rest } = .next t ∧
          { t with status := s.status } = { s with agenda := rest, busOut := some .okayWrite } ∧
          t.status.busy = s.status.busy ∧ t.status.errCode = s.status.errCode ∧
          t.status.done = (if v.getLsbD 1 then false else s.status.done) ∧
          t.status.err = (if v.getLsbD 2 then false else s.status.err) ∧
          t.status.firstErr = (if v.getLsbD 2 then .noError else s.status.firstErr) ∧
          t.status.overrun = (if v.getLsbD 3 then false else s.status.overrun)

/-- ID reads its value (R40); CONFIG reads BUF_LOG2, the logarithm of BUF_BYTES from 6 to 15, NFR = 4 and zeros (R41);
CTRL reads back IRQ_EN and zeros (R42). Writes to ID and CONFIG are ignored. -/
def Obligations.IdConfigAndControl : Prop :=
  ∀ (s : State) (v : Word) (rest : List Event), s.inputs.rst = false →
    let answer (s : State) (a : BitVec 16) (w : Word) : Prop :=
      step { s with agenda := .read a :: rest } = .next { s with agenda := rest, busOut := some (.okayRead w) }
    answer s 0x000 0x32544348 ∧
      (∃ w, answer s 0x004 w ∧ bufBytes s = 2 ^ (w.extractLsb' 0 5).toNat ∧ 6 ≤ (w.extractLsb' 0 5).toNat ∧
        (w.extractLsb' 0 5).toNat ≤ 15 ∧ w.extractLsb' 5 3 = 0 ∧ w.extractLsb' 8 8 = 4 ∧ w.extractLsb' 16 16 = 0) ∧
      (∀ a : BitVec 16, a = 0x000 ∨ a = 0x004 → step { s with agenda := .write a v :: rest } =
        .next { s with agenda := rest, busOut := some .okayWrite }) ∧
      ∃ t, step { s with agenda := .write 0x008 v :: rest } = .next t ∧
        { t with irqEn := s.irqEn } = { s with agenda := rest, busOut := some .okayWrite } ∧
        answer t 0x008 (if v.getLsbD 0 then 1 else 0)

/-- An idle core takes a write to an ARG register whole, changes nothing else, and reads it back as written (R38). -/
def Obligations.ArgRegisterReadsBack : Prop :=
  ∀ (s : State) (k : ArgReg) (v : Word) (rest : List Event), s.inputs.rst = false → s.status.busy = false →
    let a : BitVec 16 := match k with
      | .src => 0x014
      | .dst => 0x018
      | .len => 0x01C
      | .dlen => 0x020
      | .twk => 0x024
      | .tlen => 0x028
    ∃ t, step { s with agenda := .write a v :: .read a :: rest } = .next t ∧
      { t with arg := s.arg } = { s with agenda := .read a :: rest, busOut := some .okayWrite } ∧
      (∀ q, q ≠ k → t.arg.read q = s.arg.read q) ∧
      step t = .next { t with agenda := rest, busOut := some (.okayRead v) }

/-- The interrupt line (R45, R273): it is the conjunction of IRQ_EN and DONE. Two events raise it: a completion while
IRQ_EN = 1, and a write of 1 to IRQ_EN while DONE = 1. Three clear it: a write of 1 to DONE, a write of 0 to IRQ_EN, and
the acceptance of a command. -/
def Obligations.InterruptLine : Prop :=
  (∀ s : State, irq s = true ↔ s.irqEn = true ∧ s.status.done = true) ∧
    (∀ (i : Instr) (s t : State), exec i s = .next t → s.irqEn = true → t ≠ s → irq t = true) ∧
    ∀ (s t : State) (v : Word) (rest : List Event), s.inputs.rst = false →
      (step { s with agenda := .write 0x00C v :: rest } = .next t → v.getLsbD 1 = true → irq t = false) ∧
        (step { s with agenda := .write 0x008 v :: rest } = .next t → v.getLsbD 0 = false → irq t = false) ∧
        (step { s with agenda := .write 0x008 v :: rest } = .next t → v.getLsbD 0 = true →
          irq t = s.status.done) ∧
        (step { s with agenda := .write 0x010 v :: rest } = .next t → s.status.busy = false → irq t = false)

/-- The host cannot read H, Y, L, the cache, the scratch registers or the command latch (R31 to R37): a host read answers
the same whatever they hold, and leaves them as they are. Where the spec leaves the answer open (an unwritten BUF byte,
log entry 7; a field-register or BUF word while BUSY = 1, log entry 8) the two runs answer alike because both draw the
model's free value at the same count: that is the model's choice and not the spec's, which leaves each such value
unconstrained. -/
def Obligations.HiddenRegistersAreNotReadable : Prop :=
  ∀ (s : State) (a : BitVec 16) (rest : List Event) (h y l : Elem) (c : Cache) (x : Scratch) (w : Word) (g : Args),
    ∃ t, step { s with agenda := .read a :: rest } = .next t ∧
      step
        { s with
          agenda := .read a :: rest, h := h, y := y, l := l, cache := c, scratch := x, curCmd := w, curArg := g } =
        .next { t with h := h, y := y, l := l, cache := c, scratch := x, curCmd := w, curArg := g }

/-! ### Reset, the surroundings, and the invariant -/

/-- From every state, after `rst` is asserted and again after it is released, every register holds its reset value and
every BUF byte is unwritten; after the release STATUS reads 0 but for BCX, `irq` is 0 and the core is idle (R48, R290,
R291). The inputs and the parameter BUF_BYTES stay. The spec states these values for the release; that they stand
already while `rst` is asserted is the model's reading (DEDUCED, log entry 11). -/
def Obligations.ResetFromAnyState : Prop :=
  ∀ (s : State) (rest : List Event),
    ∃ t u, step { s with agenda := .setRst true :: .setRst false :: rest } = .next t ∧ AtReset t ∧
      step t = .next u ∧ AtReset u ∧ u.status.busy = false ∧
      statusWord u = (if s.inputs.bcHasXctr then 0x20 else 0) ∧ irq u = false ∧
      u.inputs = { s.inputs with rst := false } ∧ u.bufSel = s.bufSel ∧ u.agenda = rest

/-- The surroundings' duties. The inputs `bc_block_size` and `bc_has_xctr`, and whether the block cipher answers, change
at any time and nothing else with them; no command but `hctr2.init` reads `bc_block_size` (R180). A new key between
commands is unseen: H, L and READY stay (R296); during a command it has no meaning (R300). A request is transferred where
the core has one to make (R86) and may have one more outstanding (R85), a response answers one outstanding request (R84),
and nothing else changes with either (that they are events of their own is the model's form, log entry 23). A stray
response is ignored while no request is outstanding, whatever the core does (R292); while one is outstanding it has no
meaning. While `rst` is asserted the core accepts no access and runs nothing (R290); that such an access ends with
the response `notAccepted` is the model's choice (log entry 11). -/
def Obligations.SurroundingsDuties : Prop :=
  ∀ (s : State) (rest : List Event),
    (∀ n, step { s with agenda := .setBlockSize n :: rest } =
      .next { s with agenda := rest, inputs := { s.inputs with bcBlockSize := n } }) ∧
    (∀ b, step { s with agenda := .setHasXctr b :: rest } =
      .next { s with agenda := rest, inputs := { s.inputs with bcHasXctr := b } }) ∧
    (∀ b, step { s with agenda := .setAnswers b :: rest } =
      .next { s with agenda := rest, inputs := { s.inputs with bcAnswers := b } }) ∧
    (∀ (i : Instr) (n : Byte), i ≠ .hctr2Init →
      exec i { s with inputs := { s.inputs with bcBlockSize := n } } =
        Sys2Proof.Claims.mapNext (fun t => { t with inputs := { t.inputs with bcBlockSize := n } }) (exec i s)) ∧
    (∀ k, s.status.busy = false → step { s with agenda := .rekey k :: rest } =
      .next { s with agenda := rest, inputs := { s.inputs with bcKey := k } }) ∧
    (∀ k, s.status.busy = true → step { s with agenda := .rekey k :: rest } = .fault .keyChangeWhileBusy) ∧
    (Sys2Proof.Claims.CanRequest s → step { s with agenda := .request :: rest } =
      .next { s with agenda := rest, port := ⟨s.port.answered, s.port.outstanding + 1⟩ }) ∧
    (¬Sys2Proof.Claims.CanRequest s → step { s with agenda := .request :: rest } = .next { s with agenda := rest }) ∧
    (0 < s.port.outstanding → step { s with agenda := .response :: rest } =
      .next { s with agenda := rest, port := ⟨s.port.answered + 1, s.port.outstanding - 1⟩ }) ∧
    (s.port.outstanding = 0 → step { s with agenda := .response :: rest } = .next { s with agenda := rest }) ∧
    (∀ x, s.port.outstanding = 0 →
      step { s with agenda := .strayResponse x :: rest } = .next { s with agenda := rest }) ∧
    (∀ x, 0 < s.port.outstanding →
      step { s with agenda := .strayResponse x :: rest } = .fault .strayResponseWhileOutstanding) ∧
    (s.inputs.rst = true → ∀ a v,
      step { s with agenda := .read a :: rest } = .next { s with agenda := rest, busOut := some .notAccepted } ∧
        step { s with agenda := .write a v :: rest } =
          .next { s with agenda := rest, busOut := some .notAccepted } ∧
        step { s with agenda := .core :: rest } = .next { s with agenda := rest })

/-- Every step keeps the invariant of the machine, from every state that has it, and keeps the parameter BUF_BYTES. Its
clause on READY says what READY = 1 means (R34): H and L are what a successful `hctr2.init` gave under some key. Its
clauses on the port say that only a command in progress whose checks pass has transferred requests, and no more than it
issues, with at most four outstanding (R84 to R86): an idle core has none, and neither has one after reset (R292). Its
clause that the registers hold their reset values while `rst` is asserted is the model's reading (DEDUCED, log entry
11), since the spec states them for the release. -/
def Obligations.StepKeepsInvariant : Prop :=
  ∀ s t : State, MachineInv s → Sys2Proof.Machine.step s = .next t → MachineInv t ∧ t.bufSel = s.bufSel

/-- The state after reset has the invariant, holds the reset values of R48, and has 4096 bytes of BUF (R9). -/
def Obligations.ResetStateHasInvariant : Prop :=
  MachineInv State.reset ∧ AtReset State.reset ∧ bufBytes State.reset = 4096
end

