-- ==== Sys2Proof/Laws/Bytes.lean ====
section
/-! SUPPORT. The laws of the byte order: serialisation there and back, padding, and the keystream byte by byte. -/

namespace Sys2Proof.Machine

@[simp] theorem bytesOf_length (v : Elem) : (bytesOf v).length = 16 := by simp [bytesOf]

/-- Wire byte `j` is bits `[8j+7:8j]` (R16). -/
@[simp] theorem bytesOf_getElem (v : Elem) (j : Nat) (h : j < (bytesOf v).length) :
    (bytesOf v)[j] = v.extractLsb' (8 * j) 8 := by simp [bytesOf]

@[simp] theorem wordBytes_length (w : Word) : (wordBytes w).length = 4 := by simp [wordBytes]

@[simp] theorem wordBytes_getElem (w : Word) (j : Nat) (h : j < (wordBytes w).length) :
    (wordBytes w)[j] = w.extractLsb' (8 * j) 8 := by simp [wordBytes]

/-- Bit `i` of `fe(B)` is bit `i mod 8` of byte `i / 8`, and 0 beyond the bytes (R16). -/
theorem fe_getLsbD (bs : List Byte) (i : Nat) (h : i < 128) :
    (fe bs).getLsbD i = (bs[i / 8]?.getD 0).getLsbD (i % 8) := by
  induction bs generalizing i with
  | nil => simp [fe]
  | cons b bs ih =>
    have hf : fe (b :: bs) = (fe bs <<< 8) ||| b.setWidth 128 := rfl
    rw [hf, BitVec.getLsbD_or, BitVec.getLsbD_shiftLeft, BitVec.getLsbD_setWidth]
    by_cases h8 : i < 8
    · have h0 : i / 8 = 0 := by omega
      have hm : i % 8 = i := by omega
      simp [h8, h0, hm, h]
    · obtain ⟨k, hk⟩ : ∃ k, i = k + 8 := ⟨i - 8, by omega⟩
      subst hk
      have hd : (k + 8) / 8 = k / 8 + 1 := by omega
      have hm : (k + 8) % 8 = k % 8 := by omega
      have hlt : ¬(k + 8 < 8) := by omega
      have hlt' : k + 8 < 128 := h
      rw [ih (k + 8 - 8) (by omega)]
      simp [hd, hm, hlt']

/-- `fe(bytes(v)) = v` (R16). -/
@[simp] theorem fe_bytesOf (v : Elem) : fe (bytesOf v) = v := by
  apply BitVec.eq_of_getLsbD_eq
  intro i hi
  rw [fe_getLsbD _ _ hi]
  have hlt : i / 8 < (bytesOf v).length := by simp; omega
  rw [List.getElem?_eq_getElem hlt, Option.getD_some, bytesOf_getElem, BitVec.getLsbD_extractLsb']
  have h8 : i % 8 < 8 := by omega
  simp only [h8, decide_true, Bool.true_and]
  congr 1
  omega

/-- `bytes(fe(B)) = B` for 16 bytes (R16). -/
theorem bytesOf_fe (bs : List Byte) (h : bs.length = 16) : bytesOf (fe bs) = bs := by
  apply List.ext_getElem (by simp [h])
  intro j h1 h2
  rw [bytesOf_getElem]
  apply BitVec.eq_of_getLsbD_eq
  intro i hi
  have hj : j < 16 := by simpa using h1
  rw [BitVec.getLsbD_extractLsb', fe_getLsbD _ _ (by omega)]
  have hd : (8 * j + i) / 8 = j := by omega
  have hm : (8 * j + i) % 8 = i := by omega
  simp [hd, hm, hi, List.getElem?_eq_getElem h2]

/-- A padded byte string is a whole number of blocks (R182). -/
theorem pad16_length_mod (bs : List Byte) : (pad16 bs).length % 16 = 0 := by
  simp only [pad16, List.length_append, List.length_replicate]
  omega

/-- A whole number of blocks takes no padding (R182). -/
theorem pad16_of_mod (bs : List Byte) (h : bs.length % 16 = 0) : pad16 bs = bs := by
  simp [pad16, h]

/-- A padded byte string has `ceil(n/16)` blocks (R152). -/
@[simp] theorem blocks_pad16_length (bs : List Byte) : (blocks (pad16 bs)).length = ceil16 bs.length := by
  simp only [blocks, List.length_map, List.length_range, pad16, List.length_append, List.length_replicate, ceil16]
  omega

/-- The blocks of a whole number of blocks and what follows (R160). -/
theorem blocks_append (xs ys : List Byte) (h : xs.length % 16 = 0) :
    blocks (xs ++ ys) = blocks xs ++ blocks ys := by
  obtain ⟨k, hk⟩ : ∃ k, xs.length = 16 * k := ⟨xs.length / 16, by omega⟩
  have hd : (xs ++ ys).length / 16 = k + ys.length / 16 := by simp [hk]; omega
  have hx : xs.length / 16 = k := by omega
  unfold blocks
  rw [hd, hx, List.range_add, List.map_append, List.map_map]
  congr 1
  · apply List.map_congr_left
    intro i hi
    have hi := List.mem_range.mp hi
    rw [List.drop_append_of_le_length (by omega), List.take_append_of_le_length (by simp; omega)]
  · apply List.map_congr_left
    intro i _
    simp only [Function.comp_apply]
    congr 2
    rw [List.drop_append, List.drop_eq_nil_of_le (by omega), List.nil_append]
    congr 1
    omega

/-- The keystream has 16 bytes a block (R221). -/
@[simp] theorem keystream_length (e : Elem → Elem) (n : Elem) (m : Nat) : (keystream e n m).length = 16 * m := by
  simp [keystream, List.length_flatMap, Nat.mul_comm]

/-- `m + 1` blocks are `m` blocks and block `m + 1` (R221). -/
theorem keystream_succ (e : Elem → Elem) (n : Elem) (m : Nat) :
    keystream e n (m + 1) = keystream e n m ++ bytesOf (ksBlock e n (m + 1)) := by
  simp [keystream, List.range_succ]

/-- Byte `j` of the keystream is byte `j mod 16` of block `j / 16 + 1` (R221). -/
theorem keystream_getElem (e : Elem → Elem) (n : Elem) (m j : Nat) (h : j < (keystream e n m).length) :
    (keystream e n m)[j] = (ksBlock e n (j / 16 + 1)).extractLsb' (8 * (j % 16)) 8 := by
  induction m with
  | zero => simp at h
  | succ m ih =>
    have hl : j < 16 * m + 16 := by simpa [Nat.mul_add] using h
    simp only [keystream_succ]
    by_cases hj : j < 16 * m
    · rw [List.getElem_append_left (by simpa using hj)]
      exact ih (by simpa using hj)
    · rw [List.getElem_append_right (by simpa using hj)]
      simp only [bytesOf_getElem, keystream_length]
      have h1 : j / 16 = m := by omega
      have h2 : j % 16 = j - 16 * m := by omega
      rw [h1, h2]

/-- XCTR keeps the length (R221). -/
@[simp] theorem xctrBytes_length (e : Elem → Elem) (n : Elem) (bs : List Byte) :
    (xctrBytes e n bs).length = bs.length := by
  simp only [xctrBytes, List.length_zipWith, keystream_length, ceil16]
  omega

/-- Byte `j` of the output is `X[j] ⊕ KS_(j/16+1)(S)[j mod 16]` (R221). -/
theorem xctrBytes_getElem (e : Elem → Elem) (n : Elem) (bs : List Byte) (j : Nat)
    (h : j < (xctrBytes e n bs).length) :
    (xctrBytes e n bs)[j] =
      bs[j]'(by simpa using h) ^^^ (ksBlock e n (j / 16 + 1)).extractLsb' (8 * (j % 16)) 8 := by
  simp only [xctrBytes, List.getElem_zipWith, keystream_getElem]

/-- The exchanges of a keystream are `ceil(k/16)` (R86, R221). -/
@[simp] theorem keystreamLog_length (e : Elem → Elem) (n : Elem) (k : Nat) :
    (keystreamLog e n k).length = ceil16 k := by
  simp [keystreamLog]

end Sys2Proof.Machine
end

