-- ==== Sys2Proof/Laws/Memory.lean ====
section
/-! SUPPORT. The laws of BUF: reads after writes, and the canonical form that every memory operation keeps. -/

namespace Sys2Proof.Machine

@[simp] theorem Memory.unlisted_eq : Memory.unlisted = none := rfl

@[simp] theorem Memory.read_nil (a : Nat) : Memory.read [] a = none := rfl

/-- What a byte of BUF reads as after one byte was written. -/
theorem Memory.read_write (m : Memory) (a x : Nat) (b : Byte) :
    (m.write a b).read x = if x = a then some b else m.read x := by
  induction m with
  | nil => simp [Memory.write, Memory.read, Memory.unlisted, eq_comm]
  | cons c m ih =>
    simp only [Memory.write]
    split
    · simp only [Memory.read, eq_comm (a := a)]
    · split
      · rename_i heq
        simp only [Memory.read, ← heq, eq_comm (a := a)]
        split <;> rfl
      · rename_i hne
        simp only [Memory.read, ih]
        by_cases hx : x = a
        · rw [if_neg (fun h => hne (h.symm ▸ hx).symm), if_pos hx, if_pos hx]
        · rw [if_neg hx, if_neg hx]

/-- Reading back the byte that was written. -/
@[simp] theorem Memory.read_write_same (m : Memory) (a : Nat) (b : Byte) : (m.write a b).read a = some b := by
  simp [Memory.read_write]

/-- Writing a byte leaves every other byte. -/
theorem Memory.read_write_other (m : Memory) (a x : Nat) (b : Byte) (h : x ≠ a) :
    (m.write a b).read x = m.read x := by
  simp [Memory.read_write, h]

/-- The offsets that are listed after a byte was written. -/
theorem Memory.mem_write {m : Memory} {a : Nat} {b : Byte} {c : Host.Cell} (h : c ∈ m.write a b) :
    c.1 = a ∨ c ∈ m := by
  induction m with
  | nil => simp_all [Memory.write]
  | cons d m ih =>
    simp only [Memory.write] at h
    split at h
    · rcases List.mem_cons.mp h with h | h
      · exact .inl (by simp [h])
      · exact .inr h
    · split at h
      · rcases List.mem_cons.mp h with h | h
        · exact .inl (by simp [h])
        · exact .inr (List.mem_cons_of_mem _ h)
      · rcases List.mem_cons.mp h with h | h
        · exact .inr (by simp [h])
        · exact (ih h).imp id (List.mem_cons_of_mem _)

/-- A write of one byte keeps the canonical form. -/
theorem Memory.write_wf {m : Memory} (h : m.wf) (a : Nat) (b : Byte) : (m.write a b).wf := by
  induction m with
  | nil => simp [Memory.write, Memory.wf]
  | cons c m ih =>
    have hc := List.pairwise_cons.mp h
    simp only [Memory.write]
    split
    · rename_i hlt
      refine List.pairwise_cons.mpr ⟨fun d hd => ?_, h⟩
      rcases List.mem_cons.mp hd with rfl | hd
      · exact hlt
      · exact lt_trans hlt (hc.1 d hd)
    · split
      · rename_i heq
        exact List.pairwise_cons.mpr ⟨fun d hd => by simpa [heq] using hc.1 d hd, hc.2⟩
      · refine List.pairwise_cons.mpr ⟨fun d hd => ?_, ih hc.2⟩
        rcases Memory.mem_write hd with hd | hd
        · omega
        · exact hc.1 d hd

/-- A write of a byte string keeps the canonical form. -/
theorem Memory.writeBytes_wf {m : Memory} (h : m.wf) (a : Nat) (bs : List Byte) : (m.writeBytes a bs).wf := by
  induction bs generalizing m a with
  | nil => exact h
  | cons b bs ih => exact ih (Memory.write_wf h a b) (a + 1)

/-- The offsets that are listed after a byte string was written. -/
theorem Memory.mem_writeBytes {m : Memory} {a : Nat} {bs : List Byte} {c : Host.Cell}
    (h : c ∈ m.writeBytes a bs) : (a ≤ c.1 ∧ c.1 < a + bs.length) ∨ c ∈ m := by
  induction bs generalizing m a with
  | nil => exact .inr h
  | cons b bs ih =>
    rcases ih (m := m.write a b) (a := a + 1) h with h | h
    · exact .inl (by simp only [List.length_cons]; omega)
    · rcases Memory.mem_write h with h | h
      · exact .inl (by simp only [List.length_cons]; omega)
      · exact .inr h

/-- What a byte of BUF reads as after a byte string was written (R73). -/
theorem Memory.read_writeBytes (m : Memory) (a x : Nat) (bs : List Byte) :
    (m.writeBytes a bs).read x = if h : a ≤ x ∧ x < a + bs.length then some (bs[x - a]'(by omega)) else m.read x := by
  induction bs generalizing m a with
  | nil =>
    simp [Memory.writeBytes]
  | cons b bs ih =>
    simp only [Memory.writeBytes, ih, Memory.read_write, List.length_cons]
    by_cases h1 : a + 1 ≤ x ∧ x < a + 1 + bs.length
    · have h2 : a ≤ x ∧ x < a + (bs.length + 1) := by omega
      obtain ⟨k, hk⟩ : ∃ k, x - a = k + 1 := ⟨x - a - 1, by omega⟩
      have hk' : x - (a + 1) = k := by omega
      simp [h1, h2, hk, hk']
    · by_cases h3 : x = a
      · subst h3; simp
      · have h2 : ¬(a ≤ x ∧ x < a + (bs.length + 1)) := by omega
        rw [dif_neg h1, dif_neg h2, if_neg h3]

/-- A written byte string leaves every byte outside it. -/
theorem Memory.read_writeBytes_outside (m : Memory) (a x : Nat) (bs : List Byte)
    (h : ¬(a ≤ x ∧ x < a + bs.length)) : (m.writeBytes a bs).read x = m.read x := by
  simp [Memory.read_writeBytes, h]

/-- A byte string that was written stands where it was written. -/
theorem Memory.bytesAt_writeBytes (m : Memory) (a : Nat) (bs : List Byte) : BytesAt (m.writeBytes a bs) a bs := by
  intro j hj
  have : a ≤ a + j ∧ a + j < a + bs.length := by omega
  simp [Memory.read_writeBytes, this]

/-- What `MemRead` answers when every byte of the region is written (R72). -/
theorem Memory.readBytes_ok {m : Memory} {a n : Nat} {bs : List Byte} (h : m.readBytes a n = .ok bs) :
    bs.length = n ∧ BytesAt m a bs := by
  induction n generalizing a bs with
  | zero =>
    simp only [Memory.readBytes, Except.ok.injEq] at h
    subst h
    exact ⟨rfl, fun j hj => absurd hj (by simp)⟩
  | succ n ih =>
    simp only [Memory.readBytes] at h
    split at h
    · cases h
    · rename_i b hb
      split at h
      · cases h
      · rename_i cs hcs
        cases h
        obtain ⟨hl, hat⟩ := ih hcs
        refine ⟨by simp [hl], fun j hj => ?_⟩
        cases j with
        | zero => simpa using hb
        | succ j =>
          have := hat j (by simpa using hj)
          simpa [Nat.add_assoc, Nat.add_comm 1 j] using this

/-- `MemRead` of a region whose bytes are `bs` answers `bs`. -/
theorem Memory.readBytes_of_bytesAt {m : Memory} {a : Nat} {bs : List Byte} (h : BytesAt m a bs) :
    m.readBytes a bs.length = .ok bs := by
  induction bs generalizing a with
  | nil => rfl
  | cons b bs ih =>
    have h0 := h 0 (by simp)
    have ht : BytesAt m (a + 1) bs := fun j hj => by
      have := h (j + 1) (by simpa using hj)
      simpa [Nat.add_assoc, Nat.add_comm 1 j] using this
    simp only [Nat.add_zero, List.getElem_cons_zero] at h0
    simp [Memory.readBytes, h0, ih ht]

/-- `MemRead` that fails names an unwritten byte of its region, and no byte before it is unwritten. -/
theorem Memory.readBytes_error {m : Memory} {a n e : Nat} (h : m.readBytes a n = .error e) :
    (a ≤ e ∧ e < a + n) ∧ m.read e = none ∧ ∀ x, a ≤ x → x < e → m.read x ≠ none := by
  induction n generalizing a with
  | zero => simp [Memory.readBytes] at h
  | succ n ih =>
    simp only [Memory.readBytes] at h
    split at h
    · rename_i hb
      cases h
      exact ⟨by omega, hb, fun x h1 h2 => absurd h1 (by omega)⟩
    · rename_i b hb
      split at h
      · rename_i e' he
        cases h
        obtain ⟨h1, h2, h3⟩ := ih he
        refine ⟨by omega, h2, fun x hx hxe => ?_⟩
        rcases Nat.eq_or_lt_of_le hx with rfl | hx
        · simp [hb]
        · exact h3 x hx hxe
      · cases h

/-- Reset BUF is in canonical form. -/
theorem reset_buf_wf : State.reset.buf.wf := by decide

/-- Two buffers in canonical form that read alike are the same list. -/
theorem Memory.eq_of_read_eq {m m' : Memory} (h : m.wf) (h' : m'.wf) (hr : ∀ a, m.read a = m'.read a) : m = m' := by
  have above : ∀ {m : Memory} {a : Nat}, (∀ c ∈ m, a < c.1) → m.read a = none := by
    intro m a hm
    induction m with
    | nil => rfl
    | cons c m ih =>
      have := hm c (by simp)
      simp only [Memory.read]
      rw [if_neg (by omega)]
      exact ih fun d hd => hm d (by simp [hd])
  induction m generalizing m' with
  | nil =>
    cases m' with
    | nil => rfl
    | cons c m' => exact absurd (hr c.1) (by simp [Memory.read])
  | cons c m ih =>
    have hc := List.pairwise_cons.mp h
    cases m' with
    | nil => exact absurd (hr c.1) (by simp [Memory.read])
    | cons d m' =>
      have hd := List.pairwise_cons.mp h'
      have hcd : c.1 = d.1 := by
        rcases Nat.lt_trichotomy c.1 d.1 with hlt | heq | hlt
        · have h1 := hr c.1
          rw [above (m := d :: m') (fun e he => by
            rcases List.mem_cons.mp he with rfl | he
            · exact hlt
            · exact lt_trans hlt (hd.1 e he))] at h1
          simp [Memory.read] at h1
        · exact heq
        · have h1 := hr d.1
          rw [above (m := c :: m) (fun e he => by
            rcases List.mem_cons.mp he with rfl | he
            · exact hlt
            · exact lt_trans hlt (hc.1 e he))] at h1
          simp [Memory.read] at h1
      have hv : c.2 = d.2 := by simpa [Memory.read, hcd] using hr c.1
      have hce : c = d := Prod.ext hcd hv
      subst hce
      congr 1
      refine ih hc.2 hd.2 fun a => ?_
      by_cases ha : c.1 = a
      · subst ha; rw [above hc.1, above hd.1]
      · simpa [Memory.read, ha] using hr a

end Sys2Proof.Machine
end

