-- ==== Sys2Proof/Laws/State.lean ====
section
/-! SUPPORT. What each named update of the state leaves in each field. -/

namespace Sys2Proof.Machine

@[simp] theorem complete_fr (s : State) : (complete s).fr = s.fr := rfl
@[simp] theorem complete_h (s : State) : (complete s).h = s.h := rfl
@[simp] theorem complete_y (s : State) : (complete s).y = s.y := rfl
@[simp] theorem complete_l (s : State) : (complete s).l = s.l := rfl
@[simp] theorem complete_ready (s : State) : (complete s).ready = s.ready := rfl
@[simp] theorem complete_cache (s : State) : (complete s).cache = s.cache := rfl
@[simp] theorem complete_scratch (s : State) : (complete s).scratch = s.scratch := rfl
@[simp] theorem complete_buf (s : State) : (complete s).buf = s.buf := rfl
@[simp] theorem complete_arg (s : State) : (complete s).arg = s.arg := rfl
@[simp] theorem complete_irqEn (s : State) : (complete s).irqEn = s.irqEn := rfl
@[simp] theorem complete_status (s : State) : (complete s).status = ⟨false, true, s.status.err, s.status.overrun, .noError, s.status.firstErr⟩ := rfl
@[simp] theorem complete_curCmd (s : State) : (complete s).curCmd = s.curCmd := rfl
@[simp] theorem complete_curArg (s : State) : (complete s).curArg = s.curArg := rfl
@[simp] theorem complete_port (s : State) : (complete s).port = s.port := rfl
@[simp] theorem complete_bufSel (s : State) : (complete s).bufSel = s.bufSel := rfl
@[simp] theorem complete_inputs (s : State) : (complete s).inputs = s.inputs := rfl
@[simp] theorem complete_agenda (s : State) : (complete s).agenda = s.agenda := rfl
@[simp] theorem complete_busOut (s : State) : (complete s).busOut = s.busOut := rfl
@[simp] theorem complete_bcLog (s : State) : (complete s).bcLog = s.bcLog := rfl
@[simp] theorem complete_draws (s : State) : (complete s).draws = s.draws := rfl

@[simp] theorem raiseError_fr (c : ErrCode) (s : State) : (raiseError c s).fr = s.fr := rfl
@[simp] theorem raiseError_h (c : ErrCode) (s : State) : (raiseError c s).h = s.h := rfl
@[simp] theorem raiseError_y (c : ErrCode) (s : State) : (raiseError c s).y = s.y := rfl
@[simp] theorem raiseError_l (c : ErrCode) (s : State) : (raiseError c s).l = s.l := rfl
@[simp] theorem raiseError_ready (c : ErrCode) (s : State) : (raiseError c s).ready = s.ready := rfl
@[simp] theorem raiseError_cache (c : ErrCode) (s : State) : (raiseError c s).cache = s.cache := rfl
@[simp] theorem raiseError_scratch (c : ErrCode) (s : State) : (raiseError c s).scratch = s.scratch := rfl
@[simp] theorem raiseError_buf (c : ErrCode) (s : State) : (raiseError c s).buf = s.buf := rfl
@[simp] theorem raiseError_arg (c : ErrCode) (s : State) : (raiseError c s).arg = s.arg := rfl
@[simp] theorem raiseError_irqEn (c : ErrCode) (s : State) : (raiseError c s).irqEn = s.irqEn := rfl
@[simp] theorem raiseError_status (c : ErrCode) (s : State) : (raiseError c s).status = ⟨false, true, true, s.status.overrun, c, if s.status.err then s.status.firstErr else c⟩ := rfl
@[simp] theorem raiseError_curCmd (c : ErrCode) (s : State) : (raiseError c s).curCmd = s.curCmd := rfl
@[simp] theorem raiseError_curArg (c : ErrCode) (s : State) : (raiseError c s).curArg = s.curArg := rfl
@[simp] theorem raiseError_port (c : ErrCode) (s : State) : (raiseError c s).port = s.port := rfl
@[simp] theorem raiseError_bufSel (c : ErrCode) (s : State) : (raiseError c s).bufSel = s.bufSel := rfl
@[simp] theorem raiseError_inputs (c : ErrCode) (s : State) : (raiseError c s).inputs = s.inputs := rfl
@[simp] theorem raiseError_agenda (c : ErrCode) (s : State) : (raiseError c s).agenda = s.agenda := rfl
@[simp] theorem raiseError_busOut (c : ErrCode) (s : State) : (raiseError c s).busOut = s.busOut := rfl
@[simp] theorem raiseError_bcLog (c : ErrCode) (s : State) : (raiseError c s).bcLog = s.bcLog := rfl
@[simp] theorem raiseError_draws (c : ErrCode) (s : State) : (raiseError c s).draws = s.draws := rfl

@[simp] theorem accept_fr (w : Word) (s : State) : (accept w s).fr = s.fr := rfl
@[simp] theorem accept_h (w : Word) (s : State) : (accept w s).h = s.h := rfl
@[simp] theorem accept_y (w : Word) (s : State) : (accept w s).y = s.y := rfl
@[simp] theorem accept_l (w : Word) (s : State) : (accept w s).l = s.l := rfl
@[simp] theorem accept_ready (w : Word) (s : State) : (accept w s).ready = s.ready := rfl
@[simp] theorem accept_cache (w : Word) (s : State) : (accept w s).cache = s.cache := rfl
@[simp] theorem accept_scratch (w : Word) (s : State) : (accept w s).scratch = s.scratch := rfl
@[simp] theorem accept_buf (w : Word) (s : State) : (accept w s).buf = s.buf := rfl
@[simp] theorem accept_arg (w : Word) (s : State) : (accept w s).arg = s.arg := rfl
@[simp] theorem accept_irqEn (w : Word) (s : State) : (accept w s).irqEn = s.irqEn := rfl
@[simp] theorem accept_status (w : Word) (s : State) : (accept w s).status = ⟨true, false, s.status.err, s.status.overrun, s.status.errCode, s.status.firstErr⟩ := rfl
@[simp] theorem accept_curCmd (w : Word) (s : State) : (accept w s).curCmd = w := rfl
@[simp] theorem accept_curArg (w : Word) (s : State) : (accept w s).curArg = s.arg := rfl
@[simp] theorem accept_port (w : Word) (s : State) : (accept w s).port = s.port := rfl
@[simp] theorem accept_bufSel (w : Word) (s : State) : (accept w s).bufSel = s.bufSel := rfl
@[simp] theorem accept_inputs (w : Word) (s : State) : (accept w s).inputs = s.inputs := rfl
@[simp] theorem accept_agenda (w : Word) (s : State) : (accept w s).agenda = s.agenda := rfl
@[simp] theorem accept_busOut (w : Word) (s : State) : (accept w s).busOut = s.busOut := rfl
@[simp] theorem accept_bcLog (w : Word) (s : State) : (accept w s).bcLog = s.bcLog := rfl
@[simp] theorem accept_draws (w : Word) (s : State) : (accept w s).draws = s.draws := rfl

@[simp] theorem acknowledge_fr (w : Word) (s : State) : (acknowledge w s).fr = s.fr := rfl
@[simp] theorem acknowledge_h (w : Word) (s : State) : (acknowledge w s).h = s.h := rfl
@[simp] theorem acknowledge_y (w : Word) (s : State) : (acknowledge w s).y = s.y := rfl
@[simp] theorem acknowledge_l (w : Word) (s : State) : (acknowledge w s).l = s.l := rfl
@[simp] theorem acknowledge_ready (w : Word) (s : State) : (acknowledge w s).ready = s.ready := rfl
@[simp] theorem acknowledge_cache (w : Word) (s : State) : (acknowledge w s).cache = s.cache := rfl
@[simp] theorem acknowledge_scratch (w : Word) (s : State) : (acknowledge w s).scratch = s.scratch := rfl
@[simp] theorem acknowledge_buf (w : Word) (s : State) : (acknowledge w s).buf = s.buf := rfl
@[simp] theorem acknowledge_arg (w : Word) (s : State) : (acknowledge w s).arg = s.arg := rfl
@[simp] theorem acknowledge_irqEn (w : Word) (s : State) : (acknowledge w s).irqEn = s.irqEn := rfl
@[simp] theorem acknowledge_status (w : Word) (s : State) : (acknowledge w s).status = s.status.clearedBy w := rfl
@[simp] theorem acknowledge_curCmd (w : Word) (s : State) : (acknowledge w s).curCmd = s.curCmd := rfl
@[simp] theorem acknowledge_curArg (w : Word) (s : State) : (acknowledge w s).curArg = s.curArg := rfl
@[simp] theorem acknowledge_port (w : Word) (s : State) : (acknowledge w s).port = s.port := rfl
@[simp] theorem acknowledge_bufSel (w : Word) (s : State) : (acknowledge w s).bufSel = s.bufSel := rfl
@[simp] theorem acknowledge_inputs (w : Word) (s : State) : (acknowledge w s).inputs = s.inputs := rfl
@[simp] theorem acknowledge_agenda (w : Word) (s : State) : (acknowledge w s).agenda = s.agenda := rfl
@[simp] theorem acknowledge_busOut (w : Word) (s : State) : (acknowledge w s).busOut = s.busOut := rfl
@[simp] theorem acknowledge_bcLog (w : Word) (s : State) : (acknowledge w s).bcLog = s.bcLog := rfl
@[simp] theorem acknowledge_draws (w : Word) (s : State) : (acknowledge w s).draws = s.draws := rfl

@[simp] theorem leaveScratch_fr (s : State) : (leaveScratch s).fr = s.fr := rfl
@[simp] theorem leaveScratch_h (s : State) : (leaveScratch s).h = s.h := rfl
@[simp] theorem leaveScratch_y (s : State) : (leaveScratch s).y = s.y := rfl
@[simp] theorem leaveScratch_l (s : State) : (leaveScratch s).l = s.l := rfl
@[simp] theorem leaveScratch_ready (s : State) : (leaveScratch s).ready = s.ready := rfl
@[simp] theorem leaveScratch_cache (s : State) : (leaveScratch s).cache = s.cache := rfl
@[simp] theorem leaveScratch_scratch (s : State) : (leaveScratch s).scratch = freeScratch s.draws := rfl
@[simp] theorem leaveScratch_buf (s : State) : (leaveScratch s).buf = s.buf := rfl
@[simp] theorem leaveScratch_arg (s : State) : (leaveScratch s).arg = s.arg := rfl
@[simp] theorem leaveScratch_irqEn (s : State) : (leaveScratch s).irqEn = s.irqEn := rfl
@[simp] theorem leaveScratch_status (s : State) : (leaveScratch s).status = s.status := rfl
@[simp] theorem leaveScratch_curCmd (s : State) : (leaveScratch s).curCmd = s.curCmd := rfl
@[simp] theorem leaveScratch_curArg (s : State) : (leaveScratch s).curArg = s.curArg := rfl
@[simp] theorem leaveScratch_port (s : State) : (leaveScratch s).port = s.port := rfl
@[simp] theorem leaveScratch_bufSel (s : State) : (leaveScratch s).bufSel = s.bufSel := rfl
@[simp] theorem leaveScratch_inputs (s : State) : (leaveScratch s).inputs = s.inputs := rfl
@[simp] theorem leaveScratch_agenda (s : State) : (leaveScratch s).agenda = s.agenda := rfl
@[simp] theorem leaveScratch_busOut (s : State) : (leaveScratch s).busOut = s.busOut := rfl
@[simp] theorem leaveScratch_bcLog (s : State) : (leaveScratch s).bcLog = s.bcLog := rfl
@[simp] theorem leaveScratch_draws (s : State) : (leaveScratch s).draws = s.draws + 1 := rfl

@[simp] theorem dropWrite_fr (s : State) : (dropWrite s).fr = s.fr := rfl
@[simp] theorem dropWrite_h (s : State) : (dropWrite s).h = s.h := rfl
@[simp] theorem dropWrite_y (s : State) : (dropWrite s).y = s.y := rfl
@[simp] theorem dropWrite_l (s : State) : (dropWrite s).l = s.l := rfl
@[simp] theorem dropWrite_ready (s : State) : (dropWrite s).ready = s.ready := rfl
@[simp] theorem dropWrite_cache (s : State) : (dropWrite s).cache = s.cache := rfl
@[simp] theorem dropWrite_scratch (s : State) : (dropWrite s).scratch = s.scratch := rfl
@[simp] theorem dropWrite_buf (s : State) : (dropWrite s).buf = s.buf := rfl
@[simp] theorem dropWrite_arg (s : State) : (dropWrite s).arg = s.arg := rfl
@[simp] theorem dropWrite_irqEn (s : State) : (dropWrite s).irqEn = s.irqEn := rfl
@[simp] theorem dropWrite_status (s : State) : (dropWrite s).status = ⟨s.status.busy, s.status.done, s.status.err, true, s.status.errCode, s.status.firstErr⟩ := rfl
@[simp] theorem dropWrite_curCmd (s : State) : (dropWrite s).curCmd = s.curCmd := rfl
@[simp] theorem dropWrite_curArg (s : State) : (dropWrite s).curArg = s.curArg := rfl
@[simp] theorem dropWrite_port (s : State) : (dropWrite s).port = s.port := rfl
@[simp] theorem dropWrite_bufSel (s : State) : (dropWrite s).bufSel = s.bufSel := rfl
@[simp] theorem dropWrite_inputs (s : State) : (dropWrite s).inputs = s.inputs := rfl
@[simp] theorem dropWrite_agenda (s : State) : (dropWrite s).agenda = s.agenda := rfl
@[simp] theorem dropWrite_busOut (s : State) : (dropWrite s).busOut = s.busOut := rfl
@[simp] theorem dropWrite_bcLog (s : State) : (dropWrite s).bcLog = s.bcLog := rfl
@[simp] theorem dropWrite_draws (s : State) : (dropWrite s).draws = s.draws := rfl

@[simp] theorem refuseAccess_fr (s : State) : (refuseAccess s).fr = s.fr := rfl
@[simp] theorem refuseAccess_h (s : State) : (refuseAccess s).h = s.h := rfl
@[simp] theorem refuseAccess_y (s : State) : (refuseAccess s).y = s.y := rfl
@[simp] theorem refuseAccess_l (s : State) : (refuseAccess s).l = s.l := rfl
@[simp] theorem refuseAccess_ready (s : State) : (refuseAccess s).ready = s.ready := rfl
@[simp] theorem refuseAccess_cache (s : State) : (refuseAccess s).cache = s.cache := rfl
@[simp] theorem refuseAccess_scratch (s : State) : (refuseAccess s).scratch = s.scratch := rfl
@[simp] theorem refuseAccess_buf (s : State) : (refuseAccess s).buf = s.buf := rfl
@[simp] theorem refuseAccess_arg (s : State) : (refuseAccess s).arg = s.arg := rfl
@[simp] theorem refuseAccess_irqEn (s : State) : (refuseAccess s).irqEn = s.irqEn := rfl
@[simp] theorem refuseAccess_status (s : State) : (refuseAccess s).status = s.status := rfl
@[simp] theorem refuseAccess_curCmd (s : State) : (refuseAccess s).curCmd = s.curCmd := rfl
@[simp] theorem refuseAccess_curArg (s : State) : (refuseAccess s).curArg = s.curArg := rfl
@[simp] theorem refuseAccess_port (s : State) : (refuseAccess s).port = s.port := rfl
@[simp] theorem refuseAccess_bufSel (s : State) : (refuseAccess s).bufSel = s.bufSel := rfl
@[simp] theorem refuseAccess_inputs (s : State) : (refuseAccess s).inputs = s.inputs := rfl
@[simp] theorem refuseAccess_agenda (s : State) : (refuseAccess s).agenda = s.agenda := rfl
@[simp] theorem refuseAccess_busOut (s : State) : (refuseAccess s).busOut = some .notAccepted := rfl
@[simp] theorem refuseAccess_bcLog (s : State) : (refuseAccess s).bcLog = s.bcLog := rfl
@[simp] theorem refuseAccess_draws (s : State) : (refuseAccess s).draws = s.draws := rfl

/-- Reading back a field register that was written. -/
@[simp] theorem FieldRegs.read_write_same (f : FieldRegs) (r : FReg) (v : Elem) : (f.write r v).read r = v := by
  cases r <;> rfl

/-- Writing a field register leaves the others. -/
theorem FieldRegs.read_write_other (f : FieldRegs) (r q : FReg) (v : Elem) (h : q ≠ r) :
    (f.write r v).read q = f.read q := by
  cases r <;> cases q <;> first | rfl | exact absurd rfl h

/-- Reading back an ARG register that was written. -/
@[simp] theorem Args.read_write_same (g : Args) (k : ArgReg) (v : Word) : (g.write k v).read k = v := by
  cases k <;> rfl

/-- Writing an ARG register leaves the others. -/
theorem Args.read_write_other (g : Args) (k q : ArgReg) (v : Word) (h : q ≠ k) :
    (g.write k v).read q = g.read q := by
  cases k <;> cases q <;> first | rfl | exact absurd rfl h

/-- Two sets of field registers that read alike are equal. -/
theorem FieldRegs.ext_read {f g : FieldRegs} (h : ∀ r, f.read r = g.read r) : f = g := by
  have h0 := h .f0
  have h1 := h .f1
  have h2 := h .f2
  have h3 := h .f3
  cases f
  cases g
  simp_all [FieldRegs.read]

@[simp] theorem transferRequest_fr (s : State) : (transferRequest s).fr = s.fr := rfl
@[simp] theorem transferRequest_h (s : State) : (transferRequest s).h = s.h := rfl
@[simp] theorem transferRequest_y (s : State) : (transferRequest s).y = s.y := rfl
@[simp] theorem transferRequest_l (s : State) : (transferRequest s).l = s.l := rfl
@[simp] theorem transferRequest_ready (s : State) : (transferRequest s).ready = s.ready := rfl
@[simp] theorem transferRequest_cache (s : State) : (transferRequest s).cache = s.cache := rfl
@[simp] theorem transferRequest_scratch (s : State) : (transferRequest s).scratch = s.scratch := rfl
@[simp] theorem transferRequest_buf (s : State) : (transferRequest s).buf = s.buf := rfl
@[simp] theorem transferRequest_arg (s : State) : (transferRequest s).arg = s.arg := rfl
@[simp] theorem transferRequest_irqEn (s : State) : (transferRequest s).irqEn = s.irqEn := rfl
@[simp] theorem transferRequest_status (s : State) : (transferRequest s).status = s.status := rfl
@[simp] theorem transferRequest_curCmd (s : State) : (transferRequest s).curCmd = s.curCmd := rfl
@[simp] theorem transferRequest_curArg (s : State) : (transferRequest s).curArg = s.curArg := rfl
@[simp] theorem transferRequest_port (s : State) : (transferRequest s).port = if mayRequest s then s.port.issue else s.port := rfl
@[simp] theorem transferRequest_bufSel (s : State) : (transferRequest s).bufSel = s.bufSel := rfl
@[simp] theorem transferRequest_inputs (s : State) : (transferRequest s).inputs = s.inputs := rfl
@[simp] theorem transferRequest_agenda (s : State) : (transferRequest s).agenda = s.agenda := rfl
@[simp] theorem transferRequest_busOut (s : State) : (transferRequest s).busOut = s.busOut := rfl
@[simp] theorem transferRequest_bcLog (s : State) : (transferRequest s).bcLog = s.bcLog := rfl
@[simp] theorem transferRequest_draws (s : State) : (transferRequest s).draws = s.draws := rfl

@[simp] theorem takeResponse_fr (s : State) : (takeResponse s).fr = s.fr := rfl
@[simp] theorem takeResponse_h (s : State) : (takeResponse s).h = s.h := rfl
@[simp] theorem takeResponse_y (s : State) : (takeResponse s).y = s.y := rfl
@[simp] theorem takeResponse_l (s : State) : (takeResponse s).l = s.l := rfl
@[simp] theorem takeResponse_ready (s : State) : (takeResponse s).ready = s.ready := rfl
@[simp] theorem takeResponse_cache (s : State) : (takeResponse s).cache = s.cache := rfl
@[simp] theorem takeResponse_scratch (s : State) : (takeResponse s).scratch = s.scratch := rfl
@[simp] theorem takeResponse_buf (s : State) : (takeResponse s).buf = s.buf := rfl
@[simp] theorem takeResponse_arg (s : State) : (takeResponse s).arg = s.arg := rfl
@[simp] theorem takeResponse_irqEn (s : State) : (takeResponse s).irqEn = s.irqEn := rfl
@[simp] theorem takeResponse_status (s : State) : (takeResponse s).status = s.status := rfl
@[simp] theorem takeResponse_curCmd (s : State) : (takeResponse s).curCmd = s.curCmd := rfl
@[simp] theorem takeResponse_curArg (s : State) : (takeResponse s).curArg = s.curArg := rfl
@[simp] theorem takeResponse_port (s : State) : (takeResponse s).port = s.port.answer := rfl
@[simp] theorem takeResponse_bufSel (s : State) : (takeResponse s).bufSel = s.bufSel := rfl
@[simp] theorem takeResponse_inputs (s : State) : (takeResponse s).inputs = s.inputs := rfl
@[simp] theorem takeResponse_agenda (s : State) : (takeResponse s).agenda = s.agenda := rfl
@[simp] theorem takeResponse_busOut (s : State) : (takeResponse s).busOut = s.busOut := rfl
@[simp] theorem takeResponse_bcLog (s : State) : (takeResponse s).bcLog = s.bcLog := rfl
@[simp] theorem takeResponse_draws (s : State) : (takeResponse s).draws = s.draws := rfl

end Sys2Proof.Machine
end

