-- ==== Sys2Proof/Laws/Ops.lean ====
section
/-! SUPPORT. What each shared operation can do, said once. -/

namespace Sys2Proof.Machine

/-- A completion keeps the sticky fields and clears ERRCODE (R244). -/
theorem complete_completed (s : State) : Completed s (complete s) := rfl

/-- An error completion is as R245 says. -/
theorem raiseError_failed (c : ErrCode) (s : State) : Failed c s (raiseError c s) := rfl

/-- An error completion changes STATUS and nothing else (R260). -/
theorem raiseError_only_status (c : ErrCode) (s : State) :
    { raiseError c s with status := s.status } = s := rfl

/-- A command that reads bytes that are all written goes on with them. -/
theorem readBuf_of_bytesAt {s : State} {a n : Word} {bs : List Byte} {k : List Byte → Result}
    (hl : bs.length = n.toNat) (h : BytesAt s.buf a.toNat bs) : readBuf s a n k = k bs := by
  simp [readBuf, ← hl, Memory.readBytes_of_bytesAt h]

/-- A read of BUF goes on with the bytes of its region, or faults at its first unwritten byte. -/
theorem readBuf_cases (s : State) (a n : Word) (k : List Byte → Result) :
    (∃ bs, bs.length = n.toNat ∧ BytesAt s.buf a.toNat bs ∧ readBuf s a n k = k bs) ∨
      (∃ e, (a.toNat ≤ e ∧ e < a.toNat + n.toNat) ∧ s.buf.read e = none ∧
        readBuf s a n k = .fault (.unwrittenRead e)) := by
  simp only [readBuf]
  cases h : s.buf.readBytes a.toNat n.toNat with
  | ok bs =>
    obtain ⟨hl, hat⟩ := Memory.readBytes_ok h
    exact .inl ⟨bs, hl, hat, rfl⟩
  | error e =>
    obtain ⟨h1, h2, _⟩ := Memory.readBytes_error h
    exact .inr ⟨e, h1, h2, rfl⟩

/-- A command whose exchanges are answered takes its state. -/
theorem exchange_answered {log : List BcExchange} {s after : State}
    (h : s.inputs.bcAnswers = true ∨ log.length ≤ s.port.answered) :
    exchange log s after = .next { after with bcLog := s.bcLog ++ log, port := Port.idle } := by
  simp [exchange, h]

/-- A command with an exchange that is not answered waits as it is while the block cipher does not answer (R305). -/
theorem exchange_silent {log : List BcExchange} {s after : State} (h : s.inputs.bcAnswers = false)
    (hl : s.port.answered < log.length) : exchange log s after = .next s := by
  simp [exchange, h, hl]

/-- A command with exchanges to make takes its state, or waits where some are not answered and the block cipher does not
answer (R305). -/
theorem exchange_cases (log : List BcExchange) (s after : State) :
    ((s.inputs.bcAnswers = true ∨ log.length ≤ s.port.answered) ∧
        exchange log s after = .next { after with bcLog := s.bcLog ++ log, port := Port.idle }) ∨
      (s.inputs.bcAnswers = false ∧ s.port.answered < log.length ∧ exchange log s after = .next s) := by
  cases hb : s.inputs.bcAnswers with
  | true => exact .inl ⟨.inl rfl, by simp [exchange, hb]⟩
  | false =>
    rcases Nat.lt_or_ge s.port.answered log.length with h | h
    · exact .inr ⟨rfl, h, by simp [exchange, hb, h]⟩
    · exact .inl ⟨.inr h, by simp [exchange, h]⟩

/-- All that an event at the port does: one more request is outstanding, where the core has one to make (R84, R86). -/
theorem transferRequest_cases (s : State) :
    (mayRequest s = true ∧ transferRequest s = { s with port := ⟨s.port.answered, s.port.outstanding + 1⟩ }) ∨
      (mayRequest s = false ∧ transferRequest s = s) := by
  cases h : mayRequest s with
  | true => exact .inl ⟨rfl, by simp [transferRequest, h, Port.issue]⟩
  | false => exact .inr ⟨rfl, by simp [transferRequest, h]⟩

/-- All that a response does: it answers one outstanding request, where there is one (R84, R292). -/
theorem takeResponse_cases (s : State) :
    (0 < s.port.outstanding ∧
        takeResponse s = { s with port := ⟨s.port.answered + 1, s.port.outstanding - 1⟩ }) ∨
      (s.port.outstanding = 0 ∧ takeResponse s = s) := by
  rcases Nat.eq_zero_or_pos s.port.outstanding with h | h
  · exact .inr ⟨h, by simp [takeResponse, Port.answer, h]⟩
  · exact .inl ⟨h, by simp [takeResponse, Port.answer, Nat.ne_of_gt h]⟩

/-- What lets a core transfer a request (R84 to R86). -/
theorem mayRequest_iff (s : State) :
    mayRequest s = true ↔ s.status.busy = true ∧ s.inputs.rst = false ∧ ∃ i, decode s.curCmd = .ok i ∧
      s.port.answered + s.port.outstanding < requestCount s i ∧ s.port.outstanding < requestWindow s i := by
  unfold mayRequest fetchWord
  cases decode s.curCmd <;> simp [and_assoc]

/-- The window never exceeds four requests (R85). -/
theorem requestWindow_le (s : State) (i : Instr) : requestWindow s i ≤ 4 := by
  cases i <;> simp only [requestWindow, xctrLanes] <;> repeat' split
  all_goals omega

/-- The check of `hctr2.init` fails with BLOCK_SIZE alone, where no request has been transferred (R180). -/
theorem initCheck_cases (s : State) :
    (s.port = Port.idle ∧ s.inputs.bcBlockSize ≠ 16 ∧ initCheck s = some .blockSize) ∨
      ((s.port ≠ Port.idle ∨ s.inputs.bcBlockSize = 16) ∧ initCheck s = none) := by
  unfold initCheck
  split
  · rename_i h; exact .inl ⟨h.1, h.2, rfl⟩
  · rename_i h
    refine .inr ⟨?_, rfl⟩
    by_cases hp : s.port = Port.idle
    · exact .inr (by simpa [hp] using h)
    · exact .inl hp

/-- The state of a successful `xctr` with the source bytes `bs`, before its exchanges are recorded. -/
def xctrAfter (rs1 : FReg) (bs : List Byte) (s : State) : State :=
  complete (leaveScratch
    { s with buf := s.buf.writeBytes s.curArg.dst.toNat (xctrBytes (ek s) (s.fr.read rs1) bs) })

@[simp] theorem xctrAfter_fr (rs1 : FReg) (bs : List Byte) (s : State) :
    (xctrAfter rs1 bs s).fr = s.fr := rfl
@[simp] theorem xctrAfter_h (rs1 : FReg) (bs : List Byte) (s : State) :
    (xctrAfter rs1 bs s).h = s.h := rfl
@[simp] theorem xctrAfter_y (rs1 : FReg) (bs : List Byte) (s : State) :
    (xctrAfter rs1 bs s).y = s.y := rfl
@[simp] theorem xctrAfter_l (rs1 : FReg) (bs : List Byte) (s : State) :
    (xctrAfter rs1 bs s).l = s.l := rfl
@[simp] theorem xctrAfter_ready (rs1 : FReg) (bs : List Byte) (s : State) :
    (xctrAfter rs1 bs s).ready = s.ready := rfl
@[simp] theorem xctrAfter_cache (rs1 : FReg) (bs : List Byte) (s : State) :
    (xctrAfter rs1 bs s).cache = s.cache := rfl
@[simp] theorem xctrAfter_buf (rs1 : FReg) (bs : List Byte) (s : State) :
    (xctrAfter rs1 bs s).buf = s.buf.writeBytes s.curArg.dst.toNat (xctrBytes (ek s) (s.fr.read rs1) bs) := rfl
@[simp] theorem xctrAfter_arg (rs1 : FReg) (bs : List Byte) (s : State) :
    (xctrAfter rs1 bs s).arg = s.arg := rfl
@[simp] theorem xctrAfter_irqEn (rs1 : FReg) (bs : List Byte) (s : State) :
    (xctrAfter rs1 bs s).irqEn = s.irqEn := rfl
@[simp] theorem xctrAfter_status (rs1 : FReg) (bs : List Byte) (s : State) :
    (xctrAfter rs1 bs s).status = ⟨false, true, s.status.err, s.status.overrun, .noError, s.status.firstErr⟩ := rfl
@[simp] theorem xctrAfter_curCmd (rs1 : FReg) (bs : List Byte) (s : State) :
    (xctrAfter rs1 bs s).curCmd = s.curCmd := rfl
@[simp] theorem xctrAfter_curArg (rs1 : FReg) (bs : List Byte) (s : State) :
    (xctrAfter rs1 bs s).curArg = s.curArg := rfl
@[simp] theorem xctrAfter_port (rs1 : FReg) (bs : List Byte) (s : State) :
    (xctrAfter rs1 bs s).port = s.port := rfl
@[simp] theorem xctrAfter_bufSel (rs1 : FReg) (bs : List Byte) (s : State) :
    (xctrAfter rs1 bs s).bufSel = s.bufSel := rfl
@[simp] theorem xctrAfter_inputs (rs1 : FReg) (bs : List Byte) (s : State) :
    (xctrAfter rs1 bs s).inputs = s.inputs := rfl
@[simp] theorem xctrAfter_agenda (rs1 : FReg) (bs : List Byte) (s : State) :
    (xctrAfter rs1 bs s).agenda = s.agenda := rfl
@[simp] theorem xctrAfter_busOut (rs1 : FReg) (bs : List Byte) (s : State) :
    (xctrAfter rs1 bs s).busOut = s.busOut := rfl
@[simp] theorem xctrAfter_bcLog (rs1 : FReg) (bs : List Byte) (s : State) :
    (xctrAfter rs1 bs s).bcLog = s.bcLog := rfl

/-- All that `xctr` can do: an error, a fault at an unwritten source byte, or its exchanges (R224). -/
theorem execXctr_cases (rs1 : FReg) (s : State) :
    (∃ c, xctrCheck s = some c ∧ execXctr rs1 s = .next (raiseError c s)) ∨
      (xctrCheck s = none ∧ ∃ e, (s.curArg.src.toNat ≤ e ∧ e < s.curArg.src.toNat + s.curArg.len.toNat) ∧
        s.buf.read e = none ∧ execXctr rs1 s = .fault (.unwrittenRead e)) ∨
      (xctrCheck s = none ∧ ∃ bs, bs.length = s.curArg.len.toNat ∧ BytesAt s.buf s.curArg.src.toNat bs ∧
        execXctr rs1 s =
          exchange (keystreamLog (ek s) (s.fr.read rs1) bs.length) s (xctrAfter rs1 bs s)) := by
  cases hc : xctrCheck s with
  | some c => exact .inl ⟨c, rfl, by simp [execXctr, hc]⟩
  | none =>
    have hx : execXctr rs1 s = readBuf s s.curArg.src s.curArg.len fun bs =>
        exchange (keystreamLog (ek s) (s.fr.read rs1) bs.length) s (xctrAfter rs1 bs s) := by
      simp only [execXctr, hc, xctrAfter]
    refine .inr ?_
    rcases readBuf_cases s s.curArg.src s.curArg.len fun bs =>
      exchange (keystreamLog (ek s) (s.fr.read rs1) bs.length) s (xctrAfter rs1 bs s) with
      ⟨bs, hl, hat, h⟩ | ⟨e, hr, hn, h⟩
    · exact .inr ⟨rfl, bs, hl, hat, hx.trans h⟩
    · exact .inl ⟨rfl, e, hr, hn, hx.trans h⟩

/-- What the nine steps give in direction `dir` for the source `p` and the tweak `t`, from the cache as the command
leaves it. -/
def hctr2Of (dir : BcDir) (p t : List Byte) (s : State) : Hctr2Out :=
  hctr2Core (ek s) (dk s) dir s.h s.l
    ((cacheState s.cache s.h s.curArg.tlen).snap (alignBit (p.length - 16))) p t

/-- The state of a successful cipher command, before its exchanges are recorded. -/
def hctr2After (dir : BcDir) (p t : List Byte) (s : State) : State :=
  complete (leaveScratch
    { s with
      y := (hctr2Of dir p t s).y
      cache := cacheState s.cache s.h s.curArg.tlen
      buf := s.buf.writeBytes s.curArg.dst.toNat (hctr2Of dir p t s).bytes })

@[simp] theorem hctr2After_fr (dir : BcDir) (p t : List Byte) (s : State) :
    (hctr2After dir p t s).fr = s.fr := rfl
@[simp] theorem hctr2After_h (dir : BcDir) (p t : List Byte) (s : State) :
    (hctr2After dir p t s).h = s.h := rfl
@[simp] theorem hctr2After_y (dir : BcDir) (p t : List Byte) (s : State) :
    (hctr2After dir p t s).y = (hctr2Of dir p t s).y := by
  simp [hctr2After]
@[simp] theorem hctr2After_l (dir : BcDir) (p t : List Byte) (s : State) :
    (hctr2After dir p t s).l = s.l := rfl
@[simp] theorem hctr2After_ready (dir : BcDir) (p t : List Byte) (s : State) :
    (hctr2After dir p t s).ready = s.ready := rfl
@[simp] theorem hctr2After_cache (dir : BcDir) (p t : List Byte) (s : State) :
    (hctr2After dir p t s).cache = cacheState s.cache s.h s.curArg.tlen := by
  simp [hctr2After]
@[simp] theorem hctr2After_buf (dir : BcDir) (p t : List Byte) (s : State) :
    (hctr2After dir p t s).buf = s.buf.writeBytes s.curArg.dst.toNat (hctr2Of dir p t s).bytes := by
  simp [hctr2After]
@[simp] theorem hctr2After_arg (dir : BcDir) (p t : List Byte) (s : State) :
    (hctr2After dir p t s).arg = s.arg := rfl
@[simp] theorem hctr2After_irqEn (dir : BcDir) (p t : List Byte) (s : State) :
    (hctr2After dir p t s).irqEn = s.irqEn := rfl
@[simp] theorem hctr2After_status (dir : BcDir) (p t : List Byte) (s : State) :
    (hctr2After dir p t s).status = ⟨false, true, s.status.err, s.status.overrun, .noError, s.status.firstErr⟩ := rfl
@[simp] theorem hctr2After_curCmd (dir : BcDir) (p t : List Byte) (s : State) :
    (hctr2After dir p t s).curCmd = s.curCmd := rfl
@[simp] theorem hctr2After_curArg (dir : BcDir) (p t : List Byte) (s : State) :
    (hctr2After dir p t s).curArg = s.curArg := rfl
@[simp] theorem hctr2After_port (dir : BcDir) (p t : List Byte) (s : State) :
    (hctr2After dir p t s).port = s.port := rfl
@[simp] theorem hctr2After_bufSel (dir : BcDir) (p t : List Byte) (s : State) :
    (hctr2After dir p t s).bufSel = s.bufSel := rfl
@[simp] theorem hctr2After_inputs (dir : BcDir) (p t : List Byte) (s : State) :
    (hctr2After dir p t s).inputs = s.inputs := rfl
@[simp] theorem hctr2After_agenda (dir : BcDir) (p t : List Byte) (s : State) :
    (hctr2After dir p t s).agenda = s.agenda := rfl
@[simp] theorem hctr2After_busOut (dir : BcDir) (p t : List Byte) (s : State) :
    (hctr2After dir p t s).busOut = s.busOut := rfl
@[simp] theorem hctr2After_bcLog (dir : BcDir) (p t : List Byte) (s : State) :
    (hctr2After dir p t s).bcLog = s.bcLog := rfl

/-- All that a cipher command can do: an error, a fault at an unwritten source or tweak byte, or its exchanges (R187,
R190). -/
theorem hctr2Run_cases (dir : BcDir) (s : State) :
    (∃ c, cipherCheck s = some c ∧ hctr2Run dir s = .next (raiseError c s)) ∨
      (cipherCheck s = none ∧ ∃ e,
        ((s.curArg.src.toNat ≤ e ∧ e < s.curArg.src.toNat + s.curArg.len.toNat) ∨
          (s.curArg.twk.toNat ≤ e ∧ e < s.curArg.twk.toNat + s.curArg.tlen.toNat)) ∧
        s.buf.read e = none ∧ hctr2Run dir s = .fault (.unwrittenRead e)) ∨
      (cipherCheck s = none ∧ ∃ p t, p.length = s.curArg.len.toNat ∧ BytesAt s.buf s.curArg.src.toNat p ∧
        t.length = s.curArg.tlen.toNat ∧ BytesAt s.buf s.curArg.twk.toNat t ∧
        hctr2Run dir s = exchange (hctr2Of dir p t s).log s (hctr2After dir p t s)) := by
  cases hc : cipherCheck s with
  | some c => exact .inl ⟨c, rfl, by simp [hctr2Run, hc]⟩
  | none =>
    have hx : hctr2Run dir s = readBuf s s.curArg.src s.curArg.len fun p =>
        readBuf s s.curArg.twk s.curArg.tlen fun t =>
          exchange (hctr2Of dir p t s).log s (hctr2After dir p t s) := by
      simp only [hctr2Run, hc, hctr2Of, hctr2After]
    refine .inr ?_
    rcases readBuf_cases s s.curArg.src s.curArg.len fun p =>
      readBuf s s.curArg.twk s.curArg.tlen fun t =>
        exchange (hctr2Of dir p t s).log s (hctr2After dir p t s) with ⟨p, hl, hat, h⟩ | ⟨e, hr, hn, h⟩
    · rcases readBuf_cases s s.curArg.twk s.curArg.tlen fun t =>
        exchange (hctr2Of dir p t s).log s (hctr2After dir p t s) with ⟨t, hl', hat', h'⟩ | ⟨e, hr, hn, h'⟩
      · exact .inr ⟨rfl, p, t, hl, hat, hl', hat', hx.trans (h.trans h')⟩
      · exact .inl ⟨rfl, e, .inr hr, hn, hx.trans (h.trans h')⟩
    · exact .inl ⟨rfl, e, .inl hr, hn, hx.trans h⟩

/-- The output of the nine steps is as long as their input, where that has a first block (R196). -/
theorem hctr2Core_length (e d : Elem → Elem) (dir : BcDir) (h l snap : Elem) (p t : List Byte)
    (hp : 16 ≤ p.length) : (hctr2Core e d dir h l snap p t).bytes.length = p.length := by
  simp only [hctr2Core, List.length_append, bytesOf_length, xctrBytes_length, List.length_drop]
  omega

/-- A cipher command makes the request of step 5 and those of its keystream (R86). -/
theorem hctr2Of_log_length (dir : BcDir) (p t : List Byte) (s : State) :
    (hctr2Of dir p t s).log.length = 1 + ceil16 (p.length - 16) := by
  simp [hctr2Of, hctr2Core, Nat.add_comm]

/-- What a command may read when no check of `cipherCheck` fails (R187 to R189). -/
theorem cipherCheck_none {s : State} (h : cipherCheck s = none) :
    s.ready = true ∧ s.curArg.src.toNat + s.curArg.len.toNat ≤ bufBytes s ∧
      s.curArg.dst.toNat + s.curArg.dlen.toNat ≤ bufBytes s ∧
      s.curArg.twk.toNat + s.curArg.tlen.toNat ≤ bufBytes s ∧
      16 ≤ s.curArg.len.toNat ∧ s.curArg.len.toNat ≤ s.curArg.dlen.toNat ∧ argsOverlap s.curArg = false := by
  unfold cipherCheck inRange at h
  split at h
  · cases h
  split at h
  · cases h
  split at h
  · cases h
  split at h
  · cases h
  split at h
  · cases h
  simp_all

/-- What `xctr` may read and write when no check of `xctrCheck` fails (R224). -/
theorem xctrCheck_none {s : State} (h : xctrCheck s = none) :
    s.ready = true ∧ s.curArg.src.toNat + s.curArg.len.toNat ≤ bufBytes s ∧
      s.curArg.dst.toNat + s.curArg.dlen.toNat ≤ bufBytes s ∧
      s.curArg.len.toNat ≤ s.curArg.dlen.toNat ∧ argsOverlap s.curArg = false := by
  unfold xctrCheck inRange at h
  split at h
  · cases h
  split at h
  · cases h
  split at h
  · cases h
  split at h
  · cases h
  simp_all

/-- `pv.updb` may read its source when its check does not fail (R156). -/
theorem updbCheck_none {s : State} (h : updbCheck s = none) :
    s.curArg.src.toNat + s.curArg.len.toNat ≤ bufBytes s := by
  unfold updbCheck inRange at h
  split at h
  · cases h
  simp_all

/-- A step with nothing on the agenda is the core's turn. -/
theorem step_nil {s : State} (h : s.agenda = []) : step s = coreTurn s := by
  simp [step, h]

/-- A step with the core first on the agenda is the core's turn. -/
theorem step_core {s : State} {rest : List Event} (h : s.agenda = .core :: rest) :
    step s = coreTurn { s with agenda := rest } := by
  simp [step, h]

/-- A step with a host read first on the agenda is that read, while `rst` is released. -/
theorem step_read {s : State} {x : BitVec 16} {rest : List Event} (h : s.agenda = .read x :: rest)
    (hr : s.inputs.rst = false) : step s = .next (hostRead x { s with agenda := rest }) := by
  simp [step, happen, h, hr]

/-- A step with a host write first on the agenda is that write, while `rst` is released. -/
theorem step_write {s : State} {x : BitVec 16} {v : Word} {rest : List Event} (h : s.agenda = .write x v :: rest)
    (hr : s.inputs.rst = false) : step s = .next (hostWrite x v { s with agenda := rest }) := by
  simp [step, happen, h, hr]

/-- The word of a field register that an address of its window names (R79, R80). -/
theorem target_frWord (size : Nat) (r : FReg) (j : Nat) (hj : j < 4) :
    target size (BitVec.ofNat 16 (0x040 + 16 * r.index + 4 * j)) = .frWord r (Fin.ofNat 4 j) := by
  have : j = 0 ∨ j = 1 ∨ j = 2 ∨ j = 3 := by omega
  rcases this with rfl | rfl | rfl | rfl <;> cases r <;> rfl

/-- The word of BUF that an address of its window names (R79, R81). -/
theorem target_bufWord (size k : Nat) (hs : size ≤ 32768) (hk : 4 * k < size) :
    target size (BitVec.ofNat 16 (0x8000 + 4 * k)) = .bufWord k := by
  have e : (BitVec.ofNat 16 (0x8000 + 4 * k)).toNat = 0x8000 + 4 * k := by
    simp only [BitVec.toNat_ofNat]
    omega
  unfold target
  simp only [e]
  rw [if_neg (by omega), if_neg (by omega), if_neg (by omega), if_pos (by omega)]
  congr 1
  omega

/-- The size of BUF is a multiple of 64 and at most 32768 (R9). -/
theorem bufBytes_bounds (s : State) : bufBytes s % 64 = 0 ∧ 64 ≤ bufBytes s ∧ bufBytes s ≤ 32768 := by
  have h : ∀ k : Fin 10, 2 ^ (6 + k.val) % 64 = 0 ∧ 64 ≤ 2 ^ (6 + k.val) ∧ 2 ^ (6 + k.val) ≤ 32768 := by decide
  exact h s.bufSel

end Sys2Proof.Machine
end

