-- ==== Sys2Proof/Laws/PerInstr.lean ====
section
/-! SUPPORT. Facts proved for each command: the encoder's word has the fields that R104 and R105 give the command, and
they are legal. -/

namespace Sys2Proof.Laws

/-- The word of a command has its fields, and they are legal (R104, R105, R107). -/
def EncodesLegally.Statement (i : Instr) : Prop := Fields.ofWord (encode i) = i.fields ∧ i.wf = true

theorem EncodesLegally.nop : EncodesLegally.Statement .nop := by
  unfold EncodesLegally.Statement; decide

theorem EncodesLegally.feXor (rd rs1 rs2 : FReg) : EncodesLegally.Statement (.feXor rd rs1 rs2) := by
  unfold EncodesLegally.Statement; cases rd <;> cases rs1 <;> cases rs2 <;> decide

theorem EncodesLegally.feMul (rd rs1 rs2 : FReg) : EncodesLegally.Statement (.feMul rd rs1 rs2) := by
  unfold EncodesLegally.Statement; cases rd <;> cases rs1 <;> cases rs2 <;> decide

theorem EncodesLegally.feDbl (rd rs1 : FReg) : EncodesLegally.Statement (.feDbl rd rs1) := by
  unfold EncodesLegally.Statement; cases rd <;> cases rs1 <;> decide

theorem EncodesLegally.pvInit (rs1 : FReg) : EncodesLegally.Statement (.pvInit rs1) := by
  unfold EncodesLegally.Statement; cases rs1 <;> decide

theorem EncodesLegally.pvReset : EncodesLegally.Statement .pvReset := by
  unfold EncodesLegally.Statement; decide

theorem EncodesLegally.pvUpd (rs1 : FReg) : EncodesLegally.Statement (.pvUpd rs1) := by
  unfold EncodesLegally.Statement; cases rs1 <;> decide

theorem EncodesLegally.pvUpdb : EncodesLegally.Statement .pvUpdb := by
  unfold EncodesLegally.Statement; decide

theorem EncodesLegally.pvSum (rd : FReg) : EncodesLegally.Statement (.pvSum rd) := by
  unfold EncodesLegally.Statement; cases rd <;> decide

theorem EncodesLegally.pvRest (rs1 : FReg) : EncodesLegally.Statement (.pvRest rs1) := by
  unfold EncodesLegally.Statement; cases rs1 <;> decide

theorem EncodesLegally.xctr (rs1 : FReg) : EncodesLegally.Statement (.xctr rs1) := by
  unfold EncodesLegally.Statement; cases rs1 <;> decide

theorem EncodesLegally.hctr2Init : EncodesLegally.Statement .hctr2Init := by
  unfold EncodesLegally.Statement; decide

theorem EncodesLegally.hctr2Enc : EncodesLegally.Statement .hctr2Enc := by
  unfold EncodesLegally.Statement; decide

theorem EncodesLegally.hctr2Dec : EncodesLegally.Statement .hctr2Dec := by
  unfold EncodesLegally.Statement; decide

/-- Every term of `Instr` is a well-formed command. -/
theorem instr_wf (i : Instr) : i.wf = true := by
  cases i with
  | nop => exact EncodesLegally.nop.2
  | feXor rd rs1 rs2 => exact (EncodesLegally.feXor rd rs1 rs2).2
  | feMul rd rs1 rs2 => exact (EncodesLegally.feMul rd rs1 rs2).2
  | feDbl rd rs1 => exact (EncodesLegally.feDbl rd rs1).2
  | pvInit rs1 => exact (EncodesLegally.pvInit rs1).2
  | pvReset => exact EncodesLegally.pvReset.2
  | pvUpd rs1 => exact (EncodesLegally.pvUpd rs1).2
  | pvUpdb => exact EncodesLegally.pvUpdb.2
  | pvSum rd => exact (EncodesLegally.pvSum rd).2
  | pvRest rs1 => exact (EncodesLegally.pvRest rs1).2
  | xctr rs1 => exact (EncodesLegally.xctr rs1).2
  | hctr2Init => exact EncodesLegally.hctr2Init.2
  | hctr2Enc => exact EncodesLegally.hctr2Enc.2
  | hctr2Dec => exact EncodesLegally.hctr2Dec.2

end Sys2Proof.Laws
end

