-- ==== Sys2Proof/Tests/Slice0.lean ====
section
/-! SUPPORT. Tests: ill-formed fields and words, the decoding of every command, one-step vectors of the spec's file
95_test_vectors.md, and for every statement with hypotheses a state and operands that meet them. -/

open Sys2Proof Sys2Proof.Machine

namespace Sys2Proof.Tests

/-- The bytes that `len` pairs of hexadecimal digits write, the leftmost first (R13). -/
def hex (len n : Nat) : List Byte :=
  (List.range len).map fun j => BitVec.ofNat 8 (n / 256 ^ (len - 1 - j))

/-- The element that the spec writes `w:` with 32 hexadecimal digits (R13). -/
def w (n : Nat) : Elem := fe (hex 16 n)

/-! ### Well-formedness: each check refuses an ill-formed term -/

theorem test_wf_refuses_unassigned_opcode :
    (⟨0x04, 0, 0, 0, 0⟩ : Fields).opcAssigned = false ∧ (⟨0x04, 0, 0, 0, 0⟩ : Fields).wf = false := by decide

theorem test_wf_refuses_reserved_bits :
    (⟨0x31, 1, 0, 0, 0⟩ : Fields).rsvZero = false ∧ (⟨0x31, 1, 0, 0, 0⟩ : Fields).wf = false := by decide

theorem test_wf_refuses_register_number_4 :
    (⟨0x01, 0, 4, 0, 0⟩ : Fields).regsFit = false ∧ (⟨0x01, 0, 4, 0, 0⟩ : Fields).wf = false := by decide

theorem test_wf_refuses_unused_field :
    (⟨0x10, 0, 1, 0, 0⟩ : Fields).unusedZero = false ∧ (⟨0x10, 0, 1, 0, 0⟩ : Fields).wf = false ∧
      (⟨0x14, 0, 0, 1, 0⟩ : Fields).wf = false ∧ (⟨0x03, 0, 0, 0, 1⟩ : Fields).wf = false := by decide

theorem test_wf_accepts_fe_mul : (⟨0x02, 0, 3, 1, 2⟩ : Fields).wf = true := by decide

/-! ### Decoding: every constructor from a word written out field by field, `RSV RS2 RS1 RD OPC` (R100, R105) -/

theorem test_decode_nop : decode (0#18 ++ 0#2 ++ 0#2 ++ 0#2 ++ 0x00#8) = .ok .nop := by decide
theorem test_decode_feXor : decode (0#18 ++ 2#2 ++ 1#2 ++ 0#2 ++ 0x01#8) = .ok (.feXor .f0 .f1 .f2) := by decide
theorem test_decode_feMul : decode (0#18 ++ 2#2 ++ 1#2 ++ 3#2 ++ 0x02#8) = .ok (.feMul .f3 .f1 .f2) := by decide
theorem test_decode_feDbl : decode (0#18 ++ 0#2 ++ 1#2 ++ 2#2 ++ 0x03#8) = .ok (.feDbl .f2 .f1) := by decide
theorem test_decode_pvInit : decode (0#18 ++ 0#2 ++ 3#2 ++ 0#2 ++ 0x10#8) = .ok (.pvInit .f3) := by decide
theorem test_decode_pvReset : decode (0#18 ++ 0#2 ++ 0#2 ++ 0#2 ++ 0x11#8) = .ok .pvReset := by decide
theorem test_decode_pvUpd : decode (0#18 ++ 0#2 ++ 2#2 ++ 0#2 ++ 0x12#8) = .ok (.pvUpd .f2) := by decide
theorem test_decode_pvUpdb : decode (0#18 ++ 0#2 ++ 0#2 ++ 0#2 ++ 0x13#8) = .ok .pvUpdb := by decide
theorem test_decode_pvSum : decode (0#18 ++ 0#2 ++ 0#2 ++ 3#2 ++ 0x14#8) = .ok (.pvSum .f3) := by decide
theorem test_decode_pvRest : decode (0#18 ++ 0#2 ++ 2#2 ++ 0#2 ++ 0x15#8) = .ok (.pvRest .f2) := by decide
theorem test_decode_xctr : decode (0#18 ++ 0#2 ++ 1#2 ++ 0#2 ++ 0x20#8) = .ok (.xctr .f1) := by decide
theorem test_decode_hctr2Init : decode (0#18 ++ 0#2 ++ 0#2 ++ 0#2 ++ 0x30#8) = .ok .hctr2Init := by decide
theorem test_decode_hctr2Enc : decode (0#18 ++ 0#2 ++ 0#2 ++ 0#2 ++ 0x31#8) = .ok .hctr2Enc := by decide
theorem test_decode_hctr2Dec : decode (0#18 ++ 0#2 ++ 0#2 ++ 0#2 ++ 0x32#8) = .ok .hctr2Dec := by decide

/-- The words of programs P1 and P2 of the spec. -/
theorem test_decode_program_words :
    decode 0x00000812 = .ok (.pvUpd .f2) ∧ decode 0x00000214 = .ok (.pvSum .f2) ∧
      decode 0x00000c15 = .ok (.pvRest .f3) ∧ decode 0x00000602 = .ok (.feMul .f2 .f1 .f0) ∧
      decode 0x00000303 = .ok (.feDbl .f3 .f0) := by decide

/-- The illegal words of vectors E19 to E24, each rejected on its ground of R107. -/
theorem test_decode_rejects_illegal_words :
    decode 0x00000004 = .error .unassignedOpcode ∧ decode 0x00004031 = .error .reservedBits ∧
      decode 0x00000110 = .error .unusedField ∧ decode 0x00000100 = .error .unusedField ∧
      decode 0x00001003 = .error .unusedField ∧ decode 0x00001031 = .error .unusedField := by decide

theorem test_decodeTableWord : decodeTableWord 32 0x2702 = some (.feMul .f3 .f1 .f2) ∧
    decodeTableWord 32 0x110 = none := by decide

/-! ### Arithmetic and hashing (the vectors are those of sections 2.1 to 2.5 of the spec's file) -/

/-- F1 and F3. -/
theorem test_dot_vectors :
    dot (w 0x66e94bd4ef8a2c3b884cfa59ca342b2e) (w 0xff000000000000000000000000000000) =
        w 0xebe563401e7e91ea3ad6426b8140c394 ∧
      dot 1 1 = w 0x01000000000000000000000000000492 := by decide +kernel

/-- F6, by the multiplier of R132 and R133. -/
theorem test_multiplier_all_ones :
    dotByReduction (BitVec.allOnes 128) (BitVec.allOnes 128) = w 0x5555555555555555555555555555017a := by
  decide +kernel

/-- F14 and F18. -/
theorem test_double_vectors :
    double (BitVec.allOnes 128) = w 0xffffffffffffffffffffffffffffff3d ∧
      double x128 = w 0x03000000000000000000000000000046 := by decide +kernel

/-- P6: one whole block and a partial one, zero-padded with no marker. -/
theorem test_absorb_partial_block :
    absorbBytes (w 0x25629347589242761d31f826ba4b757b) 0
      (hex 20 0x4f4f95668c83dfb6401762bb2d01a262d1a24ddd) = w 0x6b1572f1593e829dd8642e69ed914c87 := by
  decide +kernel

/-- The key of the cipher TOY, an involution: `x ⊕ K`. -/
def toy (x : Elem) : Elem := x ^^^ w 0x000102030405060708090a0b0c0d0e0f

/-- X8: 36 bytes, so a final block of 4. -/
theorem test_xctr_toy :
    xctrBytes toy (w 0x00112233445566778899aabbccddeeff) (List.replicate 36 0) =
      hex 36 0x01102030405060708090a0b0c0d0e0f002102030405060708090a0b0c0d0e0f003102030 := by decide +kernel

/-- H9: the ciphertext and the final Y. -/
theorem test_hctr2_enc_toy :
    let r := hctr2Core toy toy .encrypt (toy 0) (toy 1) (dot 2 (toy 0))
      (hex 32 0x000102030405060708090a0b0c0d0e0f101112131415161718191a1b1c1d1e1f) []
    r.bytes = hex 32 0x40c2400843ca43204ce24c284fea4f0010101010101010101010101010101010 ∧
      r.y = w 0xc948d410dd5840403a0827502e18b300 := by decide +kernel

/-- H12 read backwards: 17 bytes, so the header 3 and the marker. -/
theorem test_hctr2_dec_toy :
    let r := hctr2Core toy toy .decrypt (toy 0) (toy 1) (dot 3 (toy 0))
      (hex 17 0x0000000000000000000000000000000010) []
    r.bytes = hex 17 0x000102030405060708090a0b0c0d0e0f10 ∧
      r.y = w 0xb2a87db9718f74fe923759265510505e := by decide +kernel

/-! ### One step of the machine -/

/-- The next state of an outcome. -/
def after : Result → State
  | .next t => t
  | _ => State.reset

/-- The outcome is a next state. -/
def isNext : Result → Bool
  | .next _ => true
  | _ => false

theorem eq_next {r : Result} (h : isNext r = true) : r = .next (after r) := by
  cases r with
  | next t => rfl
  | fault f => cases h
  | refused r => cases h

/-- An idle core with 64 bytes of BUF, of which bytes 0 to 39 are written, constructed and ready. -/
def base : State :=
  { State.reset with
    bufSel := 0, ready := true, h := 5, l := 7, fr := ⟨1, 2, 3, 4⟩
    buf := (List.range 40).map fun k => (k, BitVec.ofNat 8 k) }

/-- `base` with the command word `w` and the arguments `g` accepted. -/
def running (w : Word) (g : Args) : State :=
  { base with curCmd := w, curArg := g, status := { base.status with busy := true } }

/-- Seventeen bytes at 0, their destination at 40 with room for 20, and a tweak of 3 bytes at 30: every region ends
inside BUF and the final block is partial. -/
def args17 : Args := ⟨0, 40, 17, 20, 30, 3⟩

/-- A run of `hctr2.enc` on those arguments. -/
def encRun : State := running 0x31 args17

/-- `n` bytes counting from `a`, which is what `base` holds at `a`. -/
def counting (a n : Nat) : List Byte := (List.range n).map fun k => BitVec.ofNat 8 (a + k)

/-- B3: from reset, `nop` leaves STATUS = 2. -/
theorem test_step_nop : statusWord (after (step (State.reset.withFetchWord 32 0))) = 0x00000002 := by decide

/-- E1: from reset, `hctr2.enc` ends with NOT_READY. -/
theorem test_step_enc_not_ready :
    statusWord (after (step (State.reset.withFetchWord 32 0x31))) = 0x00002206 := by decide

/-- E24: ILLEGAL comes before NOT_READY. -/
theorem test_step_illegal_first :
    statusWord (after (step (State.reset.withFetchWord 32 0x1031))) = 0x00001106 := by decide

/-- B4 to B6: DONE, a second command, and ERR acknowledged. -/
theorem test_status_acknowledge :
    let e1 := after (step (State.reset.withFetchWord 32 0x31))
    let b4 := hostWrite 0x00C 2 e1
    let b5 := after (execNop b4)
    statusWord b4 = 0x00002204 ∧ statusWord b5 = 0x00002006 ∧
      statusWord (hostWrite 0x00C 4 b5) = 0x00000002 := by decide

/-- The registers that each register command writes, with a source that is also the destination. -/
theorem test_exec_feXor : (after (exec (.feXor .f1 .f1 .f2) base)).fr = ⟨1, 1, 3, 4⟩ := by decide
theorem test_exec_feMul :
    (after (exec (.feMul .f1 .f1 .f0) { base with fr := ⟨x128, 9, 3, 4⟩ })).fr = ⟨x128, 9, 3, 4⟩ := by decide +kernel
theorem test_exec_feDbl : (after (exec (.feDbl .f3 .f3) base)).fr = ⟨1, 2, 3, 8⟩ := by decide
theorem test_exec_pvInit :
    let t := after (exec (.pvInit .f2) base)
    t.h = 3 ∧ t.y = 0 ∧ t.ready = false ∧ t.l = 7 := by decide
theorem test_exec_pvReset :
    let t := after (exec .pvReset { base with y := 9 })
    t.y = 0 ∧ t.h = 5 ∧ t.ready = true := by decide
/-- P2. -/
theorem test_exec_pvUpd :
    (after (exec (.pvUpd .f1)
      { base with
        h := w 0x25629347589242761d31f826ba4b757b
        fr := ⟨0, w 0x4f4f95668c83dfb6401762bb2d01a262, 0, 0⟩ })).y =
      w 0xcedac64537ff50989c16011551086d77 := by decide +kernel
/-- E14 and P9 at the end of BUF. -/
theorem test_exec_pvUpdb_range :
    (after (exec .pvUpdb { base with curArg := ⟨63, 0, 2, 0, 0, 0⟩ })).status.errCode = .range ∧
      (after (exec .pvUpdb { base with curArg := ⟨64, 0, 0, 0, 0, 0⟩, y := 9 })).y = 9 := by decide +kernel
theorem test_exec_pvSum : (after (exec (.pvSum .f3) { base with y := 9 })).fr = ⟨1, 2, 3, 9⟩ := by decide
theorem test_exec_pvRest : (after (exec (.pvRest .f2) { base with y := 9 })).y = 3 := by decide

/-- E25: BLOCK_SIZE clears READY. -/
theorem test_exec_init_block_size :
    statusWord (after (exec .hctr2Init { base with inputs := { base.inputs with bcBlockSize := 24 } })) =
      0x00003306 := by decide

/-- E7 to E12 and E16, as the check that fails first. -/
theorem test_check_order :
    cipherCheck { base with bufSel := 6, curArg := ⟨0, 1, 15, 10, 0, 0⟩ } = some .srcShort ∧
      cipherCheck { base with bufSel := 6, curArg := ⟨0, 1, 16, 15, 0, 0⟩ } = some .dstShort ∧
      cipherCheck { base with bufSel := 6, curArg := ⟨0, 31, 32, 32, 0, 0⟩ } = some .overlap ∧
      cipherCheck { base with bufSel := 6, curArg := ⟨0, 32, 32, 32, 0, 0⟩ } = none ∧
      cipherCheck { base with bufSel := 6, curArg := ⟨16, 0, 32, 32, 0, 0⟩ } = some .overlap ∧
      cipherCheck { base with bufSel := 6, curArg := ⟨4090, 0, 15, 32, 0, 0⟩ } = some .range ∧
      xctrCheck { base with bufSel := 6, curArg := ⟨0, 32, 5, 4, 0, 0⟩ } = some .dstShort := by decide +kernel

/-- An unwritten source byte is a fault, and the first one is named. -/
theorem test_exec_unwritten_source :
    exec .pvUpdb { base with curArg := ⟨38, 0, 4, 0, 0, 0⟩ } = .fault (.unwrittenRead 40) := by rfl

/-- B1, B2, B12, B13: the word that a read returns, and the two bus errors. -/
theorem test_bus_reads :
    (hostRead 0x000 State.reset).busOut = some (.okayRead 0x32544348) ∧
      (hostRead 0x004 State.reset).busOut = some (.okayRead 0x0000040C) ∧
      (hostRead 0x9000 State.reset).busOut = some (.errorRead 0) ∧
      (hostRead 0x042 State.reset).busOut = some (.errorRead 0) ∧
      (hostRead 0x080 State.reset).busOut = some (.errorRead 0) := by decide

/-- Byte order of the two windows (R80, R81; the words of program P1). -/
theorem test_bus_byte_order :
    (hostWrite 0x04C 0x7b754bba base).fr.f0 = w 0x010000000000000000000000ba4b757b ∧
      (hostWrite 0x8004 0x07060504 base).buf.readBytes 3 6 = .ok (hex 6 0x030405060708) ∧
      (hostRead 0x8004 base).busOut = some (.okayRead 0x07060504) := by
  refine ⟨by decide +kernel, by rfl, by decide +kernel⟩

/-! ### Witnesses: for every statement with hypotheses, a state and operands that meet all of them together -/

/-- The statement DecodedWordIsItsEncoding. -/
theorem test_meets_decodedWord : decode 0x00002702 = .ok (.feMul .f3 .f1 .f2) := by decide

/-- The statement IllegalCommandEndsWithIllegal, on each of the grounds of R107. -/
theorem test_meets_illegalCommand : ∀ x ∈ [0x33, 0x4000, 0x110, 0x414, 0x1003],
    let s := running (BitVec.ofNat 32 x) args17
    s.status.busy = true ∧ s.inputs.rst = false ∧ s.agenda = [] ∧ Sys2Proof.Claims.IllegalWord s.curCmd := by
  unfold Sys2Proof.Claims.IllegalWord; decide +kernel

/-- Both forms of the core's turn, with an empty agenda and with the entry `core` first. -/
theorem test_meets_turn :
    Sys2Proof.Claims.HasTurn encRun ∧
      Sys2Proof.Claims.HasTurn { encRun with agenda := [.core, .read 0x00C] } ∧
      Sys2Proof.Claims.HasTurn { running 0x4000 args17 with agenda := [.core] } :=
  ⟨.inl rfl, .inr ⟨_, rfl⟩, .inr ⟨_, rfl⟩⟩

/-- The statement StepRunsDecodedCommand for a core that runs nothing: idle, and under reset. -/
theorem test_meets_idle_turn :
    base.status.busy = false ∧
      ({ base with inputs := { base.inputs with rst := true } } : State).inputs.rst = true := by decide

/-- The statements StepRunsDecodedCommand, AnsweredCommandEnds and FirstFailingCheckIsReported. -/
theorem test_meets_decodedCommand :
    encRun.status.busy = true ∧ encRun.inputs.rst = false ∧ Sys2Proof.Claims.Answered .hctr2Enc encRun ∧ encRun.agenda = [] ∧
      decode encRun.curCmd = .ok .hctr2Enc ∧ ¬Sys2Proof.Claims.IllegalWord encRun.curCmd ∧
      Sys2Proof.Claims.firstFailure .hctr2Enc encRun = none ∧ step encRun = .next (after (step encRun)) := by
  refine ⟨rfl, rfl, .inl rfl, rfl, by decide, ?_, by decide +kernel, eq_next (by decide +kernel)⟩
  unfold Sys2Proof.Claims.IllegalWord; decide

/-- The statement FirstFailingCheckIsReported with each code that a check reports. -/
theorem test_meets_firstFailure :
    Sys2Proof.Claims.firstFailure .hctr2Init { base with inputs := { base.inputs with bcBlockSize := 15 } } =
        some .blockSize ∧
      Sys2Proof.Claims.firstFailure (.xctr .f0) State.reset = some .notReady ∧
      Sys2Proof.Claims.firstFailure .pvUpdb (running 0x13 ⟨60, 0, 5, 0, 0, 0⟩) = some .range ∧
      Sys2Proof.Claims.firstFailure .hctr2Dec (running 0x32 ⟨0, 40, 15, 20, 0, 0⟩) = some .srcShort ∧
      Sys2Proof.Claims.firstFailure .hctr2Enc (running 0x31 ⟨0, 40, 17, 16, 0, 0⟩) = some .dstShort ∧
      Sys2Proof.Claims.firstFailure .hctr2Enc (running 0x31 ⟨0, 16, 17, 17, 0, 0⟩) = some .overlap := by
  decide +kernel

/-- The statement PvUpdateBufResult, over a partial block at the end of what is written and over no byte at the end
of BUF. -/
theorem test_meets_pvUpdateBuf :
    (let s := running 0x13 ⟨23, 0, 17, 0, 0, 0⟩;
      s.curArg.src.toNat + s.curArg.len.toNat ≤ bufBytes s ∧
        (counting 23 17).length = s.curArg.len.toNat ∧ BytesAt s.buf s.curArg.src.toNat (counting 23 17)) ∧
      (let s := running 0x13 ⟨64, 0, 0, 0, 0, 0⟩;
        s.curArg.src.toNat + s.curArg.len.toNat ≤ bufBytes s ∧
          ([] : List Byte).length = s.curArg.len.toNat ∧ BytesAt s.buf s.curArg.src.toNat []) := by
  unfold BytesAt; decide +kernel

/-- The state after a command that runs in `s` with the arguments `a`. -/
def ranWith (i : Instr) (a : Args) (s : State) : State := after (exec i { s with curArg := a })

/-- The state after `pv.sum f3`. -/
def afterSum : State := ranWith (.pvSum .f3) args17 base

/-- The states after each of two `pv.updb` that follow, over a source of its own each. -/
def afterFirst : State := ranWith .pvUpdb ⟨23, 0, 17, 0, 0, 0⟩ afterSum
def afterSecond : State := ranWith .pvUpdb ⟨4, 0, 5, 0, 0, 0⟩ afterFirst

/-- The statement SnapshotThenRestore, with commands in between that change Y, each with its own arguments. -/
theorem test_meets_snapshot :
    ∃ s t u v, (∀ i ∈ [Instr.pvUpdb, .pvUpdb], Sys2Proof.Claims.writtenReg i ≠ some .f3) ∧
      (∀ i ∈ [Instr.pvUpdb, .pvUpdb], (∀ r, i ≠ .pvInit r) ∧ i ≠ .hctr2Init) ∧
      exec (.pvSum .f3) s = .next t ∧
      Sys2Proof.Claims.RunsBetween .f3 [.pvUpdb, .pvUpdb] t u ∧
      exec (.pvRest .f3) u = .next v ∧ u.y ≠ s.y :=
  ⟨{ base with curArg := args17 }, afterSum, { afterSecond with curArg := args17 }, _, by decide, by simp, rfl,
    ⟨{ afterSum with curArg := ⟨23, 0, 17, 0, 0, 0⟩ }, afterFirst, ⟨rfl, rfl⟩, eq_next (by decide +kernel),
      { afterFirst with curArg := ⟨4, 0, 5, 0, 0, 0⟩ }, afterSecond, ⟨rfl, rfl⟩, eq_next (by decide +kernel),
      ⟨rfl, rfl⟩⟩,
    rfl, by decide +kernel⟩

/-- The statement IncrementalEqualsWhole: whole blocks, and one block. -/
theorem test_meets_incremental : (counting 0 32).length % 16 = 0 ∧ (counting 0 16).length = 16 := by decide +kernel

/-- The statement Hctr2InitResult, and both forms of the wrong block size. -/
theorem test_meets_init :
    base.inputs.bcBlockSize = 16 ∧ base.inputs.bcAnswers = true ∧
      Sys2Proof.Claims.Answered .hctr2Init
        { base with inputs := { base.inputs with bcAnswers := false }, port := ⟨2, 0⟩ } ∧
      (∀ n ∈ [0#8, 15#8, 17#8, 255#8],
        base.port = Port.idle ∧ ({ base with inputs := { base.inputs with bcBlockSize := n } } : State).inputs.bcBlockSize ≠ 16) := by
  unfold Sys2Proof.Claims.Answered; decide

/-- The arguments of a run of `xctr`: 17 bytes at 0, their destination at 40 to the end of BUF. -/
def xctrRun : State := running 0x420 ⟨0, 40, 17, 24, 0, 0⟩

/-- The statement XctrResult: a disjoint destination, one in place, an adjacent one, and no byte at the end of BUF
without a block cipher that answers. -/
theorem test_meets_xctr :
    (∀ g ∈ [(⟨0, 40, 17, 24, 0, 0⟩ : Args), ⟨0, 0, 17, 17, 0, 0⟩, ⟨0, 17, 17, 17, 0, 0⟩],
      let s := running 0x420 g
      s.ready = true ∧ Sys2Proof.Claims.Answered (.xctr .f1) s ∧
        s.curArg.src.toNat + s.curArg.len.toNat ≤ bufBytes s ∧
        s.curArg.dst.toNat + s.curArg.dlen.toNat ≤ bufBytes s ∧
        s.curArg.len.toNat ≤ s.curArg.dlen.toNat ∧
        Sys2Proof.Claims.Apart s.curArg.src.toNat s.curArg.dst.toNat s.curArg.len.toNat ∧
        (counting 0 17).length = s.curArg.len.toNat ∧ BytesAt s.buf s.curArg.src.toNat (counting 0 17)) ∧
      (let s := { running 0x420 ⟨64, 64, 0, 0, 0, 0⟩ with inputs := { base.inputs with bcAnswers := false } };
        s.ready = true ∧ Sys2Proof.Claims.Answered (.xctr .f1) s ∧
          s.curArg.src.toNat + s.curArg.len.toNat ≤ bufBytes s ∧
          s.curArg.dst.toNat + s.curArg.dlen.toNat ≤ bufBytes s ∧
          s.curArg.len.toNat ≤ s.curArg.dlen.toNat ∧
          Sys2Proof.Claims.Apart s.curArg.src.toNat s.curArg.dst.toNat s.curArg.len.toNat ∧
          ([] : List Byte).length = s.curArg.len.toNat ∧ BytesAt s.buf s.curArg.src.toNat []) := by
  unfold BytesAt Sys2Proof.Claims.Apart Sys2Proof.Claims.Answered; decide +kernel

/-- What a run of `xctr` leaves, with arguments that read it from its destination into 0. -/
def xctrBack : State := { after (exec (.xctr .f1) xctrRun) with curArg := ⟨40, 0, 17, 17, 0, 0⟩ }

/-- The statement XctrIsInvolution. -/
theorem test_meets_involution :
    ∃ t v, (counting 0 17).length = xctrRun.curArg.len.toNat ∧
      BytesAt xctrRun.buf xctrRun.curArg.src.toNat (counting 0 17) ∧
      Sys2Proof.Claims.Answered (.xctr .f1) xctrRun ∧ exec (.xctr .f1) xctrRun = .next t ∧ Completed xctrRun t ∧
      xctrBack.fr.read .f1 = xctrRun.fr.read .f1 ∧ xctrBack.inputs.bcKey = xctrRun.inputs.bcKey ∧
      xctrBack.curArg.len = xctrRun.curArg.len ∧
      (∀ j, j < (counting 0 17).length →
        xctrBack.buf.read (xctrBack.curArg.src.toNat + j) = t.buf.read (xctrRun.curArg.dst.toNat + j)) ∧
      Sys2Proof.Claims.Answered (.xctr .f1) xctrBack ∧ exec (.xctr .f1) xctrBack = .next v ∧ Completed xctrBack v :=
  ⟨_, _, by decide, by unfold BytesAt; decide +kernel, .inl rfl, eq_next (by decide +kernel), by rfl, by rfl, by rfl,
    by rfl, fun _ _ => by rfl, .inl (by rfl), eq_next (by decide +kernel), by rfl⟩

/-- The statements Hctr2EncryptResult and Hctr2DecryptResult: 17 bytes and one block, out of place, in place and with
an empty tweak at the end of BUF. -/
theorem test_meets_cipher :
    ∀ x ∈ [(args17, counting 30 3), (⟨0, 0, 17, 17, 64, 0⟩, []), (⟨0, 16, 16, 48, 39, 1⟩, counting 39 1)],
      let s := running 0x31 x.1
      s.ready = true ∧ CacheCurrent s ∧ Sys2Proof.Claims.Answered .hctr2Enc s ∧ Sys2Proof.Claims.Answered .hctr2Dec s ∧
        s.curArg.src.toNat + s.curArg.len.toNat ≤ bufBytes s ∧
        s.curArg.dst.toNat + s.curArg.dlen.toNat ≤ bufBytes s ∧
        s.curArg.twk.toNat + s.curArg.tlen.toNat ≤ bufBytes s ∧
        16 ≤ s.curArg.len.toNat ∧ s.curArg.len.toNat ≤ s.curArg.dlen.toNat ∧
        Sys2Proof.Claims.Apart s.curArg.src.toNat s.curArg.dst.toNat s.curArg.len.toNat ∧
        (counting 0 s.curArg.len.toNat).length = s.curArg.len.toNat ∧
        BytesAt s.buf s.curArg.src.toNat (counting 0 s.curArg.len.toNat) ∧
        x.2.length = s.curArg.tlen.toNat ∧ BytesAt s.buf s.curArg.twk.toNat x.2 := by
  unfold BytesAt CacheCurrent Sys2Proof.Claims.Apart Sys2Proof.Claims.Answered; decide +kernel

/-- `base` with a valid cache for a tweak of 3 bytes, whose snapshots are current. -/
def cached : Cache := ⟨true, 3, dot (hdr 3 false) 5, dot (hdr 3 true) 5⟩

theorem cached_current (s : State) (h : s.h = 5) : CacheCurrent { s with cache := cached } := by
  intro _; simp [cached, h]

/-- The statement CacheIsTransparent: an empty cache and one that hits. -/
theorem test_meets_cache :
    CacheCurrent encRun ∧ CacheCurrent { encRun with cache := cached } ∧
      exec .hctr2Enc encRun = .next (after (exec .hctr2Enc encRun)) ∧ step encRun = .next (after (step encRun)) :=
  ⟨fun h => absurd h (by decide), cached_current _ rfl, eq_next (by decide +kernel), eq_next (by decide +kernel)⟩

/-- What a run of `hctr2.enc` leaves, with arguments that decrypt its output into 0. -/
def decRun : State := { after (exec .hctr2Enc encRun) with curArg := ⟨40, 0, 17, 17, 30, 3⟩ }

/-- The statement DecryptUndoesEncrypt. -/
theorem test_meets_decrypt :
    ∃ t v, (counting 0 17).length = encRun.curArg.len.toNat ∧
      BytesAt encRun.buf encRun.curArg.src.toNat (counting 0 17) ∧
      (counting 30 3).length = encRun.curArg.tlen.toNat ∧
      BytesAt encRun.buf encRun.curArg.twk.toNat (counting 30 3) ∧
      CacheCurrent encRun ∧ Sys2Proof.Claims.Answered .hctr2Enc encRun ∧
      exec .hctr2Enc encRun = .next t ∧ Completed encRun t ∧
      decRun.inputs.bcKey = encRun.inputs.bcKey ∧ decRun.h = encRun.h ∧ decRun.l = encRun.l ∧
      decRun.curArg.len = encRun.curArg.len ∧ decRun.curArg.tlen = encRun.curArg.tlen ∧
      BytesAt decRun.buf decRun.curArg.twk.toNat (counting 30 3) ∧
      (∀ j, j < (counting 0 17).length →
        decRun.buf.read (decRun.curArg.src.toNat + j) = t.buf.read (encRun.curArg.dst.toNat + j)) ∧
      CacheCurrent decRun ∧ Sys2Proof.Claims.Answered .hctr2Dec decRun ∧ exec .hctr2Dec decRun = .next v ∧
      Completed decRun v :=
  ⟨_, _, by decide, by unfold BytesAt; decide +kernel, by decide, by unfold BytesAt; decide +kernel,
    fun h => absurd h (by decide), .inl rfl, eq_next (by decide +kernel), by rfl, by rfl, by rfl, by rfl, by rfl, by rfl,
    by unfold BytesAt; decide +kernel, fun _ _ => by rfl, fun _ => ⟨by rfl, by rfl⟩, .inl (by rfl),
    eq_next (by decide +kernel), by rfl⟩

/-- A second run of `hctr2.enc` on the same source and tweak, in place, from another accumulator and another cache. -/
def encAgain : State := { running 0x31 ⟨0, 0, 17, 17, 30, 3⟩ with y := 9, cache := cached }

/-- The statement OutputDependsOnInputsOnly. -/
theorem test_meets_determinism :
    ∃ t t', (counting 0 17).length = encRun.curArg.len.toNat ∧
      BytesAt encRun.buf encRun.curArg.src.toNat (counting 0 17) ∧
      (counting 30 3).length = encRun.curArg.tlen.toNat ∧
      BytesAt encRun.buf encRun.curArg.twk.toNat (counting 30 3) ∧
      CacheCurrent encRun ∧ Sys2Proof.Claims.Answered .hctr2Enc encRun ∧
      exec .hctr2Enc encRun = .next t ∧ Completed encRun t ∧
      encAgain.inputs.bcKey = encRun.inputs.bcKey ∧ encAgain.h = encRun.h ∧ encAgain.l = encRun.l ∧
      encAgain.curArg.len = encRun.curArg.len ∧ encAgain.curArg.tlen = encRun.curArg.tlen ∧
      BytesAt encAgain.buf encAgain.curArg.src.toNat (counting 0 17) ∧
      BytesAt encAgain.buf encAgain.curArg.twk.toNat (counting 30 3) ∧
      CacheCurrent encAgain ∧ Sys2Proof.Claims.Answered .hctr2Enc encAgain ∧ exec .hctr2Enc encAgain = .next t' ∧
      Completed encAgain t' :=
  ⟨_, _, by decide, by unfold BytesAt; decide +kernel, by decide, by unfold BytesAt; decide +kernel,
    fun h => absurd h (by decide), .inl rfl, eq_next (by decide +kernel), by rfl, by rfl, by rfl, by rfl, by rfl, by rfl,
    by unfold BytesAt; decide +kernel, by unfold BytesAt; decide +kernel, cached_current _ rfl, .inl rfl,
    eq_next (by decide +kernel), by rfl⟩

/-- The statement CommandsIssueTheirRequests: a run that issues requests, with a block cipher that answers. -/
theorem test_meets_requests :
    ∃ t, exec .hctr2Dec encRun = .next t ∧ Sys2Proof.Claims.Answered .hctr2Dec encRun ∧ Completed encRun t ∧
      t.bcLog.length = 2 :=
  ⟨_, eq_next (by decide +kernel), .inl rfl, by rfl, by rfl⟩

/-- The statement AcceptanceLatchesCommand. -/
theorem test_meets_acceptance : base.status.busy = false ∧ base.inputs.rst = false := by decide

/-- The statement ErrorsWriteOnlyStatus: a completion, an error of each side, and a run that waits. -/
theorem test_meets_endings :
    exec .nop base = .next (after (exec .nop base)) ∧
      exec .hctr2Enc (running 0x31 ⟨0, 1, 17, 20, 0, 0⟩) =
        .next (after (exec .hctr2Enc (running 0x31 ⟨0, 1, 17, 20, 0, 0⟩))) ∧
      exec .hctr2Init { base with inputs := { base.inputs with bcAnswers := false } } =
        .next { base with inputs := { base.inputs with bcAnswers := false } } ∧
      decode (running 0x04 args17).curCmd = .error .unassignedOpcode ∧
      step (running 0x04 args17) = .next (after (step (running 0x04 args17))) :=
  ⟨rfl, eq_next (by decide +kernel), by rfl, by decide, eq_next (by decide +kernel)⟩

/-- The statement UnwrittenReadFaults, with every source byte written and the last byte of the tweak unwritten. -/
theorem test_meets_tweak_fault :
    let s := running 0x31 ⟨0, 44, 17, 20, 38, 3⟩
    Sys2Proof.Claims.firstFailure .hctr2Enc s = none ∧ Sys2Proof.Claims.firstFailure .hctr2Dec s = none ∧
      s.curArg.twk.toNat ≤ 40 ∧ 40 < s.curArg.twk.toNat + s.curArg.tlen.toNat ∧ s.buf.read 40 = none := by
  decide +kernel

/-- The statements FaultsOnlyAtUnwrittenBytes and UnwrittenReadFaults, at the first byte that nothing has written. -/
theorem test_meets_faults :
    ∀ i ∈ [Instr.pvUpdb, .xctr .f0, .hctr2Enc, .hctr2Dec],
      let s := running 0x31 ⟨24, 44, 17, 20, 0, 3⟩
      Sys2Proof.Claims.firstFailure i s = none := by
  decide +kernel

theorem test_meets_faults_byte :
    let s := running 0x31 ⟨24, 44, 17, 20, 0, 3⟩
    s.curArg.src.toNat ≤ 40 ∧ 40 < s.curArg.src.toNat + s.curArg.len.toNat ∧ s.buf.read 40 = none ∧
      exec .hctr2Enc s = .fault (.unwrittenRead 40) ∧
      exec .hctr2Dec (running 0x32 ⟨0, 44, 17, 20, 38, 3⟩) = .fault (.unwrittenRead 40) := by
  refine ⟨by decide, by decide, by decide, by rfl, by rfl⟩

/-- The statement SilentBlockCipherHangs: every clause on one state, with all requests but the last answered. -/
theorem test_meets_hang :
    let s := { encRun with inputs := { base.inputs with bcAnswers := false }, port := ⟨1, 1⟩ }
    s.inputs.bcAnswers = false ∧ s.inputs.bcBlockSize = 16 ∧ s.port.answered < 2 ∧
      Sys2Proof.Claims.firstFailure (.xctr .f0) s = none ∧ s.port.answered < (s.curArg.len.toNat + 15) / 16 ∧
      s.port.answered < 1 + (s.curArg.len.toNat - 16 + 15) / 16 ∧
      Sys2Proof.Claims.firstFailure .hctr2Enc s = none ∧ Sys2Proof.Claims.firstFailure .hctr2Dec s = none ∧
      (counting 0 17).length = s.curArg.len.toNat ∧ BytesAt s.buf s.curArg.src.toNat (counting 0 17) ∧
      (counting 30 3).length = s.curArg.tlen.toNat ∧ BytesAt s.buf s.curArg.twk.toNat (counting 30 3) := by
  unfold BytesAt; decide +kernel

/-- The statement WritersOfKeyRegisters: a step that changes H, READY and the cache, one that changes L, and a
reset. -/
theorem test_meets_writers :
    (let s := { running 0x10 args17 with cache := cached };
      ∃ t, step s = .next t ∧ t.h ≠ s.h ∧ t.ready ≠ s.ready ∧ s.cache.valid = true ∧ t.cache.valid = false) ∧
      (let s := { base with agenda := [.setRst true] };
        ∃ t, step s = .next t ∧ t.l ≠ s.l ∧ t.h ≠ s.h) ∧
      ∃ t, step encRun = .next t ∧ t.cache ≠ encRun.cache :=
  ⟨⟨_, rfl, by decide, by decide, by decide, by decide⟩, ⟨_, rfl, by decide, by decide⟩,
    ⟨_, eq_next (by decide +kernel), fun h => absurd (congrArg Cache.valid h) (by decide +kernel)⟩⟩

/-- The statements CommandWhileBusyIsDropped, OperandWriteWhileBusyIsDropped and ReadWhileBusyIsADraw, at the first and
the last address of each listed range. -/
theorem test_meets_busy_access :
    encRun.status.busy = true ∧ encRun.inputs.rst = false ∧
      (∀ a ∈ [0x014#16, 0x028#16, 0x040#16, 0x07C#16, 0x8000#16, 0x803C#16],
        Sys2Proof.Claims.Listed (bufBytes encRun) a ∧ 0x014 ≤ a.toNat) ∧
      ∀ a ∈ [0x040#16, 0x07C#16, 0x8000#16, 0x803C#16],
        Sys2Proof.Claims.Listed (bufBytes encRun) a ∧ 0x040 ≤ a.toNat := by
  have hb : bufBytes encRun = 64 := by decide +kernel
  refine ⟨rfl, rfl, ?_, ?_⟩ <;> simp [Sys2Proof.Claims.Listed, hb]

/-- The statements MisalignedAccessHasNoEffect and UnlistedAddressHasNoEffect, at the edges of the map. -/
theorem test_meets_bus_errors :
    base.inputs.rst = false ∧ (∀ a ∈ [0x001#16, 0x00E#16, 0x042#16, 0xFFFF#16], a.toNat % 4 ≠ 0) ∧
      (∀ a ∈ [0x02C#16, 0x03C#16, 0x080#16, 0x7FFC#16, 0x8040#16, 0xFFFC#16],
        a.toNat % 4 = 0 ∧ ¬Sys2Proof.Claims.Listed (bufBytes base) a) ∧
      (∀ a ∈ [0x000#16, 0x028#16, 0x040#16, 0x07C#16, 0x8000#16, 0x803C#16],
        Sys2Proof.Claims.Listed (bufBytes base) a) ∧
      (∀ k, 1 ≤ k → k < 4 → (0xFFFFFFFE#32).getLsbD k = (0x0000000E#32).getLsbD k) ∧
      (0xFFFFFFFF#32).getLsbD 0 = (0x00000001#32).getLsbD 0 := by
  have hb : bufBytes base = 64 := by decide +kernel
  refine ⟨rfl, by simp, by simp [Sys2Proof.Claims.Listed, hb], by simp [Sys2Proof.Claims.Listed, hb], ?_,
    by decide⟩
  intro k h1 h2
  have : k = 1 ∨ k = 2 ∨ k = 3 := by omega
  rcases this with rfl | rfl | rfl <;> decide

/-- The statements FieldWordAccess, BufferWordAccess, UnwrittenByteReadIsADraw and ArgRegisterReadsBack, at the last
word, the last written word and the first unwritten one. -/
theorem test_meets_word_access :
    base.inputs.rst = false ∧ base.status.busy = false ∧ 3 < 4 ∧ 4 * 15 < bufBytes base ∧
      BytesAt base.buf (4 * 9) (counting 36 4) ∧ 4 * 9 < bufBytes base ∧ base.buf.read (4 * 10 + 0) = none := by
  unfold BytesAt; decide

/-- The read that ends a wait: an idle core answers its STATUS word, DONE and READY (I1 of the spec's vectors). -/
theorem test_status_read_idle :
    (hostRead 0x00C { base with status := { base.status with done := true } }).busOut =
      some (.okayRead 0x00000012) := by decide

/-- The statements StatusRegisterAccess and IdConfigAndControl need only that `rst` is released, also while a command
is in progress. -/
theorem test_meets_register_access : encRun.inputs.rst = false ∧ base.inputs.rst = false := by decide

/-- The statement InterruptLine: a completion with the interrupt enabled, and each of the four writes. -/
theorem test_meets_interrupt :
    (let s := { base with irqEn := true };
      ∃ t, exec .nop s = .next t ∧ s.irqEn = true ∧ t ≠ s) ∧
      (∀ e ∈ [Event.write 0x00C 2, .write 0x008 0, .write 0x008 1, .write 0x010 0],
        isNext (step { base with irqEn := true, agenda := [e] }) = true) ∧
      (2#32).getLsbD 1 = true ∧ (0#32).getLsbD 0 = false ∧ (1#32).getLsbD 0 = true ∧ base.status.busy = false :=
  ⟨⟨_, rfl, rfl, fun h => absurd (congrArg (fun t => t.status.done) h) (by decide)⟩, by decide, by decide, by decide,
    by decide, rfl⟩

/-- The port over a run of `hctr2.enc` with two requests and a block cipher that answers each when it is asked: step 5
alone, its answer, the keystream block, its answer. No third request is made, and the core's turn then ends the command
(R85, R86, R305). -/
theorem test_port_progress :
    let s := { encRun with inputs := { base.inputs with bcAnswers := false } }
    let a := transferRequest s
    let b := takeResponse a
    let c := transferRequest b
    let d := takeResponse c
    a.port = ⟨0, 1⟩ ∧ transferRequest a = a ∧ b.port = ⟨1, 0⟩ ∧ c.port = ⟨1, 1⟩ ∧ d.port = ⟨2, 0⟩ ∧
      transferRequest d = d ∧ takeResponse d = d ∧ (after (exec .hctr2Enc c)).status.busy = true ∧
      (after (exec .hctr2Enc d)).status.busy = false ∧ (after (exec .hctr2Enc d)).port = Port.idle := by
  decide +kernel

/-- A stray response during `hctr2.enc`: ignored before the first request and between two requests, a fault while one is
outstanding (R292). -/
theorem test_stray_response :
    happen (.strayResponse 5) encRun = .next encRun ∧
      happen (.strayResponse 5) { encRun with port := ⟨1, 0⟩ } = .next { encRun with port := ⟨1, 0⟩ } ∧
      happen (.strayResponse 5) { encRun with port := ⟨0, 1⟩ } = .fault .strayResponseWhileOutstanding :=
  ⟨rfl, rfl, rfl⟩

/-- The statement SurroundingsDuties: an idle core, a busy one with no request outstanding and with one, and a core under
reset. A cipher command may make its first request, and with 4 lanes a fourth in its keystream; a command that ends in
error and an `xctr` over no byte may make none. -/
theorem test_meets_duties :
    base.status.busy = false ∧ base.port.outstanding = 0 ∧
      encRun.status.busy = true ∧ encRun.port.outstanding = 0 ∧ 0 < (transferRequest encRun).port.outstanding ∧
      Sys2Proof.Claims.CanRequest encRun ∧
      Sys2Proof.Claims.CanRequest
        { running 0x420 ⟨0, 0, 64, 64, 0, 0⟩ with
          inputs := { base.inputs with bcHasXctr := true }, port := ⟨0, 3⟩ } ∧
      mayRequest (running 0x31 ⟨0, 16, 17, 17, 0, 0⟩) = false ∧
      mayRequest (running 0x420 ⟨0, 40, 0, 0, 0, 0⟩) = false ∧
      (after (step { base with agenda := [.setRst true] })).inputs.rst = true := by
  refine ⟨by decide, by decide, by decide, by decide, by decide +kernel,
    ⟨rfl, rfl, .hctr2Enc, by decide, by decide +kernel, by decide +kernel, by decide +kernel⟩,
    ⟨rfl, rfl, .xctr .f1, by decide, by decide +kernel, by decide +kernel, by decide +kernel⟩,
    by decide +kernel, by decide +kernel, by decide⟩

/-- `encRun` between its first request and its second answer, with the H and L of an `hctr2.init` under key 3, which is not the current key, and a current cache for its
tweak length. -/
def keyedRun : State :=
  { encRun with
    port := ⟨1, 1⟩
    h := Config.blockCipher 3 0
    l := Config.blockCipher 3 1
    cache := ⟨true, 3, dot (hdr 3 false) (Config.blockCipher 3 0), dot (hdr 3 true) (Config.blockCipher 3 0)⟩ }

/-- The statement StepKeepsInvariant: a state whose BUF, cache and READY are not at reset has the invariant, and a step
from it runs a cipher command. -/
theorem test_meets_invariant : MachineInv keyedRun ∧ step keyedRun = .next (after (step keyedRun)) :=
  ⟨⟨by decide, by decide, fun _ => ⟨rfl, rfl⟩, fun _ => ⟨3, rfl, rfl⟩, by decide, by decide,
      fun _ => ⟨rfl, .hctr2Enc, by decide, by decide +kernel⟩, by decide, fun h => absurd h (by decide)⟩,
    eq_next (by decide +kernel)⟩

end Sys2Proof.Tests
end

section
/-! PROOFS. Host accesses to the registers below offset 0x040: the words they hold and how a read or a write of them
steps; then the statement about ID, CONFIG and CTRL. -/

namespace Sys2Proof.Machine

/-! ### The addresses of the registers (R79) -/

@[simp] theorem target_id (size : Nat) : target size 0x000 = .id := rfl
@[simp] theorem target_config (size : Nat) : target size 0x004 = .config := rfl
@[simp] theorem target_ctrl (size : Nat) : target size 0x008 = .ctrl := rfl

/-! ### The words of CONFIG and CTRL -/

/-- A logarithm below 32 and the NFR field share no bit, so each is read back from its own bits. -/
theorem configFields_of_lt {n : Nat} (h : n < 32) :
    let w : Word := BitVec.ofNat 32 n ||| (4 <<< 8)
    (w.extractLsb' 0 5).toNat = n ∧ w.extractLsb' 5 3 = 0 ∧ w.extractLsb' 8 8 = 4 ∧ w.extractLsb' 16 16 = 0 := by
  revert n
  decide

theorem bufLog2_bounds (s : State) : 6 ≤ bufLog2 s ∧ bufLog2 s ≤ 15 := by
  unfold bufLog2
  omega

/-- The fields of CONFIG (R41). -/
theorem configWord_fields (s : State) :
    ((configWord s).extractLsb' 0 5).toNat = bufLog2 s ∧ (configWord s).extractLsb' 5 3 = 0 ∧
      (configWord s).extractLsb' 8 8 = 4 ∧ (configWord s).extractLsb' 16 16 = 0 :=
  configFields_of_lt (by have := bufLog2_bounds s; omega)

theorem flagAt_zero (b : Bool) : flagAt b 0 = if b then 1 else 0 := by
  cases b <;> rfl

theorem ctrlWord_eq (s : State) : ctrlWord s = if s.irqEn then 1 else 0 := flagAt_zero s.irqEn

/-! ### Reads and writes as steps -/

/-- A read's answer does not depend on what is next on the agenda. -/
theorem readResponse_agenda (s : State) (rest : List Event) (x : Target) :
    readResponse { s with agenda := rest } x = readResponse s x := by
  cases x <;> rfl

theorem readDraws_agenda (s : State) (rest : List Event) (x : Target) :
    readDraws { s with agenda := rest } x = readDraws s x := by
  cases x <;> rfl

/-- A read that takes no draw changes the response alone. -/
theorem hostRead_target {s : State} {a : BitVec 16} {x : Target} (hx : target (bufBytes s) a = x)
    (hd : readDraws s x = false) : hostRead a s = { s with busOut := some (readResponse s x) } := by
  simp [hostRead, hx, hd]

/-- A write does what its target says and answers as its target says. -/
theorem hostWrite_target {s : State} {a : BitVec 16} {x : Target} (v : Word) (hx : target (bufBytes s) a = x) :
    hostWrite a v s = { writeTarget v s x with busOut := some (writeResponse x) } := by
  simp [hostWrite, hx]

theorem step_read_target {s : State} {a : BitVec 16} {x : Target} {rest : List Event} (hr : s.inputs.rst = false)
    (hx : target (bufBytes s) a = x) (hd : readDraws s x = false) :
    step { s with agenda := .read a :: rest } =
      .next { s with agenda := rest, busOut := some (readResponse s x) } := by
  have read := hostRead_target (s := { s with agenda := rest }) hx ((readDraws_agenda s rest x).trans hd)
  rw [readResponse_agenda] at read
  exact (step_read (s := { s with agenda := .read a :: rest }) rfl hr).trans (congrArg _ read)

theorem step_write_target {s : State} {a : BitVec 16} {x : Target} {v : Word} {rest : List Event}
    (hr : s.inputs.rst = false) (hx : target (bufBytes s) a = x) :
    step { s with agenda := .write a v :: rest } =
      .next { writeTarget v { s with agenda := rest } x with busOut := some (writeResponse x) } := by
  have write := hostWrite_target (s := { s with agenda := rest }) v hx
  exact (step_write (s := { s with agenda := .write a v :: rest }) rfl hr).trans (congrArg _ write)

/-! ### ID, CONFIG and CTRL -/

/-- Settles O53: each access steps by the rule of its target, and the words are those of `idWord`, `configWord_fields`
and `ctrlWord_eq`. -/
theorem idConfigAndControl : Obligations.IdConfigAndControl := by
  unfold Obligations.IdConfigAndControl
  intro s v rest hr answer
  have readId : answer s 0x000 idWord := step_read_target hr (target_id _) rfl
  have readConfig : answer s 0x004 (configWord s) := step_read_target hr (target_config _) rfl
  have writeCtrl := step_write_target (v := v) (rest := rest) hr (target_ctrl (bufBytes s))
  refine ⟨readId, ⟨configWord s, readConfig, ?_⟩, ?_, _, writeCtrl, rfl, ?_⟩
  · obtain ⟨hlog, hgap, hnfr, hhigh⟩ := configWord_fields s
    obtain ⟨hmin, hmax⟩ := bufLog2_bounds s
    rw [hlog]
    exact ⟨rfl, hmin, hmax, hgap, hnfr, hhigh⟩
  · rintro a (rfl | rfl)
    · exact step_write_target hr (target_id _)
    · exact step_write_target hr (target_config _)
  · have readCtrl := step_read_target (rest := rest)
      (s := { writeTarget v { s with agenda := rest } .ctrl with busOut := some (writeResponse .ctrl) })
      hr (target_ctrl _) rfl
    rwa [readResponse, ctrlWord_eq] at readCtrl

end Sys2Proof.Machine
end

section
/-! PROOFS. Host accesses over the whole address map: which addresses are answered with ERROR, the reserved bits of the
registers, and the words of the field-register and buffer windows; then the statements about misaligned and unlisted
accesses and about the two windows. -/

namespace Sys2Proof.Machine

/-! ### The address map: what is listed and what is not (R77 to R79) -/

@[simp] theorem target_status (size : Nat) : target size 0x00C = .status := rfl
@[simp] theorem target_cmd (size : Nat) : target size 0x010 = .cmd := rfl

theorem target_of_misaligned {size : Nat} {a : BitVec 16} (h : a.toNat % 4 ≠ 0) : target size a = .misaligned :=
  if_pos h

/-- The registers below offset 0x040 stand at the multiples of 4 up to 0x028. -/
theorem lowTarget_of_le {n : Nat} (h4 : n % 4 = 0) (hn : n ≤ 0x028) :
    lowTarget n ≠ .misaligned ∧ lowTarget n ≠ .unmapped := by
  have registers : ∀ m ≤ 10, lowTarget (4 * m) ≠ .misaligned ∧ lowTarget (4 * m) ≠ .unmapped := by decide
  obtain ⟨m, rfl⟩ : ∃ m, n = 4 * m := ⟨n / 4, by omega⟩
  exact registers m (by omega)

theorem lowTarget_of_gt {n : Nat} (hn : 0x028 < n) : lowTarget n = .unmapped := by
  unfold lowTarget
  split
  any_goals omega
  rfl

theorem target_of_not_listed {size : Nat} {a : BitVec 16} (h4 : a.toNat % 4 = 0)
    (h : ¬Sys2Proof.Claims.Listed size a) : target size a = .unmapped := by
  obtain ⟨low, fields, buffer⟩ : ¬a.toNat ≤ 0x028 ∧ ¬(0x040 ≤ a.toNat ∧ a.toNat < 0x080) ∧
      ¬(0x8000 ≤ a.toNat ∧ a.toNat < 0x8000 + size) := by
    simpa only [Sys2Proof.Claims.Listed, h4, true_and, not_or] using h
  have aligned : ¬a.toNat % 4 ≠ 0 := by omega
  simp only [target, if_neg aligned, if_neg buffer]
  split
  · exact lowTarget_of_gt (by omega)
  · exact if_neg (by omega)

theorem target_of_listed {size : Nat} {a : BitVec 16} (h : Sys2Proof.Claims.Listed size a) :
    target size a ≠ .misaligned ∧ target size a ≠ .unmapped := by
  obtain ⟨h4, range⟩ := h
  have aligned : ¬a.toNat % 4 ≠ 0 := by omega
  simp only [target, if_neg aligned]
  split
  · exact lowTarget_of_le h4 (by omega)
  · split
    · simp
    · rw [if_pos (by omega)]
      simp

/-! ### How an access ends (R77, R78) -/

/-- An access that names no register ends with ERROR and changes nothing. -/
theorem step_error_target {s : State} {a : BitVec 16} {x : Target} {v : Word} {rest : List Event}
    (hr : s.inputs.rst = false) (hx : target (bufBytes s) a = x) (he : x = .misaligned ∨ x = .unmapped) :
    step { s with agenda := .read a :: rest } = .next { s with agenda := rest, busOut := some (.errorRead 0) } ∧
      step { s with agenda := .write a v :: rest } =
        .next { s with agenda := rest, busOut := some .errorWrite } := by
  rcases he with rfl | rfl
  · exact ⟨step_read_target hr hx rfl, step_write_target hr hx⟩
  · exact ⟨step_read_target hr hx rfl, step_write_target hr hx⟩

theorem readResponse_okay (s : State) {x : Target} (hm : x ≠ .misaligned) (hu : x ≠ .unmapped) :
    ∃ w, readResponse s x = .okayRead w := by
  cases x with
  | misaligned => exact absurd rfl hm
  | unmapped => exact absurd rfl hu
  | id | config | ctrl | status | cmd | arg | frWord | bufWord => exact ⟨_, rfl⟩

theorem writeResponse_okay {x : Target} (hm : x ≠ .misaligned) (hu : x ≠ .unmapped) :
    writeResponse x = .okayWrite := by
  cases x with
  | misaligned => exact absurd rfl hm
  | unmapped => exact absurd rfl hu
  | id | config | ctrl | status | cmd | arg | frWord | bufWord => rfl

theorem step_read_listed {s : State} {a : BitVec 16} {rest : List Event} (hr : s.inputs.rst = false)
    (h : Sys2Proof.Claims.Listed (bufBytes s) a) :
    ∃ t w, step { s with agenda := .read a :: rest } = .next t ∧ t.busOut = some (.okayRead w) := by
  obtain ⟨hm, hu⟩ := target_of_listed h
  obtain ⟨w, answer⟩ := readResponse_okay { s with agenda := rest } hm hu
  exact ⟨_, w, step_read (s := { s with agenda := .read a :: rest }) rfl hr, congrArg some answer⟩

theorem step_write_listed {s : State} {a : BitVec 16} {v : Word} {rest : List Event} (hr : s.inputs.rst = false)
    (h : Sys2Proof.Claims.Listed (bufBytes s) a) :
    ∃ t, step { s with agenda := .write a v :: rest } = .next t ∧ t.busOut = some .okayWrite := by
  obtain ⟨hm, hu⟩ := target_of_listed h
  exact ⟨_, step_write_target hr rfl, congrArg some (writeResponse_okay hm hu)⟩

/-- Settles O47: the target of such an address is `misaligned`. -/
theorem misalignedAccessHasNoEffect : Obligations.MisalignedAccessHasNoEffect := by
  unfold Obligations.MisalignedAccessHasNoEffect
  intro s a v rest hr ha
  exact step_error_target hr (target_of_misaligned ha) (.inl rfl)

/-! ### The reserved bits (R39, R41, R42, R78) -/

/-- A bit inside a field that reads 0 is clear. -/
theorem getLsbD_of_extractLsb'_eq_zero {w : Word} {start len k : Nat} (h : w.extractLsb' start len = 0)
    (hk : start ≤ k) (hlt : k < start + len) : w.getLsbD k = false := by
  have bit := congrArg (·.getLsbD (k - start)) h
  have inside : k - start < len := by omega
  simpa [inside, hk] using bit

theorem flagAt_getLsbD_of_ne {b : Bool} {k i : Nat} (h : i ≠ k) : (flagAt b k).getLsbD i = false := by
  rcases Nat.lt_or_ge i k with below | above
  · simp [flagAt, below]
  · have : i - k ≠ 0 := by omega
    simp [flagAt, this]

/-- An error code shifted to bit `k` sets no bit outside its four. -/
theorem shiftedCode_getLsbD_outside {c : ErrCode} {k i : Nat} (h : i < k ∨ k + 4 ≤ i) :
    (c.code.setWidth 32 <<< k).getLsbD i = false := by
  rcases h with below | above
  · simp [below]
  · have : c.code.getLsbD (i - k) = false := BitVec.getLsbD_of_ge _ _ (by omega)
    simp [this]

theorem statusWord_reserved (s : State) {k : Nat} (h : k = 6 ∨ k = 7 ∨ 16 ≤ k) :
    (statusWord s).getLsbD k = false := by
  simp (disch := omega) only [statusWord, BitVec.getLsbD_or, flagAt_getLsbD_of_ne, shiftedCode_getLsbD_outside,
    Bool.or_false]

theorem ctrlWord_reserved (s : State) {k : Nat} (h : 1 ≤ k) : (ctrlWord s).getLsbD k = false :=
  flagAt_getLsbD_of_ne (by omega)

theorem configWord_reserved (s : State) {k : Nat} (h : (5 ≤ k ∧ k < 8) ∨ 16 ≤ k) :
    (configWord s).getLsbD k = false := by
  obtain ⟨-, hgap, -, hhigh⟩ := configWord_fields s
  rcases h with ⟨h5, h8⟩ | h16
  · exact getLsbD_of_extractLsb'_eq_zero hgap h5 h8
  · rcases Nat.lt_or_ge k 32 with inside | outside
    · exact getLsbD_of_extractLsb'_eq_zero hhigh h16 inside
    · exact BitVec.getLsbD_of_ge _ _ outside

/-- A write to STATUS acts by its bits 1 to 3 alone. -/
theorem Status.clearedBy_congr {v v' : Word} (h : ∀ k, 1 ≤ k → k < 4 → v'.getLsbD k = v.getLsbD k) (t : Status) :
    t.clearedBy v' = t.clearedBy v := by
  simp only [Status.clearedBy, h 1 (by omega) (by omega), h 2 (by omega) (by omega), h 3 (by omega) (by omega)]

/-- Two values that do the same to the target of an address give the same step. -/
theorem step_write_congr {s : State} {a : BitVec 16} {x : Target} {v v' : Word} {rest : List Event}
    (hr : s.inputs.rst = false) (hx : target (bufBytes s) a = x)
    (h : writeTarget v' { s with agenda := rest } x = writeTarget v { s with agenda := rest } x) :
    step { s with agenda := .write a v' :: rest } = step { s with agenda := .write a v :: rest } := by
  rw [step_write_target hr hx, step_write_target hr hx, h]

/-- Settles O48: the target of an address decides how an access ends, and no reserved bit is stored or read. -/
theorem unlistedAddressHasNoEffect : Obligations.UnlistedAddressHasNoEffect := by
  unfold Obligations.UnlistedAddressHasNoEffect
  intro s a v rest hr
  refine ⟨fun h4 h => step_error_target hr (target_of_not_listed h4 h) (.inr rfl),
    fun h => ⟨step_read_listed hr h, step_write_listed hr h⟩, fun _ => statusWord_reserved s,
    fun _ => ctrlWord_reserved s, fun _ => configWord_reserved s, ?_, ?_, step_write_target hr (target_id _),
    step_write_target hr (target_config _), step_read_target hr (target_cmd _) rfl⟩
  · intro t t' v' bits ht ht'
    have same := step_write_congr (rest := rest) hr (target_status _)
      (congrArg (fun u => { s with agenda := rest, status := u }) (Status.clearedBy_congr bits s.status))
    exact Host.Outcome.next.inj (ht'.symm.trans (same.trans ht))
  · intro t t' v' bit ht ht'
    have same := step_write_congr (rest := rest) hr (target_ctrl _)
      (congrArg (fun b => { s with agenda := rest, irqEn := b }) bit)
    exact Host.Outcome.next.inj (ht'.symm.trans (same.trans ht))

/-! ### The words of a field register (R80) -/

/-- Byte `k` of word `j` is wire byte `4j + k`. -/
theorem elemWord_byte (e : Elem) (j : Fin 4) {k : Nat} (hk : k < 4) :
    some ((elemWord e j).extractLsb' (8 * k) 8) = (bytesOf e)[4 * j.val + k]? := by
  have inside : 4 * j.val + k < (bytesOf e).length := by simp; omega
  rw [List.getElem?_eq_getElem inside, bytesOf_getElem, elemWord]
  congr 1
  apply BitVec.eq_of_getLsbD_eq
  intro i hi
  have inWord : 8 * k + i < 32 := by omega
  have offset : 32 * j.val + (8 * k + i) = 8 * (4 * j.val + k) + i := by omega
  simp [hi, inWord, offset]

/-- Setting word `j` sets its 32 bits and keeps the other 96. -/
theorem setElemWord_getLsbD (e : Elem) (j : Fin 4) (w : Word) {k : Nat} (hk : k < 128) :
    (setElemWord e j w).getLsbD k = if k / 32 = j.val then w.getLsbD (k % 32) else e.getLsbD k := by
  have ones : (0xFFFFFFFF#128) = (BitVec.allOnes 32).setWidth 128 := rfl
  simp only [setElemWord, ones, BitVec.getLsbD_or, BitVec.getLsbD_and, BitVec.getLsbD_not,
    BitVec.getLsbD_shiftLeft, BitVec.getLsbD_setWidth, BitVec.getLsbD_allOnes]
  rcases Nat.lt_or_ge k (32 * j.val) with below | above
  · have word : k / 32 ≠ j.val := by omega
    simp [hk, below, word]
  · have notBelow : ¬k < 32 * j.val := by omega
    rcases Nat.lt_or_ge (k - 32 * j.val) 32 with inside | beyond
    · have word : k / 32 = j.val := by omega
      have bit : k - 32 * j.val = k % 32 := by omega
      have bound : k % 32 < 32 ∧ k % 32 < 128 := by omega
      simp [hk, notBelow, word, bit, bound]
    · have word : k / 32 ≠ j.val := by omega
      have outside : ¬k - 32 * j.val < 32 := by omega
      have clear : w.getLsbD (k - 32 * j.val) = false := BitVec.getLsbD_of_ge _ _ beyond
      simp [hk, word, outside, clear]

theorem readResponse_frWord {s : State} (r : FReg) (j : Fin 4) (hb : s.status.busy = false) :
    readResponse s (.frWord r j) = .okayRead (elemWord (s.fr.read r) j) := by
  simp [readResponse, hb]

theorem writeTarget_frWord {s : State} (v : Word) (r : FReg) (j : Fin 4) (hb : s.status.busy = false) :
    writeTarget v s (.frWord r j) = { s with fr := s.fr.write r (setElemWord (s.fr.read r) j v) } := by
  simp [writeTarget, unlessBusy, hb]

/-- Settles O49: both accesses step by the rule of the target `frWord`, whose word `elemWord_byte` reads and
`setElemWord_getLsbD` writes. -/
theorem fieldWordAccess : Obligations.FieldWordAccess := by
  unfold Obligations.FieldWordAccess
  intro s r j v rest hr hb hj a
  obtain ⟨i, rfl⟩ : ∃ i : Fin 4, i.val = j := ⟨⟨j, hj⟩, rfl⟩
  have hx : target (bufBytes s) a = .frWord r i := by
    rw [target_frWord _ r i hj, Fin.ofNat_val_eq_self]
  have read := step_read_target (rest := rest) hr hx hb
  have write := step_write_target (v := v) (rest := rest) hr hx
  rw [readResponse_frWord r i hb] at read
  rw [writeTarget_frWord (s := { s with agenda := rest }) v r i hb] at write
  refine ⟨⟨_, read, fun k hk => elemWord_byte _ i hk⟩, _, write, rfl, ?_, ?_⟩
  · exact fun q hq => FieldRegs.read_write_other _ _ _ _ hq
  · intro k hk
    rw [FieldRegs.read_write_same, setElemWord_getLsbD _ i v hk]

/-! ### The words of BUF (R81) -/

theorem shiftLeft_or_setWidth {n : Nat} (x : BitVec n) (b : Byte) :
    (x.setWidth 32 <<< 8) ||| b.setWidth 32 = (x ++ b).setWidth 32 := by
  apply BitVec.eq_of_getLsbD_eq
  intro i hi
  by_cases low : i < 8
  · simp [low, hi, BitVec.getLsbD_append]
  · simp [low, hi, BitVec.getLsbD_append, BitVec.getLsbD_of_ge b i (by omega)]

theorem wordOf_cons (b : Byte) (bs : List Byte) : wordOf (b :: bs) = (wordOf bs <<< 8) ||| b.setWidth 32 := rfl

/-- The first byte of a host word is its lowest. -/
theorem wordOf_four (b0 b1 b2 b3 : Byte) : wordOf [b0, b1, b2, b3] = b3 ++ b2 ++ b1 ++ b0 := by
  have last : wordOf [b3] = b3.setWidth 32 := by simp [wordOf]
  simp only [wordOf_cons b0, wordOf_cons b1, wordOf_cons b2, last, shiftLeft_or_setWidth, BitVec.setWidth_eq]

/-- A word of four written bytes is those bytes, and a read of it takes no draw. -/
theorem readResponse_bufWord {s : State} {k : Nat} {b0 b1 b2 b3 : Byte} (hb : s.status.busy = false)
    (h : BytesAt s.buf (4 * k) [b0, b1, b2, b3]) :
    readDraws s (.bufWord k) = false ∧ readResponse s (.bufWord k) = .okayRead (b3 ++ b2 ++ b1 ++ b0) := by
  have h0 : s.buf.read (4 * k) = some b0 := h 0 (by simp)
  have h1 : s.buf.read (4 * k + 1) = some b1 := h 1 (by simp)
  have h2 : s.buf.read (4 * k + 2) = some b2 := h 2 (by simp)
  have h3 : s.buf.read (4 * k + 3) = some b3 := h 3 (by simp)
  constructor
  · simp [readDraws, bufWordWritten, List.range_succ, hb, h0, h1, h2, h3]
  · simp [readResponse, bufWordWith, List.range_succ, hb, h0, h1, h2, h3, wordOf_four]

theorem writeTarget_bufWord {s : State} (v : Word) (k : Nat) (hb : s.status.busy = false) :
    writeTarget v s (.bufWord k) = { s with buf := s.buf.writeBytes (4 * k) (wordBytes v) } := by
  simp [writeTarget, unlessBusy, hb]

/-- Settles O50: both accesses step by the rule of the target `bufWord`, and the write is one of four bytes. -/
theorem bufferWordAccess : Obligations.BufferWordAccess := by
  unfold Obligations.BufferWordAccess
  intro s k v rest hr hb hk a
  obtain ⟨-, -, size⟩ := bufBytes_bounds s
  have hx : target (bufBytes s) a = .bufWord k := target_bufWord _ k size hk
  have write := step_write_target (v := v) (rest := rest) hr hx
  rw [writeTarget_bufWord (s := { s with agenda := rest }) v k hb] at write
  refine ⟨fun b0 b1 b2 b3 written => ?_, _, write, rfl, ?_, ?_⟩
  · obtain ⟨noDraw, answer⟩ := readResponse_bufWord hb written
    rw [step_read_target hr hx noDraw, answer]
  · intro j hj
    have inside : j < (wordBytes v).length := by simpa using hj
    rw [Memory.bytesAt_writeBytes _ _ _ j inside, wordBytes_getElem]
  · intro x outside
    exact Memory.read_writeBytes_outside _ _ _ _ (by simpa using outside)

end Sys2Proof.Machine
end

section
/-! PROOFS. The field arithmetic as arithmetic of polynomials over GF(2) modulo `P`: what XOR, the shift and the literals
are as polynomials, and that doubling, the plain product and `dot` are the operations of `GF(2)[x] / P` on the classes
of their operands. -/

namespace Sys2Proof.Machine

open Sys2Proof.Claims Polynomial

/-! ### Bit vectors as polynomials (R130, R135) -/

/-- One coefficient of a sum: XOR of two bits is their sum over GF(2). -/
theorem ite_xor_eq_add (b c : Bool) (p : (ZMod 2)[X]) :
    (if (b ^^ c) then p else 0) = (if b then p else 0) + (if c then p else 0) := by
  cases b with
  | false => simp
  | true =>
    cases c with
    | false => simp
    | true => simp [CharTwo.add_self_eq_zero]

@[simp] theorem poly_zero (n : Nat) : poly (0#n) = 0 := by
  simp [poly]

@[simp] theorem poly_xor {n : Nat} (v w : BitVec n) : poly (v ^^^ w) = poly v + poly w := by
  simp only [poly, BitVec.getLsbD_xor, ite_xor_eq_add, Finset.sum_add_distrib]

/-- The vector with bit `i` alone is `x^i`. -/
theorem poly_twoPow {n i : Nat} (h : i < n) : poly (BitVec.twoPow n i) = X ^ i := by
  simp [poly, BitVec.getLsbD_twoPow, h]

/-- A shift by one is a product by `x` without the term of the bit that is shifted out. -/
theorem poly_mul_X {n : Nat} (v : BitVec (n + 1)) :
    poly v * X = poly (v <<< 1) + if v.getLsbD n then X ^ (n + 1) else 0 := by
  have shifted : poly (v <<< 1) = ∑ i ∈ Finset.range n, if v.getLsbD i then X ^ (i + 1) else 0 := by
    rw [poly, Finset.sum_range_succ']
    simp +contextual [Finset.sum_congr]
  rw [shifted, poly, Finset.sum_range_succ, add_mul, Finset.sum_mul]
  simp only [ite_mul, zero_mul, pow_succ]

/-! ### Classes modulo `P` -/

/-- The class of a field element in `GF(2)[x] / P` (R130). -/
noncomputable def residue (a : Elem) : AdjoinRoot fieldPoly := AdjoinRoot.mk fieldPoly (poly a)

/-- An equation between classes is a divisibility by `P`. -/
theorem mk_eq_residue_mul_root_pow_iff (p : (ZMod 2)[X]) (a : Elem) (k : Nat) :
    AdjoinRoot.mk fieldPoly p = residue a * AdjoinRoot.root fieldPoly ^ k ↔ fieldPoly ∣ p - poly a * X ^ k := by
  rw [← AdjoinRoot.mk_eq_mk, map_mul, map_pow, AdjoinRoot.mk_X, residue]

@[simp] theorem residue_zero : residue 0#128 = 0 := by
  simp [residue]

@[simp] theorem residue_xor (a b : Elem) : residue (a ^^^ b) = residue a + residue b := by
  simp [residue]

theorem residue_one : residue 1 = 1 := by
  have one : (1 : Elem) = BitVec.twoPow 128 0 := rfl
  rw [residue, one, poly_twoPow (by omega), pow_zero, map_one]

theorem poly_x128 : poly x128 = X ^ 127 + X ^ 126 + X ^ 121 + 1 := by
  have bits : x128 = BitVec.twoPow 128 127 ^^^ BitVec.twoPow 128 126 ^^^ BitVec.twoPow 128 121 ^^^
      BitVec.twoPow 128 0 := rfl
  simp only [bits, poly_xor, poly_twoPow, Nat.reduceLT, pow_zero]

theorem fieldPoly_eq : fieldPoly = X ^ 128 + poly x128 := by
  unfold fieldPoly
  simp only [poly_x128, add_assoc]

/-- X128 is `x^128 mod P` (R130). -/
theorem residue_x128 : residue x128 = AdjoinRoot.root fieldPoly ^ 128 := by
  rw [residue, ← AdjoinRoot.mk_X, ← map_pow, eq_comm, AdjoinRoot.mk_eq_mk, CharTwo.sub_eq_add, ← fieldPoly_eq]

/-! ### Doubling and the products (R130, R131, R134) -/

@[simp] theorem residue_double (a : Elem) : residue (double a) = residue a * AdjoinRoot.root fieldPoly := by
  have carry : residue (if a.getLsbD 127 then x128 else 0) =
      AdjoinRoot.mk fieldPoly (if a.getLsbD 127 then X ^ 128 else 0) := by
    split
    · rw [residue_x128, map_pow, AdjoinRoot.mk_X]
    · simp
  calc residue (double a)
      = AdjoinRoot.mk fieldPoly (poly (a <<< 1) + if a.getLsbD 127 then X ^ 128 else 0) := by
        rw [double, residue_xor, carry, map_add, residue]
    _ = residue a * AdjoinRoot.root fieldPoly := by
        rw [← poly_mul_X, map_mul, AdjoinRoot.mk_X, residue]

/-- Horner's rule: steps that multiply by `r` and add `c i`, taken from `i = n - 1` down to 0, give the value at `r` of
the polynomial with the coefficients `c`. -/
theorem foldr_range_horner {α R : Type} [CommSemiring R] (φ : α → R) (f : Nat → α → α) (c : Nat → R) (r : R)
    (step : ∀ i acc, φ (f i acc) = φ acc * r + c i) (n : Nat) (init : α) :
    φ ((List.range n).foldr f init) = φ init * r ^ n + ∑ i ∈ Finset.range n, c i * r ^ i := by
  induction n generalizing init with
  | zero => simp
  | succ n ih =>
    rw [List.range_succ, List.foldr_append, List.foldr_cons, List.foldr_nil, ih, step, Finset.sum_range_succ]
    ring

/-- `mulMod` is the product modulo `P` (R130). -/
@[simp] theorem residue_mulMod (a b : Elem) : residue (mulMod a b) = residue a * residue b := by
  have horner := foldr_range_horner residue (fun i acc => double acc ^^^ if b.getLsbD i then a else 0)
    (fun i => if b.getLsbD i then residue a else 0) (AdjoinRoot.root fieldPoly)
    (by simp [apply_ite residue]) 128 0
  have bits : residue b = ∑ i ∈ Finset.range 128, if b.getLsbD i then AdjoinRoot.root fieldPoly ^ i else 0 := by
    simp [residue, poly, apply_ite (AdjoinRoot.mk fieldPoly)]
  rw [mulMod, horner, bits, Finset.mul_sum]
  simp

/-- The constant of R131 is the inverse of `x^128`: the model's own product of the two is 1. -/
theorem residue_xInv128_mul : residue xInv128 * AdjoinRoot.root fieldPoly ^ 128 = 1 := by
  have product : mulMod xInv128 x128 = 1 := by decide +kernel
  rw [← residue_x128, ← residue_mulMod, product, residue_one]

/-- `dot(a, b) · x^128` is `a · b` modulo `P` (R131). -/
theorem residue_dot_mul (a b : Elem) :
    residue (dot a b) * AdjoinRoot.root fieldPoly ^ 128 = residue a * residue b := by
  rw [dot, residue_mulMod, residue_mulMod, mul_assoc, residue_xInv128_mul, mul_one]

/-- Settles O7: both divisibilities are equations between classes modulo `P`. -/
theorem dotIsPolyvalProduct : Obligations.DotIsPolyvalProduct := by
  unfold Obligations.DotIsPolyvalProduct
  constructor
  · intro a b
    rw [← mk_eq_residue_mul_root_pow_iff, map_mul]
    exact (residue_dot_mul a b).symm
  · rw [dvd_sub_comm, ← mk_eq_residue_mul_root_pow_iff, map_one]
    exact residue_xInv128_mul.symm

end Sys2Proof.Machine
end

section
/-! PROOFS. What a command that gives a next state leaves of the field registers and of H; then the statement about
`pv.sum`, commands in between, and `pv.rest`. -/

namespace Sys2Proof.Machine

open Sys2Proof.Claims

/-! ### The next states of the shared operations -/

/-- A command with exchanges takes its state, or waits and keeps everything (R305). -/
theorem exchange_next {log : List BcExchange} {s after t : State} (run : exchange log s after = .next t) :
    t = { after with bcLog := s.bcLog ++ log, port := Port.idle } ∨ t = s := by
  rcases exchange_cases log s after with ⟨-, taken⟩ | ⟨-, -, waits⟩
  · exact .inl (Host.Outcome.next.inj (run.symm.trans taken))
  · exact .inr (Host.Outcome.next.inj (run.symm.trans waits))

theorem finishField_next {rd : FReg} {v : Elem} {s t : State} (run : finishField rd v s = .next t) :
    t.fr = s.fr.write rd v ∧ t.h = s.h := by
  cases run
  exact ⟨rfl, rfl⟩

theorem execPvUpdb_next {s t : State} (run : execPvUpdb s = .next t) : t.fr = s.fr ∧ t.h = s.h := by
  unfold execPvUpdb at run
  split at run
  · cases run
    exact ⟨rfl, rfl⟩
  · rcases readBuf_cases s s.curArg.src s.curArg.len fun bs =>
      .next (complete { s with y := absorbBytes s.h s.y bs }) with ⟨bs, -, -, read⟩ | ⟨e, -, -, read⟩
    · cases run.symm.trans read
      exact ⟨rfl, rfl⟩
    · cases run.symm.trans read

theorem execXctr_next {rs1 : FReg} {s t : State} (run : execXctr rs1 s = .next t) : t.fr = s.fr ∧ t.h = s.h := by
  rcases execXctr_cases rs1 s with ⟨c, -, error⟩ | ⟨-, e, -, -, fault⟩ | ⟨-, bs, -, -, exchanges⟩
  · cases run.symm.trans error
    exact ⟨rfl, rfl⟩
  · cases run.symm.trans fault
  · rcases exchange_next (exchanges.symm.trans run) with rfl | rfl <;> exact ⟨rfl, rfl⟩

theorem hctr2Run_next {dir : BcDir} {s t : State} (run : hctr2Run dir s = .next t) : t.fr = s.fr ∧ t.h = s.h := by
  rcases hctr2Run_cases dir s with ⟨c, -, error⟩ | ⟨-, e, -, -, fault⟩ | ⟨-, p, k, -, -, -, -, exchanges⟩
  · cases run.symm.trans error
    exact ⟨rfl, rfl⟩
  · cases run.symm.trans fault
  · rcases exchange_next (exchanges.symm.trans run) with rfl | rfl <;> exact ⟨rfl, rfl⟩

theorem execHctr2Init_next_fr {s t : State} (run : execHctr2Init s = .next t) : t.fr = s.fr := by
  unfold execHctr2Init at run
  split at run
  · cases run
    rfl
  · rcases exchange_next run with rfl | rfl <;> rfl

/-! ### What a command leaves unchanged (R30, R31) -/

/-- A command leaves every field register that it does not write. -/
theorem exec_next_read {i : Instr} {d : FReg} {s t : State} (run : exec i s = .next t)
    (other : writtenReg i ≠ some d) : t.fr.read d = s.fr.read d := by
  have written : ∀ {rd v}, t.fr = s.fr.write rd v → some rd ≠ some d → t.fr.read d = s.fr.read d :=
    fun fr ne => fr ▸ FieldRegs.read_write_other _ _ _ _ fun same => ne (congrArg some same.symm)
  cases i with
  | nop => cases run; rfl
  | feXor rd _ _ => exact written (finishField_next run).1 other
  | feMul rd _ _ => exact written (finishField_next run).1 other
  | feDbl rd _ => exact written (finishField_next run).1 other
  | pvInit _ => cases run; rfl
  | pvReset => cases run; rfl
  | pvUpd _ => cases run; rfl
  | pvUpdb => rw [(execPvUpdb_next run).1]
  | pvSum rd => cases run; exact written rfl other
  | pvRest _ => cases run; rfl
  | xctr _ => rw [(execXctr_next run).1]
  | hctr2Init => rw [execHctr2Init_next_fr run]
  | hctr2Enc => rw [(hctr2Run_next run).1]
  | hctr2Dec => rw [(hctr2Run_next run).1]

/-- Only `pv.init` and `hctr2.init` write H. -/
theorem exec_next_h {i : Instr} {s t : State} (run : exec i s = .next t) (notPvInit : ∀ r, i ≠ .pvInit r)
    (notInit : i ≠ .hctr2Init) : t.h = s.h := by
  cases i with
  | nop => cases run; rfl
  | feXor _ _ _ => exact (finishField_next run).2
  | feMul _ _ _ => exact (finishField_next run).2
  | feDbl _ _ => exact (finishField_next run).2
  | pvInit r => exact absurd rfl (notPvInit r)
  | pvReset => cases run; rfl
  | pvUpd _ => cases run; rfl
  | pvUpdb => exact (execPvUpdb_next run).2
  | pvSum _ => cases run; rfl
  | pvRest _ => cases run; rfl
  | xctr _ => exact (execXctr_next run).2
  | hctr2Init => exact absurd rfl notInit
  | hctr2Enc => exact (hctr2Run_next run).2
  | hctr2Dec => exact (hctr2Run_next run).2

/-! ### Snapshot and restore (R157 to R159) -/

/-- What agreement on FR[d] and H keeps, and each of the commands keeps, is kept from the first state to the last. -/
theorem runsBetween_keeps {α : Type} {f : State → α} {d : FReg} {is : List Instr} {s u : State}
    (agree : ∀ {s t}, AgreeOn d s t → f t = f s)
    (keep : ∀ i ∈ is, ∀ {s t}, exec i s = .next t → f t = f s) (runs : RunsBetween d is s u) : f u = f s := by
  induction is generalizing s with
  | nil => exact agree runs
  | cons i is ih =>
    obtain ⟨s', t, start, run, rest⟩ := runs
    calc f u = f t := ih (fun j mem => keep j (List.mem_cons_of_mem i mem)) rest
      _ = f s' := keep i List.mem_cons_self run
      _ = f s := agree start

/-- Settles O21: FR[d] carries Y from `pv.sum` to `pv.rest`, and H is kept where no command in between writes it. -/
theorem snapshotThenRestore : Obligations.SnapshotThenRestore := by
  unfold Obligations.SnapshotThenRestore
  intro d is s t u v others sum runs rest
  have snapshot : t.fr.read d = s.y := by
    cases sum
    exact FieldRegs.read_write_same _ _ _
  have restored : v.y = u.fr.read d := by
    cases rest
    rfl
  have kept : u.fr.read d = t.fr.read d :=
    runsBetween_keeps (f := fun s => s.fr.read d) And.left (fun i mem _ _ run => exec_next_read run (others i mem)) runs
  have y : v.y = s.y := restored.trans (kept.trans snapshot)
  refine ⟨y, fun noInit bs => ?_⟩
  have keptH : u.h = t.h :=
    runsBetween_keeps (f := State.h) And.right
      (fun i mem _ _ run => exec_next_h run (noInit i mem).1 (noInit i mem).2) runs
  have h : v.h = s.h := by
    calc v.h = u.h := exec_next_h rest (by simp) (by simp)
      _ = t.h := keptH
      _ = s.h := exec_next_h sum (by simp) (by simp)
  rw [h, y]

end Sys2Proof.Machine
end

section
/-! PROOFS. The overlap test; what a step does to H and to the tweak-hash cache, and a cipher command from two current
caches; the effect of a completed cipher command, and decryption after encryption. -/

namespace Sys2Proof.Machine

open Sys2Proof.Claims

/-! ### Partial overlap (R188) -/

theorem partialOverlap_iff (a b n : Nat) :
    partialOverlap a b n = true ↔ 0 < n ∧ a ≠ b ∧ a < b + n ∧ b < a + n := by
  simp [partialOverlap, and_assoc]

/-- Two regions of one length meet where the later of their starts lies in both. -/
theorem exists_mem_both_iff (a b n : Nat) :
    (∃ x, (a ≤ x ∧ x < a + n) ∧ b ≤ x ∧ x < b + n) ↔ 0 < n ∧ a < b + n ∧ b < a + n := by
  constructor
  · rintro ⟨x, inFirst, inSecond⟩
    omega
  · rintro ⟨positive, aBelow, bBelow⟩
    exact ⟨max a b, by omega, by omega⟩

/-- Settles O38: the test is the meeting of two regions whose starts differ. -/
theorem partialOverlapTest : Obligations.PartialOverlapTest := by
  unfold Obligations.PartialOverlapTest
  refine ⟨partialOverlap_iff, fun a b n => ?_, fun _ => rfl⟩
  rw [partialOverlap_iff, exists_mem_both_iff]
  exact and_left_comm

/-! ### The snapshots of a current cache (R183, R186) -/

theorem cacheState_of_hit {c : Cache} {h : Elem} {tlen : Word} (hit : c.valid = true ∧ c.tlen = tlen) :
    cacheState c h tlen = c := by
  simp [cacheState, hit]

theorem cacheState_of_miss {c : Cache} {h : Elem} {tlen : Word} (miss : ¬(c.valid = true ∧ c.tlen = tlen)) :
    cacheState c h tlen = ⟨true, tlen, dot (hdr tlen.toNat false) h, dot (hdr tlen.toNat true) h⟩ := by
  simp only [cacheState, Bool.and_eq_true, beq_iff_eq, if_neg miss]

/-- The snapshot that a cipher command takes from a current cache is the state after the header block, whether the cache
hit or was filled. -/
theorem CacheCurrent.snap_cacheState {s : State} (current : CacheCurrent s) (tlen : Word) (a : Bool) :
    (cacheState s.cache s.h tlen).snap a = dot (hdr tlen.toNat a) s.h := by
  by_cases hit : s.cache.valid = true ∧ s.cache.tlen = tlen
  · obtain ⟨valid, rfl⟩ := hit
    obtain ⟨snap0, snap1⟩ := current valid
    rw [cacheState_of_hit ⟨valid, rfl⟩]
    cases a
    · exact snap0
    · exact snap1
  · rw [cacheState_of_miss hit]
    cases a <;> rfl

/-- From a current cache the nine steps do not read the cache. -/
theorem CacheCurrent.hctr2Of_eq {s : State} (current : CacheCurrent s) (dir : BcDir) (p t : List Byte) :
    hctr2Of dir p t s =
      hctr2Core (ek s) (dk s) dir s.h s.l (dot (hdr s.curArg.tlen.toNat (alignBit (p.length - 16))) s.h) p t := by
  rw [hctr2Of, current.snap_cacheState]

/-! ### What a step does to H and to the cache (R185) -/

/-- All that a step does to H and the cache: it keeps both, it fills the cache under the same H as R183 says, or it
clears CACHE_VALID, after which H is free. -/
inductive CacheStep (s t : State) : Prop where
  | kept (h : t.h = s.h) (cache : t.cache = s.cache)
  | filled (h : t.h = s.h) (tlen : Word) (cache : t.cache = cacheState s.cache s.h tlen)
  | cleared (valid : t.cache.valid = false)

theorem CacheStep.keeps_current {s t : State} (effect : CacheStep s t) (current : CacheCurrent s) :
    CacheCurrent t := by
  cases effect with
  | kept h cache =>
    unfold CacheCurrent
    rwa [h, cache]
  | filled h tlen cache =>
    intro _
    by_cases hit : s.cache.valid = true ∧ s.cache.tlen = tlen
    · rw [cacheState_of_hit hit] at cache
      rw [h, cache]
      exact current hit.1
    · rw [cacheState_of_miss hit] at cache
      rw [h, cache]
      exact ⟨rfl, rfl⟩
  | cleared valid => exact fun held => absurd held (by simp [valid])

theorem finishField_cacheStep {rd : FReg} {v : Elem} {s t : State} (run : finishField rd v s = .next t) :
    CacheStep s t := by
  cases run
  exact .kept rfl rfl

theorem execPvUpdb_cacheStep {s t : State} (run : execPvUpdb s = .next t) : CacheStep s t := by
  unfold execPvUpdb at run
  split at run
  · cases run
    exact .kept rfl rfl
  · rcases readBuf_cases s s.curArg.src s.curArg.len fun bs =>
      .next (complete { s with y := absorbBytes s.h s.y bs }) with ⟨bs, -, -, read⟩ | ⟨e, -, -, read⟩
    · cases run.symm.trans read
      exact .kept rfl rfl
    · cases run.symm.trans read

theorem execXctr_cacheStep {rs1 : FReg} {s t : State} (run : execXctr rs1 s = .next t) : CacheStep s t := by
  rcases execXctr_cases rs1 s with ⟨c, -, error⟩ | ⟨-, e, -, -, fault⟩ | ⟨-, bs, -, -, exchanges⟩
  · cases run.symm.trans error
    exact .kept rfl rfl
  · cases run.symm.trans fault
  · rcases exchange_next (exchanges.symm.trans run) with rfl | rfl <;> exact .kept rfl rfl

theorem execHctr2Init_cacheStep {s t : State} (run : execHctr2Init s = .next t) : CacheStep s t := by
  unfold execHctr2Init at run
  split at run
  · cases run
    exact .kept rfl rfl
  · rcases exchange_next run with rfl | rfl
    · exact .cleared rfl
    · exact .kept rfl rfl

theorem hctr2Run_cacheStep {dir : BcDir} {s t : State} (run : hctr2Run dir s = .next t) : CacheStep s t := by
  rcases hctr2Run_cases dir s with ⟨c, -, error⟩ | ⟨-, e, -, -, fault⟩ | ⟨-, p, k, -, -, -, -, exchanges⟩
  · cases run.symm.trans error
    exact .kept rfl rfl
  · cases run.symm.trans fault
  · rcases exchange_next (exchanges.symm.trans run) with rfl | rfl
    · exact .filled rfl s.curArg.tlen rfl
    · exact .kept rfl rfl

theorem exec_cacheStep {i : Instr} {s t : State} (run : exec i s = .next t) : CacheStep s t := by
  cases i with
  | feXor | feMul | feDbl => exact finishField_cacheStep run
  | pvInit => cases run; exact .cleared rfl
  | nop | pvReset | pvUpd | pvSum | pvRest => cases run; exact .kept rfl rfl
  | pvUpdb => exact execPvUpdb_cacheStep run
  | xctr => exact execXctr_cacheStep run
  | hctr2Init => exact execHctr2Init_cacheStep run
  | hctr2Enc | hctr2Dec => exact hctr2Run_cacheStep run

theorem coreTurn_cacheStep {s t : State} (turn : coreTurn s = .next t) : CacheStep s t := by
  unfold coreTurn runCommand at turn
  split at turn
  · split at turn
    · exact exec_cacheStep turn
    · cases turn
      exact .kept rfl rfl
  · cases turn
    exact .kept rfl rfl

theorem unlessBusy_cacheStep {s taken : State} (effect : CacheStep s taken) : CacheStep s (unlessBusy s taken) := by
  unfold unlessBusy
  split
  · exact .kept rfl rfl
  · exact effect

theorem writeTarget_cacheStep (v : Word) (s : State) (x : Target) : CacheStep s (writeTarget v s x) := by
  cases x with
  | misaligned | unmapped | id | config | ctrl | status => exact .kept rfl rfl
  | cmd | arg | frWord | bufWord => exact unlessBusy_cacheStep (.kept rfl rfl)

theorem hostWrite_cacheStep (a : BitVec 16) (v : Word) (s : State) : CacheStep s (hostWrite a v s) := by
  cases writeTarget_cacheStep v s (target (bufBytes s) a) with
  | kept h cache => exact .kept h cache
  | filled h tlen cache => exact .filled h tlen cache
  | cleared valid => exact .cleared valid

theorem setRst_cacheStep (level : Bool) (s : State) : CacheStep s (setRst level s) := by
  unfold setRst
  split
  · exact .cleared rfl
  · exact .kept rfl rfl

theorem happen_cacheStep {e : Event} {s t : State} (event : happen e s = .next t) : CacheStep s t := by
  cases e with
  | core | setBlockSize | setHasXctr | setAnswers | request | response =>
    cases event
    exact .kept rfl rfl
  | read a =>
    cases event
    split <;> exact .kept rfl rfl
  | write a v =>
    cases event
    split
    · exact .kept rfl rfl
    · exact hostWrite_cacheStep a v s
  | setRst level =>
    cases event
    exact setRst_cacheStep level s
  | rekey | strayResponse =>
    simp only [happen] at event
    split at event <;> cases event
    exact .kept rfl rfl

/-- A step takes the first entry of the agenda, which is the core's turn or an event of the surroundings. -/
theorem step_next {s t : State} (run : step s = .next t) :
    coreTurn (turnTaken s) = .next t ∨ ∃ e, happen e (turnTaken s) = .next t := by
  unfold turnTaken
  unfold step at run
  split at run
  next empty =>
    rw [empty, List.tail_nil, ← empty]
    exact .inl run
  next rest turn =>
    rw [turn]
    exact .inl run
  next e rest _ event =>
    rw [event]
    exact .inr ⟨e, run⟩

theorem step_keeps_cacheCurrent {s t : State} (current : CacheCurrent s) (run : step s = .next t) :
    CacheCurrent t := by
  have started : CacheCurrent (turnTaken s) := current
  rcases step_next run with turn | ⟨e, event⟩
  · exact (coreTurn_cacheStep turn).keeps_current started
  · exact (happen_cacheStep event).keeps_current started

/-! ### A cipher command from two current caches (R186) -/

/-- Two outcomes of a command that are alike but for the cache of the next state. -/
inductive SameButCache : Result → Result → Prop where
  | next (t : State) (c : Cache) : SameButCache (.next t) (.next { t with cache := c })
  | fault (f : Fault) : SameButCache (.fault f) (.fault f)

theorem readBuf_sameButCache {s : State} {c : Cache} {a n : Word} {k k' : List Byte → Result}
    (agree : ∀ bs, SameButCache (k bs) (k' bs)) :
    SameButCache (readBuf s a n k) (readBuf { s with cache := c } a n k') := by
  unfold readBuf
  cases s.buf.readBytes a.toNat n.toNat with
  | error e => exact .fault _
  | ok bs => exact agree bs

theorem exchange_sameButCache (log : List BcExchange) (s after : State) (c c' : Cache) :
    SameButCache (exchange log s after) (exchange log { s with cache := c } { after with cache := c' }) := by
  unfold exchange
  split
  · exact .next _ c'
  · exact .next _ c

/-- A cipher command whose checks pass reads its source and its tweak and makes its exchanges. -/
theorem hctr2Run_of_check {s : State} (check : cipherCheck s = none) (dir : BcDir) :
    hctr2Run dir s = readBuf s s.curArg.src s.curArg.len fun p => readBuf s s.curArg.twk s.curArg.tlen fun t =>
      exchange (hctr2Of dir p t s).log s (hctr2After dir p t s) := by
  simp only [hctr2Run, check, hctr2Of, hctr2After]

/-- The checks pass or fail alike, the reads are the same, and the nine steps give the same from either cache. -/
theorem hctr2Run_sameButCache {s : State} {c : Cache} (current : CacheCurrent s)
    (current' : CacheCurrent { s with cache := c }) (dir : BcDir) :
    SameButCache (hctr2Run dir s) (hctr2Run dir { s with cache := c }) := by
  cases check : cipherCheck s with
  | some code =>
    have check' : cipherCheck { s with cache := c } = some code := check
    simp only [hctr2Run, check, check']
    exact .next (raiseError code s) c
  | none =>
    rw [hctr2Run_of_check check, hctr2Run_of_check (s := { s with cache := c }) check]
    refine readBuf_sameButCache fun p => readBuf_sameButCache fun t => ?_
    have steps : hctr2Of dir p t { s with cache := c } = hctr2Of dir p t s :=
      (current'.hctr2Of_eq dir p t).trans (current.hctr2Of_eq dir p t).symm
    have after : hctr2After dir p t { s with cache := c } =
        { hctr2After dir p t s with cache := cacheState c s.h s.curArg.tlen } := by
      simp only [hctr2After, complete, leaveScratch, steps]
    rw [steps, after]
    exact exchange_sameButCache _ _ _ _ _

/-- Outcomes alike but for the cache have the same bytes of BUF, Y, STATUS and exchanges, or the same fault. -/
theorem SameButCache.results {r r' : Result} (same : SameButCache r r') :
    (∀ t, r = .next t →
      ∃ t', r' = .next t' ∧ SameBuf t t' ∧ t'.y = t.y ∧ t'.status = t.status ∧ t'.bcLog = t.bcLog) ∧
      ∀ f, r = .fault f → r' = .fault f := by
  cases same with
  | next t c =>
    refine ⟨?_, by simp⟩
    rintro _ ⟨⟩
    exact ⟨_, rfl, fun _ => rfl, rfl, rfl, rfl⟩
  | fault f =>
    refine ⟨by simp, ?_⟩
    rintro _ ⟨⟩
    rfl

/-- Settles O32: a step keeps, fills or clears the cache, and a current cache holds what a command would compute. -/
theorem cacheIsTransparent : Obligations.CacheIsTransparent := by
  unfold Obligations.CacheIsTransparent
  refine ⟨fun valid => absurd valid (by decide), fun _ _ => step_keeps_cacheCurrent, ?_⟩
  rintro _ s c (rfl | rfl) current current'
  · exact (hctr2Run_sameButCache current current' .encrypt).results
  · exact (hctr2Run_sameButCache current current' .decrypt).results

/-! ### Decryption after encryption (R195) -/

/-- XCTR with one nonce is its own inverse on byte strings (R225). -/
theorem xctrBytes_xctrBytes (e : Elem → Elem) (n : Elem) (bs : List Byte) :
    xctrBytes e n (xctrBytes e n bs) = bs := by
  refine List.ext_getElem (by simp) fun j _ _ => ?_
  rw [xctrBytes_getElem, xctrBytes_getElem, xor_cancel_right]

/-- The nine steps with `Dk` undo the nine steps with `Ek`: the tail hashes cancel, so MM and UU change places, the
nonce is the same one, and the keystream cancels. -/
theorem hctr2Core_decrypt_encrypt {e d : Elem → Elem} (inverse : ∀ x, d (e x) = x) (h l snap : Elem)
    {p : List Byte} (t : List Byte) (long : 16 ≤ p.length) :
    (hctr2Core e d .decrypt h l snap (hctr2Core e d .encrypt h l snap p t).bytes t).bytes = p := by
  have firstBlock : bytesOf (fe (p.take 16)) = p.take 16 := bytesOf_fe _ (by simpa using long)
  simp only [hctr2Core, stepFive]
  generalize fe (p.take 16) = m at firstBlock ⊢
  have takeFirst (x : Elem) (v : List Byte) : (bytesOf x ++ v).take 16 = bytesOf x := by simp
  have dropFirst (x : Elem) (v : List Byte) : (bytesOf x ++ v).drop 16 = v := by simp
  simp only [takeFirst, dropFirst, fe_bytesOf, xctrBytes_length, xor_cancel_right, inverse]
  rw [BitVec.xor_comm (e _)]
  simp only [xctrBytes_xctrBytes, xor_cancel_right, firstBlock, List.take_append_drop]

/-! ### The state after a completed run -/

/-- The checks report codes other than NONE (R187). -/
theorem cipherCheck_ne_noError (s : State) : cipherCheck s ≠ some .noError := by
  unfold cipherCheck
  repeat' split
  all_goals simp

/-- A completed run of a cipher command on the source `p` and the tweak `t`, with its requests answered, passed its
checks and wrote to its destination what the nine steps give. -/
theorem hctr2Run_completed {dir : BcDir} {s u : State} {p t : List Byte} (sourceLength : p.length = s.curArg.len.toNat)
    (source : BytesAt s.buf s.curArg.src.toNat p) (tweakLength : t.length = s.curArg.tlen.toNat)
    (tweak : BytesAt s.buf s.curArg.twk.toNat t)
    (answered : s.inputs.bcAnswers = true ∨ 1 + ceil16 (s.curArg.len.toNat - 16) ≤ s.port.answered)
    (run : hctr2Run dir s = .next u) (completed : Completed s u) :
    16 ≤ p.length ∧ u.buf = s.buf.writeBytes s.curArg.dst.toNat (hctr2Of dir p t s).bytes := by
  cases check : cipherCheck s with
  | some code =>
    simp only [hctr2Run, check] at run
    cases run
    have noError : code = .noError := congrArg Status.errCode completed
    exact absurd (noError ▸ check) (cipherCheck_ne_noError s)
  | none =>
    obtain ⟨-, -, -, -, long, -, -⟩ := cipherCheck_none check
    rw [hctr2Run_of_check check, readBuf_of_bytesAt sourceLength source, readBuf_of_bytesAt tweakLength tweak,
      exchange_answered (by rwa [hctr2Of_log_length, sourceLength])] at run
    rw [← Host.Outcome.next.inj run]
    exact ⟨sourceLength ▸ long, by simp only [hctr2After_buf]⟩

/-- The requests of a cipher command are that of step 5 and those of its keystream (R86). -/
theorem answered_cipher_iff {i : Instr} (cipher : i = .hctr2Enc ∨ i = .hctr2Dec) (s : State) : Answered i s ↔
    s.inputs.bcAnswers = true ∨ 1 + ceil16 (s.curArg.len.toNat - 16) ≤ s.port.answered := by
  rcases cipher with rfl | rfl <;> simp [Answered, requestDirs, ceil16, Nat.add_comm]

/-- A copy of a region that holds `bs` holds `bs`. -/
theorem BytesAt.copy {m m' : Memory} {a a' : Nat} {bs : List Byte} (source : BytesAt m a bs)
    (same : ∀ j, j < bs.length → m'.read (a' + j) = m.read (a + j)) : BytesAt m' a' bs :=
  fun j inside => (same j inside).trans (source j inside)

/-- Settles O31: each run writes what the nine steps give, and the nine steps of the second undo those of the first. -/
theorem decryptUndoesEncrypt : Obligations.DecryptUndoesEncrypt := by
  unfold Obligations.DecryptUndoesEncrypt
  intro s t u v p tw sourceLength source tweakLength tweak current answered enc encCompleted sameKey sameH sameL sameLen
    sameTlen tweak' copied current' answered' dec decCompleted
  obtain ⟨long, written⟩ := hctr2Run_completed (dir := .encrypt) sourceLength source tweakLength tweak
    ((answered_cipher_iff (.inl rfl) s).mp answered) enc encCompleted
  have outLength : (hctr2Of .encrypt p tw s).bytes.length = p.length := hctr2Core_length _ _ _ _ _ _ _ _ long
  have output : BytesAt t.buf s.curArg.dst.toNat (hctr2Of .encrypt p tw s).bytes :=
    written ▸ Memory.bytesAt_writeBytes _ _ _
  obtain ⟨-, written'⟩ := hctr2Run_completed (dir := .decrypt) (by rw [outLength, sourceLength, sameLen])
    (output.copy (outLength ▸ copied)) (by rw [tweakLength, sameTlen]) tweak'
    ((answered_cipher_iff (.inr rfl) u).mp answered') dec decCompleted
  have sameEk : ek u = ek s := by unfold ek; rw [sameKey]
  have sameDk : dk u = dk s := by unfold dk; rw [sameKey]
  have inverse (x : Elem) : dk s (ek s x) = x := Equiv.symm_apply_apply _ _
  have undone : (hctr2Of .decrypt (hctr2Of .encrypt p tw s).bytes tw u).bytes = p := by
    rw [current'.hctr2Of_eq, outLength, sameEk, sameDk, sameH, sameL, sameTlen, current.hctr2Of_eq]
    exact hctr2Core_decrypt_encrypt inverse _ _ _ tw long
  rw [written', undone]
  exact Memory.bytesAt_writeBytes _ _ _

end Sys2Proof.Machine
end

section
/-! PROOFS. What a completed run of XCTR writes, and that a second run with the same nonce undoes it. -/

namespace Sys2Proof.Machine

open Sys2Proof.Claims

/-! ### A completed run of XCTR (R221, R224) -/

/-- A region of BUF holds one byte string of each length. -/
theorem BytesAt.unique {m : Memory} {a : Nat} {bs bs' : List Byte} (holds : BytesAt m a bs) (holds' : BytesAt m a bs')
    (sameLength : bs'.length = bs.length) : bs' = bs := by
  have read' := Memory.readBytes_of_bytesAt holds'
  rw [sameLength, Memory.readBytes_of_bytesAt holds] at read'
  exact (Except.ok.inj read').symm

/-- The checks report codes other than NONE (R224). -/
theorem xctrCheck_ne_noError (s : State) : xctrCheck s ≠ some .noError := by
  unfold xctrCheck
  repeat' split
  all_goals simp

/-- The requests of `xctr` are those of its keystream (R86). -/
theorem answered_xctr_iff (q : FReg) (s : State) : Answered (.xctr q) s ↔
    s.inputs.bcAnswers = true ∨ ceil16 s.curArg.len.toNat ≤ s.port.answered := by
  simp [Answered, requestDirs, ceil16]

/-- A completed run of `xctr` on the source `bs`, with its requests answered, took no error and did not wait: it wrote
the source under the keystream to its destination. -/
theorem execXctr_completed {q : FReg} {s t : State} {bs : List Byte} (sourceLength : bs.length = s.curArg.len.toNat)
    (source : BytesAt s.buf s.curArg.src.toNat bs) (answered : Answered (.xctr q) s)
    (run : execXctr q s = .next t) (completed : Completed s t) :
    t.buf = s.buf.writeBytes s.curArg.dst.toNat (xctrBytes (ek s) (s.fr.read q) bs) := by
  rcases execXctr_cases q s with
    ⟨code, check, error⟩ | ⟨-, e, -, -, fault⟩ | ⟨-, bs', sourceLength', source', exchanges⟩
  · cases run.symm.trans error
    have noError : code = .noError := congrArg Status.errCode completed
    exact absurd (noError ▸ check) (xctrCheck_ne_noError s)
  · cases run.symm.trans fault
  · obtain rfl : bs' = bs := source.unique source' (sourceLength'.trans sourceLength.symm)
    rw [exchange_answered (by rwa [keystreamLog_length, sourceLength, ← answered_xctr_iff q s])] at exchanges
    rw [← Host.Outcome.next.inj (exchanges.symm.trans run)]
    exact xctrAfter_buf q bs' s

/-! ### The second run (R225) -/

/-- Settles O26: each run writes its source under one keystream, and the keystream taken twice cancels. -/
theorem xctrIsInvolution : Obligations.XctrIsInvolution := by
  unfold Obligations.XctrIsInvolution
  intro q r s t u v bs sourceLength source answered run completed sameNonce sameKey sameLen copied answered' run'
    completed'
  have written := execXctr_completed sourceLength source answered run completed
  have output : BytesAt t.buf s.curArg.dst.toNat (xctrBytes (ek s) (s.fr.read q) bs) :=
    written ▸ Memory.bytesAt_writeBytes _ _ _
  have written' := execXctr_completed (by rw [xctrBytes_length, sourceLength, sameLen])
    (output.copy (by rwa [xctrBytes_length])) answered' run' completed'
  have sameEk : ek u = ek s := by unfold ek; rw [sameKey]
  rw [written', sameNonce, sameEk, xctrBytes_xctrBytes]
  exact Memory.bytesAt_writeBytes _ _ _

end Sys2Proof.Machine
end

section
/-! PROOFS. Host writes while a command is in progress, and acceptance: which writes are dropped, which are taken, and that
an accepted command reads the command latch and never the ARG registers. -/

namespace Sys2Proof.Machine

open Sys2Proof.Claims

/-! ### Writes while BUSY = 1 (R246, R247) -/

/-- The targets whose writes are taken only while BUSY = 0: CMD and the operands of a command. -/
def Target.takenOnlyIdle : Target → Bool
  | .cmd | .arg _ | .frWord _ _ | .bufWord _ => true
  | _ => false

/-- A busy core drops a write to such a target. -/
theorem writeTarget_takenOnlyIdle {s : State} {x : Target} (v : Word) (hb : s.status.busy = true)
    (hx : x.takenOnlyIdle = true) : writeTarget v s x = dropWrite s := by
  have dropped : ∀ taken, unlessBusy s taken = dropWrite s := fun _ => if_pos hb
  cases x with
  | misaligned | unmapped | id | config | ctrl | status => cases hx
  | cmd | arg | frWord | bufWord => exact dropped _

theorem writeResponse_takenOnlyIdle {x : Target} (hx : x.takenOnlyIdle = true) : writeResponse x = .okayWrite :=
  writeResponse_okay (by rintro rfl; cases hx) (by rintro rfl; cases hx)

/-- The write that a busy core drops ends with OKAY and sets OVERRUN alone. -/
theorem step_write_dropped {s : State} {a : BitVec 16} {v : Word} {rest : List Event} (hb : s.status.busy = true)
    (hr : s.inputs.rst = false) (hx : (target (bufBytes s) a).takenOnlyIdle = true) :
    step { s with agenda := .write a v :: rest } =
      .next { s with agenda := rest, busOut := some .okayWrite, status := { s.status with overrun := true } } := by
  have dropped := writeTarget_takenOnlyIdle (s := { s with agenda := rest }) v hb hx
  rw [step_write_target hr rfl, dropped, writeResponse_takenOnlyIdle hx]
  rfl

/-- The registers from CMD up to offset 0x028 are CMD and the ARG registers. -/
theorem lowTarget_takenOnlyIdle {n : Nat} (h4 : n % 4 = 0) (low : 0x010 ≤ n) (high : n ≤ 0x028) :
    (lowTarget n).takenOnlyIdle = true := by
  have registers : ∀ m ≤ 10, 4 ≤ m → (lowTarget (4 * m)).takenOnlyIdle = true := by decide
  obtain ⟨m, rfl⟩ : ∃ m, n = 4 * m := ⟨n / 4, by omega⟩
  exact registers m (by omega) (by omega)

/-- Every listed address from CMD upward is taken only while BUSY = 0. -/
theorem target_takenOnlyIdle {size : Nat} {a : BitVec 16} (h : Listed size a) (fromCmd : 0x010 ≤ a.toNat) :
    (target size a).takenOnlyIdle = true := by
  obtain ⟨h4, range⟩ := h
  have aligned : ¬a.toNat % 4 ≠ 0 := by omega
  simp only [target, if_neg aligned]
  split
  · exact lowTarget_takenOnlyIdle h4 fromCmd (by omega)
  · split
    · rfl
    · rw [if_pos (by omega)]
      rfl

/-- Settles O44: CMD is taken only while BUSY = 0. -/
theorem commandWhileBusyIsDropped : Obligations.CommandWhileBusyIsDropped := by
  unfold Obligations.CommandWhileBusyIsDropped
  intro s w rest hb hr
  exact step_write_dropped hb hr (by rw [target_cmd]; rfl)

/-- Settles O45: the listed addresses from 0x014 upward are taken only while BUSY = 0, and the writes to the registers
below CMD do not depend on BUSY. -/
theorem operandWriteWhileBusyIsDropped : Obligations.OperandWriteWhileBusyIsDropped := by
  unfold Obligations.OperandWriteWhileBusyIsDropped
  intro s a v rest hb hr
  refine ⟨fun listed operand => ?_, ?_, ?_, ?_, ?_⟩
  · exact step_write_dropped hb hr (target_takenOnlyIdle listed (by omega))
  · exact step_write_target hr (target_ctrl _)
  · exact step_write_target hr (target_status _)
  · exact step_write_target hr (target_id _)
  · exact step_write_target hr (target_config _)

/-! ### A command does not read the ARG registers (R242) -/

/-- The state with other values in the ARG registers. -/
def setArg (g : Args) (s : State) : State := { s with arg := g }

theorem readBuf_setArg {g : Args} {s : State} {a n : Word} {k k' : List Byte → Result}
    (agree : ∀ bs, k' bs = mapNext (setArg g) (k bs)) :
    readBuf (setArg g s) a n k' = mapNext (setArg g) (readBuf s a n k) := by
  have sameBuf : (setArg g s).buf = s.buf := rfl
  unfold readBuf
  rw [sameBuf]
  cases s.buf.readBytes a.toNat n.toNat with
  | error e => rfl
  | ok bs => exact agree bs

theorem exchange_setArg {g : Args} {log : List BcExchange} {s after after' : State} (same : after' = setArg g after) :
    exchange log (setArg g s) after' = mapNext (setArg g) (exchange log s after) := by
  subst same
  rcases exchange_cases log s after with ⟨answered, taken⟩ | ⟨silent, waits, kept⟩
  · rw [taken, exchange_answered (s := setArg g s) answered]
    rfl
  · rw [kept, exchange_silent (s := setArg g s) silent waits]
    rfl

theorem execPvUpdb_setArg (g : Args) (s : State) : execPvUpdb (setArg g s) = mapNext (setArg g) (execPvUpdb s) := by
  have sameCheck : updbCheck (setArg g s) = updbCheck s := rfl
  unfold execPvUpdb
  rw [sameCheck]
  cases updbCheck s with
  | some code => rfl
  | none => exact readBuf_setArg fun _ => rfl

theorem execXctr_setArg (r : FReg) (g : Args) (s : State) :
    execXctr r (setArg g s) = mapNext (setArg g) (execXctr r s) := by
  have sameCheck : xctrCheck (setArg g s) = xctrCheck s := rfl
  unfold execXctr
  rw [sameCheck]
  cases xctrCheck s with
  | some code => rfl
  | none => exact readBuf_setArg fun _ => exchange_setArg rfl

theorem execHctr2Init_setArg (g : Args) (s : State) :
    execHctr2Init (setArg g s) = mapNext (setArg g) (execHctr2Init s) := by
  have sameCheck : initCheck (setArg g s) = initCheck s := rfl
  unfold execHctr2Init
  rw [sameCheck]
  cases initCheck s with
  | some code => rfl
  | none => exact exchange_setArg rfl

theorem hctr2Run_setArg (dir : BcDir) (g : Args) (s : State) :
    hctr2Run dir (setArg g s) = mapNext (setArg g) (hctr2Run dir s) := by
  have sameCheck : cipherCheck (setArg g s) = cipherCheck s := rfl
  cases check : cipherCheck s with
  | some code =>
    simp only [hctr2Run, sameCheck, check]
    rfl
  | none =>
    rw [hctr2Run_of_check check, hctr2Run_of_check (sameCheck.trans check)]
    refine readBuf_setArg fun p => readBuf_setArg fun t => ?_
    have steps : hctr2Of dir p t (setArg g s) = hctr2Of dir p t s := rfl
    have after : hctr2After dir p t (setArg g s) = setArg g (hctr2After dir p t s) := by
      rw [hctr2After, steps]
      simp only [hctr2After, complete, leaveScratch, setArg]
    rw [steps]
    exact exchange_setArg after

/-- Other values in the ARG registers stay there and change nothing else of what a command does. -/
theorem exec_setArg (i : Instr) (g : Args) (s : State) : exec i (setArg g s) = mapNext (setArg g) (exec i s) := by
  cases i with
  | nop | feXor | feMul | feDbl | pvInit | pvReset | pvUpd | pvSum | pvRest => rfl
  | pvUpdb => exact execPvUpdb_setArg g s
  | xctr r => exact execXctr_setArg r g s
  | hctr2Init => exact execHctr2Init_setArg g s
  | hctr2Enc => exact hctr2Run_setArg .encrypt g s
  | hctr2Dec => exact hctr2Run_setArg .decrypt g s

theorem writeTarget_cmd {s : State} (w : Word) (hb : s.status.busy = false) :
    writeTarget w s .cmd = accept w s := by
  simp [writeTarget, unlessBusy, hb]

/-- Settles O35: an idle core takes the write as `accept` says, and `exec_setArg` holds for every command. -/
theorem acceptanceLatchesCommand : Obligations.AcceptanceLatchesCommand := by
  unfold Obligations.AcceptanceLatchesCommand
  refine ⟨fun s w rest hb hr => ?_, fun i s g => exec_setArg i g s⟩
  have accepted := writeTarget_cmd (s := { s with agenda := rest }) w hb
  rw [step_write_target hr (target_cmd _), accepted]
  rfl

end Sys2Proof.Machine
end

section
/-! PROOFS. How a command ends: without error, with one error by which STATUS alone changes, or waiting as it is. -/

namespace Sys2Proof.Machine

open Sys2Proof.Claims

/-! ### The three endings (R244, R245, R305) -/

/-- How the command `i` can end from `s` in `t`. -/
inductive Ending (i : Instr) (s t : State) : Prop where
  | completed (status : Completed s t) (outside : SameOutside s t)
  | failed (c : ErrCode) (real : c ≠ .noError) (status : Failed c s t)
      (frame : { t with status := s.status, ready := s.ready } = s)
      (ready : t.ready = s.ready ∨ (i = .hctr2Init ∧ c = .blockSize ∧ t.ready = false))
  | waits (same : t = s) (silent : s.inputs.bcAnswers = false)
      (unanswered : s.port.answered < (requestDirs i s).length)

/-- An error of a check ends its command with STATUS alone changed. -/
theorem Ending.of_raiseError {i : Instr} {s : State} {c : ErrCode} (real : c ≠ .noError) :
    Ending i s (raiseError c s) :=
  .failed c real (raiseError_failed c s) rfl (.inl rfl)

/-- A command with its exchanges to make completes as its state after them does, or waits where one of its requests has
no answer. -/
theorem Ending.of_exchange {i : Instr} {log : List BcExchange} {s after t : State}
    (run : exchange log s after = .next t) (status : Completed s after) (outside : SameOutside s after)
    (requests : log.length = (requestDirs i s).length) : Ending i s t := by
  rcases exchange_cases log s after with ⟨-, taken⟩ | ⟨silent, unanswered, kept⟩
  · cases run.symm.trans taken
    exact .completed status { outside with }
  · cases run.symm.trans kept
    exact .waits rfl silent (requests ▸ unanswered)

/-! ### The commands that can fail or wait -/

/-- The check reports a code other than NONE (R156). -/
theorem updbCheck_ne_noError (s : State) : updbCheck s ≠ some .noError := by
  unfold updbCheck
  split <;> simp

/-- The requests of `xctr` are those of its keystream (R86). -/
theorem requestDirs_length_xctr (r : FReg) (s : State) :
    (requestDirs (.xctr r) s).length = ceil16 s.curArg.len.toNat := by
  simp [requestDirs, ceil16]

/-- The requests of a cipher command are that of step 5 and those of its keystream (R86). -/
theorem requestDirs_length_cipher {i : Instr} (cipher : i = .hctr2Enc ∨ i = .hctr2Dec) (s : State) :
    (requestDirs i s).length = 1 + ceil16 (s.curArg.len.toNat - 16) := by
  rcases cipher with rfl | rfl <;> simp [requestDirs, ceil16, Nat.add_comm]

theorem execPvUpdb_ending {s t : State} (run : execPvUpdb s = .next t) : Ending .pvUpdb s t := by
  unfold execPvUpdb at run
  split at run
  next code check =>
    cases run
    exact .of_raiseError fun noError => updbCheck_ne_noError s (noError ▸ check)
  next =>
    rcases readBuf_cases s s.curArg.src s.curArg.len fun bs =>
      .next (complete { s with y := absorbBytes s.h s.y bs }) with ⟨bs, -, -, read⟩ | ⟨e, -, -, fault⟩
    · cases run.symm.trans read
      exact .completed rfl ⟨rfl, rfl, rfl, rfl, rfl, rfl, rfl, rfl⟩
    · cases run.symm.trans fault

theorem execXctr_ending {r : FReg} {s t : State} (run : execXctr r s = .next t) : Ending (.xctr r) s t := by
  rcases execXctr_cases r s with ⟨c, check, error⟩ | ⟨-, e, -, -, fault⟩ | ⟨-, bs, length, -, exchanges⟩
  · cases run.symm.trans error
    exact .of_raiseError fun noError => xctrCheck_ne_noError s (noError ▸ check)
  · cases run.symm.trans fault
  · refine .of_exchange (exchanges.symm.trans run) rfl ⟨rfl, rfl, rfl, rfl, rfl, rfl, rfl, rfl⟩ ?_
    rw [keystreamLog_length, length, requestDirs_length_xctr]

theorem hctr2Run_ending {i : Instr} {dir : BcDir} {s t : State} (cipher : i = .hctr2Enc ∨ i = .hctr2Dec)
    (run : hctr2Run dir s = .next t) : Ending i s t := by
  rcases hctr2Run_cases dir s with ⟨c, check, error⟩ | ⟨-, e, -, -, fault⟩ | ⟨-, p, k, length, -, -, -, exchanges⟩
  · cases run.symm.trans error
    exact .of_raiseError fun noError => cipherCheck_ne_noError s (noError ▸ check)
  · cases run.symm.trans fault
  · refine .of_exchange (exchanges.symm.trans run) rfl ⟨rfl, rfl, rfl, rfl, rfl, rfl, rfl, rfl⟩ ?_
    rw [hctr2Of_log_length, length, requestDirs_length_cipher cipher]

/-- `hctr2.init` fails with BLOCK_SIZE alone, and clears READY where it does (R180). -/
theorem execHctr2Init_ending {s t : State} (run : execHctr2Init s = .next t) : Ending .hctr2Init s t := by
  unfold execHctr2Init at run
  rcases initCheck_cases s with ⟨-, -, check⟩ | ⟨-, check⟩
  · rw [check] at run
    cases run
    exact .failed .blockSize (by simp) rfl rfl (.inr ⟨rfl, rfl, rfl⟩)
  · rw [check] at run
    exact .of_exchange run rfl ⟨rfl, rfl, rfl, rfl, rfl, rfl, rfl, rfl⟩ rfl

/-! ### Every command -/

theorem exec_ending {i : Instr} {s t : State} (run : exec i s = .next t) : Ending i s t := by
  cases i with
  | nop | feXor | feMul | feDbl | pvInit | pvReset | pvUpd | pvSum | pvRest =>
    cases run
    exact .completed rfl ⟨rfl, rfl, rfl, rfl, rfl, rfl, rfl, rfl⟩
  | pvUpdb => exact execPvUpdb_ending run
  | xctr => exact execXctr_ending run
  | hctr2Init => exact execHctr2Init_ending run
  | hctr2Enc => exact hctr2Run_ending (.inl rfl) run
  | hctr2Dec => exact hctr2Run_ending (.inr rfl) run

/-- A step in which the core has its turn is that turn, with the entry for it used up. -/
theorem step_of_hasTurn {s : State} (turn : HasTurn s) : step s = coreTurn (turnTaken s) := by
  unfold turnTaken
  rcases turn with empty | ⟨rest, core⟩
  · rw [step_nil empty, empty, List.tail_nil, ← empty]
  · rw [step_core core, core, List.tail_cons]

/-- The turn of a core with an illegal command word ends with ILLEGAL (R262). -/
theorem coreTurn_of_illegal {s : State} {e : DecodeError} (hb : s.status.busy = true) (hr : s.inputs.rst = false)
    (illegal : decode s.curCmd = .error e) : coreTurn s = .next (raiseError .illegal s) := by
  simp [coreTurn, runCommand, fetchWord, hb, hr, illegal]

/-- Settles O36: a command has one of the three endings, and the turn of an illegal word is one error completion. -/
theorem errorsWriteOnlyStatus : Obligations.ErrorsWriteOnlyStatus := by
  unfold Obligations.ErrorsWriteOnlyStatus
  constructor
  · intro i s t run
    cases exec_ending run with
    | completed status outside => exact .inl ⟨status, outside⟩
    | failed c real status frame ready => exact .inr (.inl ⟨c, real, status, frame, ready⟩)
    | waits same silent unanswered => exact .inr (.inr ⟨same, silent, unanswered⟩)
  · intro s e hb hr turn illegal
    have taken : step s = .next (raiseError .illegal (turnTaken s)) :=
      (step_of_hasTurn turn).trans (coreTurn_of_illegal hb hr illegal)
    exact ⟨_, taken, raiseError_failed .illegal (turnTaken s), rfl⟩

end Sys2Proof.Machine
end

section
/-! PROOFS. The command words that decode are those that R107 leaves legal: the rows of the opcode map against the classes
of R104. -/

namespace Sys2Proof.Machine

open Sys2Proof.Claims

/-! ### The fields that a class fixes (R101, R104) -/

/-- The bits that R107 fixes in the words of a class: OPC, RSV, and the register fields that the class does not use. -/
def fixedBits : Format → Word
  | .r3 => 0xFFFFC0FF
  | .r2 => 0xFFFFF0FF
  | .s1 => 0xFFFFF3FF
  | .d1 => 0xFFFFFCFF
  | .n => 0xFFFFFFFF

/-- RSV and the register fields that the class does not use are 0: neither (b) nor (c) of R107 holds. -/
def FixedZero (c : Format) (f : Fields) : Prop :=
  f.rsv = 0 ∧ (c.usesRd = true ∨ f.rd = 0) ∧ (c.usesRs1 = true ∨ f.rs1 = 0) ∧ (c.usesRs2 = true ∨ f.rs2 = 0)

/-- The fields of a word are slices of its bits (R101). -/
theorem ofWord_eq_slices (w : Word) : Fields.ofWord w =
    ⟨(w.extractLsb' 0 8).toNat, (w.extractLsb' 14 18).toNat, (w.extractLsb' 8 2).toNat, (w.extractLsb' 10 2).toNat,
      (w.extractLsb' 12 2).toNat⟩ := by
  have bound := w.isLt
  have rsv : w.toNat / 16384 = w.toNat / 16384 % 262144 := by omega
  simpa [Fields.ofWord, Nat.shiftRight_eq_div_pow] using rsv

/-- A word is its five fields (R101). -/
theorem ofWord_injective : Function.Injective Fields.ofWord := by
  intro v w same
  simp only [Fields.ofWord, Fields.mk.injEq] at same
  apply BitVec.eq_of_toNat_eq
  omega

/-- Masking a word with the fixed bits of a class keeps its fixed fields and clears the register fields in use. -/
theorem ofWord_and_fixedBits (w : Word) (c : Format) : Fields.ofWord (w &&& fixedBits c) =
    { Fields.ofWord w with
      rd := if c.usesRd then 0 else (Fields.ofWord w).rd
      rs1 := if c.usesRs1 then 0 else (Fields.ofWord w).rs1
      rs2 := if c.usesRs2 then 0 else (Fields.ofWord w).rs2 } := by
  have mask8 (x : Nat) : x &&& 255 = x % 256 := Nat.and_two_pow_sub_one_eq_mod x 8
  have mask2 (x : Nat) : x &&& 3 = x % 4 := Nat.and_two_pow_sub_one_eq_mod x 2
  have mask18 (x : Nat) : x &&& 262143 = x % 262144 := Nat.and_two_pow_sub_one_eq_mod x 18
  simp only [ofWord_eq_slices, BitVec.extractLsb'_and]
  cases c <;> simp [fixedBits, Format.usesRd, Format.usesRs1, Format.usesRs2, mask8, mask2, mask18]

/-- An opcode alone, with RSV and the register fields 0 (R105). -/
theorem ofWord_setWidth (opc : BitVec 8) : Fields.ofWord (opc.setWidth 32) = ⟨opc.toNat, 0, 0, 0, 0⟩ := by
  simp only [Fields.ofWord, BitVec.toNat_setWidth, Fields.mk.injEq]
  omega

/-- The match of a row of the opcode map, said of the fields of the word (R105, R107). -/
theorem and_fixedBits_eq_iff (w : Word) (c : Format) (opc : BitVec 8) :
    w &&& fixedBits c = opc.setWidth 32 ↔ (Fields.ofWord w).opc = opc.toNat ∧ FixedZero c (Fields.ofWord w) := by
  rw [← ofWord_injective.eq_iff, ofWord_and_fixedBits, ofWord_setWidth, FixedZero]
  have cleared (used : Bool) (n : Nat) : (if used = true then 0 else n) = 0 ↔ used = true ∨ n = 0 := by
    cases used <;> simp
  simp only [Fields.mk.injEq, cleared]

/-! ### The rows of the opcode map (R105, R107) -/

/-- Each row of the opcode map is the word of its opcode alone under the fixed bits of the opcode's class. -/
theorem opcodeMap_rows : ∀ r ∈ opcodeMap, r.word = (opcField r.word).setWidth 32 ∧
    (formatOf (opcField r.word).toNat).map fixedBits = some r.mask := by
  simp only [opcodeMap, List.forall_mem_cons]
  decide

/-- Each opcode with a class has a row in the opcode map. -/
theorem exists_row_of_formatOf : ∀ (opc : BitVec 8),
    (formatOf opc.toNat).isSome = true → ∃ r ∈ opcodeMap, opcField r.word = opc := by
  decide

/-- The words that decode are those that match a row of the opcode map. -/
theorem decode_ok_iff_row (w : Word) : (∃ i, decode w = .ok i) ↔ ∃ r ∈ opcodeMap, w &&& r.mask = r.word := by
  have found_iff : (opcodeMap.find? fun r => w &&& r.mask == r.word).isSome = true ↔
      ∃ r ∈ opcodeMap, w &&& r.mask = r.word := by
    simp [List.find?_isSome]
  rw [← found_iff]
  unfold decode
  cases opcodeMap.find? (fun r => w &&& r.mask == r.word) <;> simp

/-- A word matches a row where its opcode has a class and its fixed fields are 0. -/
theorem exists_row_iff (w : Word) : (∃ r ∈ opcodeMap, w &&& r.mask = r.word) ↔
    ∃ c, formatOf (Fields.ofWord w).opc = some c ∧ FixedZero c (Fields.ofWord w) := by
  constructor
  · rintro ⟨r, row, matched⟩
    obtain ⟨bare, classBits⟩ := opcodeMap_rows r row
    obtain ⟨c, format, mask⟩ := Option.map_eq_some_iff.mp classBits
    rw [← mask, bare, and_fixedBits_eq_iff] at matched
    obtain ⟨opc, zero⟩ := matched
    exact ⟨c, opc ▸ format, zero⟩
  · rintro ⟨c, format, zero⟩
    have opc : (Fields.ofWord w).opc = (opcField w).toNat := by rw [ofWord_eq_slices, opcField]
    rw [opc] at format
    obtain ⟨r, row, same⟩ := exists_row_of_formatOf (opcField w) (by rw [format]; rfl)
    obtain ⟨bare, classBits⟩ := opcodeMap_rows r row
    rw [same, format] at classBits
    refine ⟨r, row, ?_⟩
    rw [← Option.some.inj classBits, bare, same, and_fixedBits_eq_iff]
    exact ⟨opc, zero⟩

/-- A word is illegal where its opcode has no class or the class fixes to 0 a field that is not (R107). -/
theorem illegalWord_iff (w : Word) : IllegalWord w ↔
    ∀ c, formatOf (Fields.ofWord w).opc = some c → ¬FixedZero c (Fields.ofWord w) := by
  simp only [IllegalWord, formatOf, FixedZero]
  generalize Fields.ofWord w = f
  split_ifs <;> simp_all [Format.usesRd, Format.usesRs1, Format.usesRs2] <;> omega

/-- The words that decode are those that no ground of R107 makes illegal. -/
theorem decode_ok_iff_not_illegalWord (w : Word) : (∃ i, decode w = .ok i) ↔ ¬IllegalWord w := by
  rw [decode_ok_iff_row, exists_row_iff, illegalWord_iff]
  push Not
  rfl

/-- The decoder rejects an illegal word (R107). -/
theorem decode_error_of_illegalWord {w : Word} (illegal : IllegalWord w) : ∃ e, decode w = .error e := by
  cases word : decode w with
  | ok i => exact absurd illegal ((decode_ok_iff_not_illegalWord w).mp ⟨i, word⟩)
  | error e => exact ⟨e, rfl⟩

end Sys2Proof.Machine
end

section
/-! PROOFS. The errors of the commands: the illegal word, the block size of `hctr2.init`, and the first failing check. -/

namespace Sys2Proof.Machine

open Sys2Proof.Claims

/-! ### The illegal word (R262) -/

/-- A step in which the core has its turn on an illegal word is one error completion with ILLEGAL. -/
theorem step_of_illegalWord {s : State} (hb : s.status.busy = true) (hr : s.inputs.rst = false) (turn : HasTurn s)
    (illegal : IllegalWord s.curCmd) : step s = .next (raiseError .illegal (turnTaken s)) := by
  obtain ⟨e, word⟩ := decode_error_of_illegalWord illegal
  exact (step_of_hasTurn turn).trans (coreTurn_of_illegal hb hr word)

/-- Settles O4: the step is `raiseError`, which changes STATUS alone. -/
theorem illegalCommandEndsWithIllegal : Obligations.IllegalCommandEndsWithIllegal := by
  unfold Obligations.IllegalCommandEndsWithIllegal
  intro s hb hr turn illegal
  exact ⟨_, step_of_illegalWord hb hr turn illegal, raiseError_failed .illegal (turnTaken s), rfl,
    raiseError_only_status .illegal (turnTaken s)⟩

/-! ### BLOCK_SIZE (R180, R264) -/

/-- `hctr2.init` on another block size clears READY and ends with BLOCK_SIZE (R180). -/
theorem execHctr2Init_of_check {s : State} {c : ErrCode} (check : initCheck s = some c) :
    execHctr2Init s = .next (raiseError c { s with ready := false }) := by
  simp only [execHctr2Init, check]

/-- No two errors have one code (R261). -/
theorem ErrCode.code_injective : Function.Injective ErrCode.code := by
  intro c d
  cases c <;> cases d <;> decide

/-- Settles O24: no request has been transferred, so the check of `hctr2.init` fails. -/
theorem wrongBlockSizeEndsWithBlockSize : Obligations.WrongBlockSizeEndsWithBlockSize := by
  unfold Obligations.WrongBlockSizeEndsWithBlockSize
  refine ⟨?_, rfl, fun c other same => other (ErrCode.code_injective same)⟩
  intro s idle size
  have check : initCheck s = some .blockSize := if_pos ⟨idle, size⟩
  exact ⟨_, execHctr2Init_of_check check, raiseError_failed .blockSize _, rfl, rfl⟩

/-! ### The first failing check (R269) -/

/-- The check that the model makes of a command, none for a command that checks nothing. -/
def commandCheck (s : State) : Instr → Option ErrCode
  | .pvUpdb => updbCheck s
  | .xctr _ => xctrCheck s
  | .hctr2Init => initCheck s
  | .hctr2Enc | .hctr2Dec => cipherCheck s
  | _ => none

/-- The first failing check of a list is its head, where that fails, and else that of the rest. -/
theorem firstFailing_cons (fails : Bool) (c : ErrCode) (checks : List (Bool × ErrCode)) :
    (((fails, c) :: checks).find? (·.1)).map (·.2) =
      if fails then some c else (checks.find? (·.1)).map (·.2) := by
  cases fails <;> rfl

/-- A region is in range where it does not end past BUF (R189). -/
theorem inRange_eq_not_decide (s : State) (o k : Word) :
    inRange s o k = !decide (bufBytes s < o.toNat + k.toNat) := by
  simp [inRange, ← decide_not]

/-- The overlap check as one condition (R188). -/
theorem argsOverlap_eq_decide (a : Args) : argsOverlap a =
    decide (0 < a.len.toNat ∧ a.src.toNat ≠ a.dst.toNat ∧
      a.src.toNat < a.dst.toNat + a.len.toNat ∧ a.dst.toNat < a.src.toNat + a.len.toNat) := by
  simp only [argsOverlap, partialOverlap, Bool.decide_and, Bool.and_assoc]

/-- The first failing check in the order of R269 is the one that the model's check of the command reports. -/
theorem firstFailure_eq_commandCheck (i : Instr) (s : State) : firstFailure i s = commandCheck s i := by
  simp only [firstFailure, orderedChecks, firstFailing_cons]
  cases i with
  | nop | feXor | feMul | feDbl | pvInit | pvReset | pvUpd | pvSum | pvRest => simp [commandCheck]
  | pvUpdb => simp [commandCheck, updbCheck, inRange_eq_not_decide]
  | xctr => simp [commandCheck, xctrCheck, inRange_eq_not_decide, argsOverlap_eq_decide]
  | hctr2Init => simp [commandCheck, initCheck]
  | hctr2Enc | hctr2Dec => simp [commandCheck, cipherCheck, inRange_eq_not_decide, argsOverlap_eq_decide]

/-- What a command with the check `check` does from `s`: the error of a check that fails, and otherwise a completion, a
wait, or a fault, none of which reports an error (R269, R305, R71). -/
inductive Reports (s : State) : Option ErrCode → Result → Prop where
  | error {c : ErrCode} {t : State} (failed : Failed c s t) : Reports s (some c) (.next t)
  | completes {t : State} (completed : Completed s t) : Reports s none (.next t)
  | waits : Reports s none (.next s)
  | faults (f : Fault) : Reports s none (.fault f)

/-- A command with exchanges to make completes as its state after them does, or waits (R305). -/
theorem Reports.of_exchange {s after : State} (log : List BcExchange) (completed : Completed s after) :
    Reports s none (exchange log s after) := by
  rcases exchange_cases log s after with ⟨-, taken⟩ | ⟨-, -, waits⟩
  · rw [taken]
    exact .completes completed
  · rw [waits]
    exact .waits

theorem execPvUpdb_reports (s : State) : Reports s (updbCheck s) (execPvUpdb s) := by
  unfold execPvUpdb
  cases updbCheck s with
  | some c => exact .error (raiseError_failed c s)
  | none =>
    rcases readBuf_cases s s.curArg.src s.curArg.len fun bs =>
      .next (complete { s with y := absorbBytes s.h s.y bs }) with ⟨bs, -, -, read⟩ | ⟨e, -, -, fault⟩
    · exact read ▸ .completes rfl
    · exact fault ▸ .faults _

theorem execXctr_reports (rs1 : FReg) (s : State) : Reports s (xctrCheck s) (execXctr rs1 s) := by
  rcases execXctr_cases rs1 s with ⟨c, check, run⟩ | ⟨check, e, -, -, run⟩ | ⟨check, bs, -, -, run⟩ <;> rw [check, run]
  · exact .error (raiseError_failed c s)
  · exact .faults _
  · exact .of_exchange _ rfl

theorem hctr2Run_reports (dir : BcDir) (s : State) : Reports s (cipherCheck s) (hctr2Run dir s) := by
  rcases hctr2Run_cases dir s with ⟨c, check, run⟩ | ⟨check, e, -, -, run⟩ | ⟨check, p, k, -, -, -, -, run⟩ <;>
    rw [check, run]
  · exact .error (raiseError_failed c s)
  · exact .faults _
  · exact .of_exchange _ rfl

theorem execHctr2Init_reports (s : State) : Reports s (initCheck s) (execHctr2Init s) := by
  unfold execHctr2Init
  cases initCheck s with
  | some c => exact .error (raiseError_failed c { s with ready := false })
  | none => exact .of_exchange _ rfl

/-- Every command reports what its check finds. -/
theorem exec_reports (i : Instr) (s : State) : Reports s (commandCheck s i) (exec i s) := by
  cases i with
  | nop | feXor | feMul | feDbl | pvInit | pvReset | pvUpd | pvSum | pvRest => exact .completes rfl
  | pvUpdb => exact execPvUpdb_reports s
  | xctr rs1 => exact execXctr_reports rs1 s
  | hctr2Init => exact execHctr2Init_reports s
  | hctr2Enc => exact hctr2Run_reports .encrypt s
  | hctr2Dec => exact hctr2Run_reports .decrypt s

theorem Reports.exists_failed {s : State} {c : ErrCode} {r : Result} (reports : Reports s (some c) r) :
    ∃ t, r = .next t ∧ Failed c s t := by
  cases reports with
  | error failed => exact ⟨_, rfl, failed⟩

theorem Reports.completed_or_waits {s t : State} {r : Result} (reports : Reports s none r) (run : r = .next t) :
    Completed s t ∨ t = s := by
  cases reports with
  | completes completed => exact .inl (Host.Outcome.next.inj run ▸ completed)
  | waits => exact .inr (Host.Outcome.next.inj run).symm
  | faults f => cases run

/-- The turn of a core with a legal command word is the command (R243). -/
theorem coreTurn_of_decode_ok {s : State} {i : Instr} (hb : s.status.busy = true) (hr : s.inputs.rst = false)
    (word : decode s.curCmd = .ok i) : coreTurn s = exec i s := by
  simp [coreTurn, runCommand, fetchWord, hb, hr, word]

/-- Settles O37: an illegal word ends with ILLEGAL, and a legal one reports the check that the model makes of it, which
is the first that fails. -/
theorem firstFailingCheckIsReported : Obligations.FirstFailingCheckIsReported := by
  unfold Obligations.FirstFailingCheckIsReported
  intro s hb hr turn
  refine ⟨fun illegal => ⟨_, step_of_illegalWord hb hr turn illegal, raiseError_failed .illegal (turnTaken s)⟩,
    fun legal => ?_⟩
  obtain ⟨i, word⟩ := (decode_ok_iff_not_illegalWord s.curCmd).mpr legal
  have run : step s = exec i (turnTaken s) := (step_of_hasTurn turn).trans (coreTurn_of_decode_ok hb hr word)
  have reports : Reports (turnTaken s) (firstFailure i s) (step s) := by
    rw [run, show firstFailure i s = commandCheck (turnTaken s) i from firstFailure_eq_commandCheck i (turnTaken s)]
    exact exec_reports i (turnTaken s)
  refine ⟨i, word, fun c failure => ?_, fun failure t next => ?_⟩
  · exact (failure ▸ reports).exists_failed
  · exact (failure ▸ reports).completed_or_waits next

end Sys2Proof.Machine
end

section
/-! PROOFS. The decoder and the encoder against the fields of a command word: what a word that decodes says of its
command, that its command has no other word, and that the decoder reads every command back. -/

namespace Sys2Proof.Machine

open Sys2Proof.Claims Sys2Proof.Laws

/-! ### The commands and their fields (R101, R104) -/

/-- The number of the register that a 2-bit index names is that index (R101). -/
theorem FReg.index_ofBits : ∀ b : BitVec 2, (FReg.ofBits b).index = b.toNat := by
  decide

/-- The register that a number names. -/
def regOfIndex (n : Nat) : FReg := FReg.ofBits (BitVec.ofNat 2 n)

@[simp] theorem regOfIndex_index (r : FReg) : regOfIndex r.index = r := by
  cases r <;> rfl

/-- The command of legal fields (R105). -/
def commandOfFields (f : Fields) : Instr :=
  let rd := regOfIndex f.rd
  let rs1 := regOfIndex f.rs1
  let rs2 := regOfIndex f.rs2
  match f.opc with
  | 0x01 => .feXor rd rs1 rs2
  | 0x02 => .feMul rd rs1 rs2
  | 0x03 => .feDbl rd rs1
  | 0x10 => .pvInit rs1
  | 0x11 => .pvReset
  | 0x12 => .pvUpd rs1
  | 0x13 => .pvUpdb
  | 0x14 => .pvSum rd
  | 0x15 => .pvRest rs1
  | 0x20 => .xctr rs1
  | 0x30 => .hctr2Init
  | 0x31 => .hctr2Enc
  | 0x32 => .hctr2Dec
  | _ => .nop

theorem commandOfFields_fields (i : Instr) : commandOfFields i.fields = i := by
  cases i <;> simp [Instr.fields, commandOfFields]

/-- A command is its fields. -/
theorem Instr.fields_injective : Function.Injective Instr.fields :=
  Function.LeftInverse.injective commandOfFields_fields

theorem encodesLegally (i : Instr) : EncodesLegally.Statement i := by
  cases i with
  | nop => exact EncodesLegally.nop
  | feXor rd rs1 rs2 => exact EncodesLegally.feXor rd rs1 rs2
  | feMul rd rs1 rs2 => exact EncodesLegally.feMul rd rs1 rs2
  | feDbl rd rs1 => exact EncodesLegally.feDbl rd rs1
  | pvInit rs1 => exact EncodesLegally.pvInit rs1
  | pvReset => exact EncodesLegally.pvReset
  | pvUpd rs1 => exact EncodesLegally.pvUpd rs1
  | pvUpdb => exact EncodesLegally.pvUpdb
  | pvSum rd => exact EncodesLegally.pvSum rd
  | pvRest rs1 => exact EncodesLegally.pvRest rs1
  | xctr rs1 => exact EncodesLegally.xctr rs1
  | hctr2Init => exact EncodesLegally.hctr2Init
  | hctr2Enc => exact EncodesLegally.hctr2Enc
  | hctr2Dec => exact EncodesLegally.hctr2Dec

/-- The word of a command has the command's fields (R105). -/
theorem ofWord_encode (i : Instr) : Fields.ofWord (encode i) = i.fields := (encodesLegally i).1

/-- Legal fields have an opcode with a class, and the class's fixed fields are 0 (R107). -/
theorem Fields.exists_format_of_wf {f : Fields} (legal : f.wf = true) :
    ∃ c, formatOf f.opc = some c ∧ FixedZero c f := by
  obtain ⟨⟨⟨assigned, rsv⟩, -⟩, unused⟩ : ((f.opcAssigned ∧ f.rsvZero) ∧ f.regsFit) ∧ f.unusedZero := by
    simpa [Fields.wf] using legal
  obtain ⟨c, format⟩ := Option.isSome_iff_exists.mp assigned
  refine ⟨c, format, by simpa [Fields.rsvZero] using rsv, ?_⟩
  simpa [Fields.unusedZero, format, and_assoc] using unused

theorem not_illegalWord_encode (i : Instr) : ¬IllegalWord (encode i) := by
  obtain ⟨c, format, zero⟩ := Fields.exists_format_of_wf (instr_wf i)
  rw [illegalWord_iff, ofWord_encode]
  exact fun legal => legal c format zero

/-! ### The rows of the opcode map and the commands that they make (R105) -/

/-- The command of a row takes from the register fields those that the row's class uses. -/
theorem opcodeMap_make_fields : ∀ r ∈ opcodeMap, ∃ c, r.word = (opcField r.word).setWidth 32 ∧ r.mask = fixedBits c ∧
    ∀ rd rs1 rs2, (r.make rd rs1 rs2).fields =
      ⟨(opcField r.word).toNat, 0, if c.usesRd then rd.index else 0, if c.usesRs1 then rs1.index else 0,
        if c.usesRs2 then rs2.index else 0⟩ := by
  simp only [opcodeMap, List.forall_mem_cons, List.not_mem_nil, false_imp_iff, implies_true, and_true]
  refine ⟨?nop, ?feXor, ?feMul, ?feDbl, ?pvInit, ?pvReset, ?pvUpd, ?pvUpdb, ?pvSum, ?pvRest, ?xctr, ?init, ?enc, ?dec⟩
  case feXor | feMul => exact ⟨.r3, rfl, rfl, fun _ _ _ => rfl⟩
  case feDbl => exact ⟨.r2, rfl, rfl, fun _ _ _ => rfl⟩
  case pvInit | pvUpd | pvRest | xctr => exact ⟨.s1, rfl, rfl, fun _ _ _ => rfl⟩
  case pvSum => exact ⟨.d1, rfl, rfl, fun _ _ _ => rfl⟩
  case nop | pvReset | pvUpdb | init | enc | dec => exact ⟨.n, rfl, rfl, fun _ _ _ => rfl⟩

/-- A word that decodes matches a row, which makes the command from the word's register fields. -/
theorem exists_row_of_decode {w : Word} {i : Instr} (word : decode w = .ok i) :
    ∃ r ∈ opcodeMap, w &&& r.mask = r.word ∧ i = r.make (rdField w) (rs1Field w) (rs2Field w) := by
  unfold decode at word
  split at word
  next r found =>
    have matched := List.find?_some found
    exact ⟨r, List.mem_of_find?_eq_some found, by simpa using matched, (Except.ok.inj word).symm⟩
  next => cases word

/-- The fields of a command are those of any word that decodes to it. -/
theorem fields_eq_ofWord_of_decode {w : Word} {i : Instr} (word : decode w = .ok i) : i.fields = Fields.ofWord w := by
  obtain ⟨r, row, matched, rfl⟩ := exists_row_of_decode word
  obtain ⟨c, bare, mask, fields⟩ := opcodeMap_make_fields r row
  rw [mask, bare, and_fixedBits_eq_iff] at matched
  obtain ⟨opc, rsv, rd, rs1, rs2⟩ := matched
  have used {used : Bool} {n : Nat} (zero : used = true ∨ n = 0) : (if used = true then n else 0) = n := by
    rcases zero with rfl | rfl <;> simp
  have slices := ofWord_eq_slices w
  simp only [fields, rdField, rs1Field, rs2Field, FReg.index_ofBits]
  rw [slices] at opc rsv rd rs1 rs2 ⊢
  rw [used rd, used rs1, used rs2, ← opc]
  exact congrArg (Fields.mk _ · _ _ _) rsv.symm

/-! ### Encoding and decoding -/

/-- Settles O2: the word of the command has the command's fields, which are the word's, and a word is its fields. -/
theorem decodedWordIsItsEncoding : Obligations.DecodedWordIsItsEncoding := by
  unfold Obligations.DecodedWordIsItsEncoding
  intro w i word
  apply ofWord_injective
  rw [ofWord_encode, fields_eq_ofWord_of_decode word]

/-- Settles O1: the word of a command is legal, so it decodes, and to a command with the same fields. -/
theorem decodeEncodeRoundTrip : Obligations.DecodeEncodeRoundTrip := by
  unfold Obligations.DecodeEncodeRoundTrip
  refine fun i => ⟨instr_wf i, ?_⟩
  obtain ⟨j, word⟩ := (decode_ok_iff_not_illegalWord _).mpr (not_illegalWord_encode i)
  have same : j.fields = i.fields := (fields_eq_ofWord_of_decode word).trans (ofWord_encode i)
  rw [word, Instr.fields_injective same]

/-- Settles O3: a word decodes or is rejected, and those that decode are the legal ones. -/
theorem illegalWordsAreRejected : Obligations.IllegalWordsAreRejected := by
  unfold Obligations.IllegalWordsAreRejected
  refine fun w => ⟨fun ⟨e, rejected⟩ => ?_, decode_error_of_illegalWord⟩
  by_contra legal
  obtain ⟨i, word⟩ := (decode_ok_iff_not_illegalWord w).mpr legal
  cases word.symm.trans rejected

/-- Settles O5: each word is the encoding of its command. -/
theorem specWordsDecode : Obligations.SpecWordsDecode := by
  unfold Obligations.SpecWordsDecode
  have back (i : Instr) : decode (encode i) = .ok i := (decodeEncodeRoundTrip i).2
  exact ⟨back .nop, back (.feXor .f0 .f1 .f2), back (.feMul .f3 .f1 .f2), back (.feDbl .f2 .f1), back (.pvUpd .f1),
    back (.pvSum .f3), back (.pvRest .f2), back (.xctr .f1), back .hctr2Enc⟩

end Sys2Proof.Machine
end

section
/-! PROOFS. The laws of the field arithmetic: a field element is its class modulo `P`, so that the laws of `dot` are
those of `GF(2)[x] / P`; and the Karatsuba multiplier with its two folds gives `dot`. -/

namespace Sys2Proof.Machine

open Sys2Proof.Claims Polynomial

/-! ### Bit vectors and the coefficients of their polynomials (R130) -/

theorem coeff_poly {n : Nat} (v : BitVec n) (i : Nat) : (poly v).coeff i = if v.getLsbD i then 1 else 0 := by
  rw [poly, finsetSum_coeff]
  simp only [apply_ite (coeff · i), coeff_X_pow, coeff_zero, ← ite_and]
  rcases Nat.lt_or_ge i n with inside | outside
  · rw [Finset.sum_eq_single_of_mem i (by simpa using inside)]
    · simp
    · intro j _ other
      simp [Ne.symm other]
  · rw [BitVec.getLsbD_of_ge v i outside, Finset.sum_eq_zero]
    · simp
    · intro j inside
      have : i ≠ j := by have := Finset.mem_range.mp inside; omega
      simp [this]

theorem poly_injective {n : Nat} : Function.Injective (poly : BitVec n → (ZMod 2)[X]) := by
  intro v w same
  apply BitVec.eq_of_getLsbD_eq
  intro i _
  have coefficient := congrArg (coeff · i) same
  simp only [coeff_poly] at coefficient
  cases hv : v.getLsbD i <;> cases hw : w.getLsbD i <;> simp_all

theorem degree_poly_lt {n : Nat} (v : BitVec n) : (poly v).degree < n := by
  rw [degree_lt_iff_coeff_zero]
  intro i outside
  rw [coeff_poly, BitVec.getLsbD_of_ge v i outside]
  simp

/-- A vector put at bit `k` of a wider one is its polynomial times `x^k`. -/
theorem poly_setWidth_shiftLeft {n m k : Nat} (v : BitVec n) (fits : n + k ≤ m) :
    poly (v.setWidth m <<< k) = poly v * X ^ k := by
  ext i
  rw [coeff_mul_X_pow', coeff_poly, coeff_poly, BitVec.getLsbD_shiftLeft, BitVec.getLsbD_setWidth]
  rcases Nat.lt_or_ge i k with below | above
  · simp [below]
  · rcases Nat.lt_or_ge (i - k) n with inside | outside
    · have bounds : i < m ∧ i - k < m ∧ ¬i < k := by omega
      simp [above, bounds]
    · simp [above, BitVec.getLsbD_of_ge v _ outside]

@[simp] theorem poly_setWidth {n m : Nat} (v : BitVec n) (fits : n ≤ m) : poly (v.setWidth m) = poly v := by
  simpa using poly_setWidth_shiftLeft (k := 0) v fits

/-- A slice cut in two is the sum of its parts, the upper one times `x^k`. -/
theorem poly_extractLsb'_add {n : Nat} (v : BitVec n) (start k m : Nat) : poly (v.extractLsb' start (k + m)) =
    poly (v.extractLsb' start k) + poly (v.extractLsb' (start + k) m) * X ^ k := by
  ext i
  rw [coeff_add, coeff_mul_X_pow', coeff_poly, coeff_poly, coeff_poly]
  simp only [BitVec.getLsbD_extractLsb']
  rcases Nat.lt_or_ge i k with below | above
  · have bounds : i < k + m ∧ ¬k ≤ i := by omega
    simp [below, bounds]
  · have notBelow : ¬i < k := by omega
    have upper : i < k + m ↔ i - k < m := by omega
    have back : start + k + (i - k) = start + i := by omega
    simp [notBelow, above, back, upper]

theorem poly_halves (a : BitVec 128) :
    poly a = poly (a.extractLsb' 0 64) + poly (a.extractLsb' 64 64) * X ^ 64 := by
  simpa using poly_extractLsb'_add a 0 64 64

theorem poly_words (d : BitVec 256) : poly d = poly (d.extractLsb' 0 64) + poly (d.extractLsb' 64 64) * X ^ 64 +
    poly (d.extractLsb' 128 64) * X ^ 128 + poly (d.extractLsb' 192 64) * X ^ 192 := by
  have whole : poly d = poly (d.extractLsb' 0 128) + poly (d.extractLsb' 128 128) * X ^ 128 := by
    simpa using poly_extractLsb'_add d 0 128 128
  have low : poly (d.extractLsb' 0 128) = poly (d.extractLsb' 0 64) + poly (d.extractLsb' 64 64) * X ^ 64 :=
    poly_extractLsb'_add d 0 64 64
  have high : poly (d.extractLsb' 128 128) = poly (d.extractLsb' 128 64) + poly (d.extractLsb' 192 64) * X ^ 64 :=
    poly_extractLsb'_add d 128 64 64
  rw [whole, low, high]
  ring

theorem poly_append {n m : Nat} (v : BitVec n) (w : BitVec m) : poly (v ++ w) = poly w + poly v * X ^ m := by
  ext i
  rw [coeff_add, coeff_mul_X_pow', coeff_poly, coeff_poly, coeff_poly, BitVec.getLsbD_append]
  rcases Nat.lt_or_ge i m with below | above
  · have notAbove : ¬m ≤ i := by omega
    simp [below, notAbove]
  · have notBelow : ¬i < m := by omega
    simp [notBelow, above]

/-! ### Vectors modulo a polynomial of their width -/

/-- Modulo a polynomial of degree `n`, vectors of `n` bits do not fall together. -/
theorem poly_eq_of_mk_eq {n : Nat} {f : (ZMod 2)[X]} (deg : f.degree = n) {p q : (ZMod 2)[X]} (hp : p.degree < n)
    (hq : q.degree < n) (same : AdjoinRoot.mk f p = AdjoinRoot.mk f q) : p = q := by
  have divides : f ∣ p - q := AdjoinRoot.mk_eq_mk.mp same
  have small : (p - q).degree < f.degree := deg ▸ (degree_sub_le p q).trans_lt (max_lt hp hq)
  exact sub_eq_zero.mp (eq_zero_of_dvd_of_degree_lt divides small)

/-- The Horner step of the carry-less product: a shift is a product by `x` where the width is the modulus. -/
theorem mk_poly_shift_xor {n : Nat} (v w : BitVec (n + 1)) :
    AdjoinRoot.mk (X ^ (n + 1) : (ZMod 2)[X]) (poly ((v <<< 1) ^^^ w)) =
      AdjoinRoot.mk (X ^ (n + 1)) (poly v) * AdjoinRoot.root (X ^ (n + 1)) + AdjoinRoot.mk (X ^ (n + 1)) (poly w) := by
  have carry : AdjoinRoot.mk (X ^ (n + 1) : (ZMod 2)[X]) (if v.getLsbD n then X ^ (n + 1) else 0) = 0 := by
    split
    · exact AdjoinRoot.mk_self
    · exact map_zero _
  rw [← AdjoinRoot.mk_X, ← map_mul, poly_mul_X, map_add, carry, add_zero, poly_xor, map_add]

/-- The class of a vector is the value of its polynomial at the root. -/
theorem mk_poly (f : (ZMod 2)[X]) {n : Nat} (v : BitVec n) :
    AdjoinRoot.mk f (poly v) = ∑ i ∈ Finset.range n, if v.getLsbD i then AdjoinRoot.root f ^ i else 0 := by
  simp [poly, apply_ite (AdjoinRoot.mk f)]

/-! ### The multiplier (R15, R132) -/

/-- `clmul64` is the product of polynomials, which 128 bits hold (R15). -/
theorem poly_clmul64 (a b : BitVec 64) : poly (clmul64 a b) = poly a * poly b := by
  have horner := foldr_range_horner (fun v : BitVec 128 => AdjoinRoot.mk (X ^ 128 : (ZMod 2)[X]) (poly v))
    (fun i acc => (acc <<< 1) ^^^ (if b.getLsbD i then a.setWidth 128 else 0))
    (fun i => if b.getLsbD i then AdjoinRoot.mk (X ^ 128) (poly a) else 0) (AdjoinRoot.root (X ^ 128))
    (fun i acc => by rw [mk_poly_shift_xor]; split <;> simp) 64 0
  have small : (poly a * poly b).degree < (128 : Nat) := by
    have low (v : BitVec 64) : (poly v).degree ≤ (63 : Nat) := by
      rw [degree_le_iff_coeff_zero]
      intro i outside
      exact coeff_eq_zero_of_degree_lt ((degree_poly_lt v).trans_le (by exact_mod_cast outside))
    exact (degree_mul_le_of_le (low a) (low b)).trans_lt (by exact_mod_cast (by omega : 63 + 63 < 128))
  refine poly_eq_of_mk_eq (degree_X_pow 128) (degree_poly_lt _) small ?_
  rw [map_mul, mk_poly _ b, Finset.mul_sum]
  simpa [clmul64] using horner

/-- The Karatsuba step gives the product of polynomials (R132). -/
theorem poly_karatsuba (a b : Elem) : poly (karatsuba a b) = poly a * poly b := by
  simp only [karatsuba, poly_xor, poly_setWidth_shiftLeft _ (show 128 + 64 ≤ 256 by omega),
    poly_setWidth_shiftLeft _ (show 128 + 128 ≤ 256 by omega), poly_setWidth _ (show 128 ≤ 256 by omega), poly_clmul64]
  rw [poly_halves a, poly_halves b]
  generalize poly (a.extractLsb' 0 64) = a0
  generalize poly (a.extractLsb' 64 64) = a1
  generalize poly (b.extractLsb' 0 64) = b0
  generalize poly (b.extractLsb' 64 64) = b1
  linear_combination (a0 * b0 + a1 * b1) * X ^ 64 * CharTwo.two_eq_zero (R := (ZMod 2)[X])

/-! ### Elements and their classes modulo `P` -/

theorem degree_fieldPoly : fieldPoly.degree = (128 : Nat) := by
  rw [fieldPoly_eq, degree_add_eq_left_of_degree_lt, degree_X_pow]
  rw [degree_X_pow]
  exact degree_poly_lt x128

/-- An element is its class: no two elements of 128 bits differ by a multiple of `P`. -/
theorem residue_injective : Function.Injective residue := fun a b same =>
  poly_injective (poly_eq_of_mk_eq degree_fieldPoly (degree_poly_lt a) (degree_poly_lt b) same)

@[simp] theorem residue_dot (a b : Elem) : residue (dot a b) = residue a * residue b * residue xInv128 := by
  rw [dot, residue_mulMod, residue_mulMod]

theorem residue_x128_mul_xInv128 : residue x128 * residue xInv128 = 1 := by
  rw [residue_x128, mul_comm, residue_xInv128_mul]

/-- Two classes with the same multiple by `x^128` are the same, since `x` has an inverse. -/
theorem eq_of_mul_root_pow_eq {p q : AdjoinRoot fieldPoly}
    (same : p * AdjoinRoot.root fieldPoly ^ 128 = q * AdjoinRoot.root fieldPoly ^ 128) : p = q :=
  (IsUnit.of_mul_eq_one_right _ residue_xInv128_mul).mul_right_cancel same

/-! ### The laws of `dot` and of doubling (R134, R136) -/

theorem dot_comm (a b : Elem) : dot a b = dot b a := by
  apply residue_injective
  rw [residue_dot, residue_dot, mul_comm (residue a)]

theorem dot_assoc (a b c : Elem) : dot (dot a b) c = dot a (dot b c) := by
  apply residue_injective
  simp only [residue_dot]
  ring

theorem dot_xor (a b c : Elem) : dot a (b ^^^ c) = dot a b ^^^ dot a c := by
  apply residue_injective
  simp only [residue_dot, residue_xor]
  ring

@[simp] theorem dot_zero (a : Elem) : dot a 0 = 0 := by
  apply residue_injective
  simp

@[simp] theorem zero_dot (a : Elem) : dot 0 a = 0 := by
  rw [dot_comm, dot_zero]

theorem dot_x128 (a : Elem) : dot a x128 = a := by
  apply residue_injective
  rw [residue_dot, mul_assoc, residue_x128_mul_xInv128, mul_one]

theorem dot_one (a : Elem) : dot a 1 = mulMod a xInv128 := by
  apply residue_injective
  rw [residue_dot, residue_one, mul_one, residue_mulMod]

/-- Settles O10: each law is one of the classes modulo `P`. -/
theorem dotAlgebraLaws : Obligations.DotAlgebraLaws := by
  unfold Obligations.DotAlgebraLaws
  exact fun a b c => ⟨dot_comm a b, dot_assoc a b c, dot_xor a b c, dot_zero a, dot_x128 a, dot_one a⟩

/-- Doubling by its carry bit (R134). -/
theorem double_eq (a : Elem) : double a = if a.getLsbD 127 then (a <<< 1) ^^^ x128 else a <<< 1 := by
  unfold double
  split <;> simp

/-- Settles O8: the class of the doubled element is that of the product with `x`, and X128 tells the two products apart,
since it is the identity of `dot`. -/
theorem doubleIsTimesX : Obligations.DoubleIsTimesX := by
  unfold Obligations.DoubleIsTimesX
  refine ⟨fun a => ?_, double_eq, x128, ?_⟩
  · have product : AdjoinRoot.mk fieldPoly (poly a * X) = residue (double a) * AdjoinRoot.root fieldPoly ^ 0 := by
      rw [residue_double, map_mul, AdjoinRoot.mk_X, pow_zero, mul_one, residue]
    simpa using (mk_eq_residue_mul_root_pow_iff _ _ _).mp product
  · rw [dot_comm, dot_x128]
    decide

/-! ### The reduction (R133) -/

/-- The constant `C` of the folds has the bits 63, 62 and 57 (R133). -/
theorem poly_reductionConstant : poly reductionConstant = X ^ 63 + X ^ 62 + X ^ 57 := by
  have bits : reductionConstant = BitVec.twoPow 64 63 ^^^ BitVec.twoPow 64 62 ^^^ BitVec.twoPow 64 57 := by decide
  simp only [bits, poly_xor, poly_twoPow, Nat.reduceLT]

/-- The constant of the folds is the middle of `P`: `P = x^128 + x^64 · C + 1` (R130, R133). -/
theorem fieldPoly_eq_reductionConstant : fieldPoly = X ^ 128 + poly reductionConstant * X ^ 64 + 1 := by
  rw [poly_reductionConstant]
  unfold fieldPoly
  ring

/-- One fold: modulo `P` the lowest word goes into the three words above it (R133). -/
theorem mk_poly_fold (v : BitVec 64) :
    AdjoinRoot.mk fieldPoly (poly v) = AdjoinRoot.mk fieldPoly
      (poly ((clmul64 v reductionConstant).extractLsb' 0 64) * X ^ 64 +
        (poly v + poly ((clmul64 v reductionConstant).extractLsb' 64 64)) * X ^ 128) := by
  have product := poly_clmul64 v reductionConstant
  rw [poly_halves] at product
  rw [AdjoinRoot.mk_eq_mk]
  refine ⟨poly v, ?_⟩
  rw [fieldPoly_eq_reductionConstant]
  linear_combination -X ^ 64 * product -
    (poly v * X ^ 128 + poly v * poly reductionConstant * X ^ 64) * CharTwo.two_eq_zero (R := (ZMod 2)[X])

/-- The two folds divide by `x^128` modulo `P` (R133). -/
theorem residue_reduce_mul (d : BitVec 256) :
    residue (reduce d) * AdjoinRoot.root fieldPoly ^ 128 = AdjoinRoot.mk fieldPoly (poly d) := by
  have lower := mk_poly_fold (d.extractLsb' 0 64)
  have upper := mk_poly_fold (d.extractLsb' 64 64 ^^^
    (clmul64 (d.extractLsb' 0 64) reductionConstant).extractLsb' 0 64)
  rw [poly_words d]
  simp only [residue, reduce, poly_append, poly_xor, map_add, map_mul, map_pow, AdjoinRoot.mk_X] at lower upper ⊢
  linear_combination -lower - AdjoinRoot.root fieldPoly ^ 64 * upper

theorem dotByReduction_eq_dot (a b : Elem) : dotByReduction a b = dot a b := by
  apply residue_injective
  apply eq_of_mul_root_pow_eq
  rw [dotByReduction, residue_reduce_mul, poly_karatsuba, map_mul, residue_dot_mul, residue, residue]

/-- Settles O9: the Karatsuba step is an identity of polynomials, and both products have the same multiple by `x^128`
modulo `P`. -/
theorem multiplierRefinesDot : Obligations.MultiplierRefinesDot := by
  unfold Obligations.MultiplierRefinesDot
  exact fun a b => ⟨poly_karatsuba a b, dotByReduction_eq_dot a b⟩

end Sys2Proof.Machine
end

section
/-! PROOFS. The results of the commands that make no block-cipher request: the field commands, the POLYVAL commands and
`nop`; the absorption of a byte string in parts; and the step that runs a command. -/

namespace Sys2Proof.Machine

open Sys2Proof.Claims

/-! ### Byte strings in blocks (R16, R152) -/

theorem fe_replicate_zero (n : Nat) : fe (List.replicate n 0) = 0 := by
  apply BitVec.eq_of_getLsbD_eq
  intro i hi
  rw [fe_getLsbD _ _ hi, List.getElem?_replicate]
  split <;> simp

/-- Zero bytes at the end of a block do not change its element (R16). -/
theorem fe_append_zeros (bs : List Byte) (n : Nat) : fe (bs ++ List.replicate n 0) = fe bs := by
  induction bs with
  | nil => exact fe_replicate_zero n
  | cons b bs ih =>
    calc fe (b :: bs ++ List.replicate n 0)
        = (fe (bs ++ List.replicate n 0) <<< 8) ||| b.setWidth 128 := rfl
      _ = fe (b :: bs) := by rw [ih]; rfl

/-- A block of the padded string is the block of the string, where that is short by zero bytes (R152). -/
theorem fe_block_pad16 (bs : List Byte) (start : Nat) :
    fe (((pad16 bs).drop start).take 16) = fe ((bs.drop start).take 16) := by
  rw [pad16, List.drop_append, List.take_append, List.drop_replicate, List.take_replicate, fe_append_zeros]

/-- The blocks of the padded string are cut from the string itself (R152). -/
theorem blocks_pad16 (bs : List Byte) :
    blocks (pad16 bs) = (List.range (ceil16 bs.length)).map fun k => fe ((bs.drop (16 * k)).take 16) := by
  have count : (pad16 bs).length / 16 = ceil16 bs.length := by
    rw [← blocks_pad16_length]
    simp [blocks]
  simp only [blocks, count, fe_block_pad16]

theorem pad16_append {xs : List Byte} (whole : xs.length % 16 = 0) (ys : List Byte) :
    pad16 (xs ++ ys) = xs ++ pad16 ys := by
  have rest : (xs ++ ys).length % 16 = ys.length % 16 := by
    rw [List.length_append]
    omega
  simp only [pad16, rest, List.append_assoc]

/-! ### Absorption in parts (R150 to R152, R160) -/

/-- A string after whole blocks is absorbed apart from them (R160). -/
theorem absorbBytes_append {xs : List Byte} (whole : xs.length % 16 = 0) (h y : Elem) (ys : List Byte) :
    absorbBytes h y (xs ++ ys) = absorbBytes h (absorbBytes h y xs) ys := by
  simp only [absorbBytes, pad16_append whole, pad16_of_mod xs whole, blocks_append xs _ whole, List.foldl_append]

/-- One block is one absorb (R151). -/
theorem absorbBytes_block {xs : List Byte} (one : xs.length = 16) (h y : Elem) :
    absorbBytes h y xs = absorb h y (fe xs) := by
  have single : blocks (pad16 xs) = [fe xs] := by
    have all : xs.take 16 = xs := List.take_of_length_le one.le
    simp [blocks_pad16, one, ceil16, all]
  rw [absorbBytes, single]
  rfl

theorem polyval_append (h : Elem) (zs : List Elem) (z : Elem) :
    polyval h (zs ++ [z]) = dot (polyval h zs ^^^ z) h := by
  simp [polyval]

/-- Settles O22: absorption is a fold over the blocks, and whole blocks at the front are cut off as they are. -/
theorem incrementalEqualsWhole : Obligations.IncrementalEqualsWhole := by
  unfold Obligations.IncrementalEqualsWhole
  exact fun h y xs ys => ⟨fun whole => absorbBytes_append whole h y ys, fun one => absorbBytes_block one h y, rfl, rfl,
    polyval_append h⟩

/-! ### Commands that write one field register (R18, R244) -/

/-- A command that writes `v` to `rd` completes and changes nothing else. -/
theorem finishField_result (rd : FReg) (v : Elem) (s : State) : ∃ t, finishField rd v s = .next t ∧ Completed s t ∧
    t.fr.read rd = v ∧ (∀ r, r ≠ rd → t.fr.read r = s.fr.read r) ∧
    t.y = s.y ∧ SameKey s t ∧ SamePort s t ∧ SameBuf s t ∧ SameOutside s t :=
  ⟨_, rfl, rfl, FieldRegs.read_write_same _ _ _, fun _ other => FieldRegs.read_write_other _ _ _ _ other, rfl,
    ⟨rfl, rfl, rfl⟩, ⟨rfl, rfl, rfl, rfl, rfl⟩, fun _ => rfl, ⟨rfl, rfl, rfl, rfl, rfl, rfl, rfl, rfl⟩⟩

/-- Settles O12: the command writes the sum, and a value XOR itself is 0. -/
theorem feXorResult : Obligations.FeXorResult := by
  unfold Obligations.FeXorResult
  intro rd rs1 rs2 s
  obtain ⟨t, run, completed, sum, frame⟩ := finishField_result rd (s.fr.read rs1 ^^^ s.fr.read rs2) s
  refine ⟨t, run, completed, sum, ?_, frame⟩
  rintro rfl
  exact sum.trans BitVec.xor_self

/-- Settles O13: the command writes the product of R131. -/
theorem feMulResult : Obligations.FeMulResult := by
  unfold Obligations.FeMulResult
  exact fun rd rs1 rs2 s => finishField_result rd (dot (s.fr.read rs1) (s.fr.read rs2)) s

/-- Settles O14: the command writes what `double` is by definition. -/
theorem feDoubleResult : Obligations.FeDoubleResult := by
  unfold Obligations.FeDoubleResult
  exact fun rd rs1 s => finishField_result rd (double (s.fr.read rs1)) s

/-- Settles O19: the command writes Y. -/
theorem pvSumResult : Obligations.PvSumResult := by
  unfold Obligations.PvSumResult
  exact fun rd s => finishField_result rd s.y s

/-! ### Commands that write Y alone (R32) -/

/-- A command that completes with `v` in Y changes nothing else. -/
theorem complete_y_result (v : Elem) (s : State) :
    ∃ t, (.next (complete { s with y := v }) : Result) = .next t ∧ Completed s t ∧ t.y = v ∧
      SameFr s t ∧ SameKey s t ∧ SamePort s t ∧ SameBuf s t ∧ SameOutside s t :=
  ⟨_, rfl, rfl, rfl, fun _ => rfl, ⟨rfl, rfl, rfl⟩, ⟨rfl, rfl, rfl, rfl, rfl⟩, fun _ => rfl,
    ⟨rfl, rfl, rfl, rfl, rfl, rfl, rfl, rfl⟩⟩

/-- Settles O16: the command writes 0 to Y. -/
theorem pvResetResult : Obligations.PvResetResult := by
  unfold Obligations.PvResetResult
  exact fun s => complete_y_result 0 s

/-- Settles O17: the command writes one absorb to Y, and the absorb of Y itself is a product with 0. -/
theorem pvUpdateResult : Obligations.PvUpdateResult := by
  unfold Obligations.PvUpdateResult
  intro rs1 s
  obtain ⟨t, run, completed, y, frame⟩ := complete_y_result (absorb s.h s.y (s.fr.read rs1)) s
  refine ⟨t, run, completed, y, fun same => ?_, frame⟩
  have self : s.y ^^^ s.y = 0 := BitVec.xor_self
  rw [y, absorb, same, self, zero_dot]

/-- Settles O20: the command writes FR[rs1] to Y. -/
theorem pvRestoreResult : Obligations.PvRestoreResult := by
  unfold Obligations.PvRestoreResult
  exact fun rs1 s => complete_y_result (s.fr.read rs1) s

/-- All that `pv.updb` can do: an error, a fault at an unwritten source byte, or the absorption of its source (R156). -/
theorem execPvUpdb_cases (s : State) :
    (∃ c, updbCheck s = some c ∧ execPvUpdb s = .next (raiseError c s)) ∨
      (updbCheck s = none ∧ ∃ e, (s.curArg.src.toNat ≤ e ∧ e < s.curArg.src.toNat + s.curArg.len.toNat) ∧
        s.buf.read e = none ∧ execPvUpdb s = .fault (.unwrittenRead e)) ∨
      (updbCheck s = none ∧ ∃ bs, bs.length = s.curArg.len.toNat ∧ BytesAt s.buf s.curArg.src.toNat bs ∧
        execPvUpdb s = .next (complete { s with y := absorbBytes s.h s.y bs })) := by
  unfold execPvUpdb
  cases check : updbCheck s with
  | some c => exact .inl ⟨c, rfl, rfl⟩
  | none =>
    rcases readBuf_cases s s.curArg.src s.curArg.len fun bs =>
      .next (complete { s with y := absorbBytes s.h s.y bs }) with
      ⟨bs, length, source, run⟩ | ⟨e, inside, unwritten, run⟩
    · exact .inr (.inr ⟨rfl, bs, length, source, run⟩)
    · exact .inr (.inl ⟨rfl, e, inside, unwritten, run⟩)

theorem updbCheck_eq_none {s : State} (range : s.curArg.src.toNat + s.curArg.len.toNat ≤ bufBytes s) :
    updbCheck s = none := by
  simp [updbCheck, inRange, range]

/-- `pv.updb` over a written source in range absorbs it (R156). -/
theorem execPvUpdb_of_bytesAt {s : State} {bs : List Byte}
    (range : s.curArg.src.toNat + s.curArg.len.toNat ≤ bufBytes s) (length : bs.length = s.curArg.len.toNat)
    (source : BytesAt s.buf s.curArg.src.toNat bs) :
    execPvUpdb s = .next (complete { s with y := absorbBytes s.h s.y bs }) := by
  simp only [execPvUpdb, updbCheck_eq_none range, readBuf_of_bytesAt length source]

/-- Settles O18: the command writes to Y the fold over the blocks of the padded source, which are cut from the source
itself. -/
theorem pvUpdateBufResult : Obligations.PvUpdateBufResult := by
  unfold Obligations.PvUpdateBufResult
  intro s bs range length source
  obtain ⟨t, run, completed, y, frame⟩ := complete_y_result (absorbBytes s.h s.y bs) s
  refine ⟨t, (execPvUpdb_of_bytesAt range length source).trans run, completed, ?_, frame⟩
  rw [y, absorbBytes, blocks_pad16]
  rfl

/-! ### `pv.init` and `nop` (R153, R240) -/

/-- Settles O15: the command's state by its definition. -/
theorem pvInitResult : Obligations.PvInitResult := by
  unfold Obligations.PvInitResult
  intro rs1 s
  exact ⟨_, rfl, complete_completed s, rfl, rfl, rfl, rfl, fun _ => rfl, ⟨rfl, rfl, rfl, rfl, rfl⟩, fun _ => rfl,
    ⟨rfl, rfl, rfl, rfl, rfl, rfl, rfl, rfl⟩⟩

/-- Settles O11: a completion sets DONE, so `irq` is IRQ_EN. -/
theorem nopCompletes : Obligations.NopCompletes := by
  unfold Obligations.NopCompletes
  exact fun s => ⟨complete s, rfl, complete_completed s, rfl, Bool.and_true s.irqEn⟩

/-! ### The step that runs a command (R243, R281) -/

/-- An idle core, or one under reset, does nothing in its turn (R281, R290). -/
theorem coreTurn_of_idle {s : State} (idle : s.status.busy = false ∨ s.inputs.rst = true) : coreTurn s = .next s := by
  rcases idle with idle | reset
  · simp [coreTurn, idle]
  · simp [coreTurn, reset]

/-- Settles O6: either form of the step is the core's turn. -/
theorem stepRunsDecodedCommand : Obligations.StepRunsDecodedCommand := by
  unfold Obligations.StepRunsDecodedCommand
  constructor
  · intro s i rest hb hr word
    exact ⟨(step_nil rfl).trans (coreTurn_of_decode_ok hb hr word),
      (step_core rfl).trans (coreTurn_of_decode_ok (s := { s with agenda := rest }) hb hr word)⟩
  · intro s rest idle
    exact ⟨(step_nil rfl).trans (coreTurn_of_idle idle),
      (step_core rfl).trans (coreTurn_of_idle (s := { s with agenda := rest }) idle)⟩

end Sys2Proof.Machine
end

section
/-! PROOFS. The results of `xctr`, `hctr2.init` and the cipher commands, and the keystream by lanes. -/

namespace Sys2Proof.Machine

open Sys2Proof.Claims

/-! ### The keystream by groups of counters (R85, R223) -/

/-- The numbers below `l * g` by groups of `l`. -/
theorem range_mul_eq_flatMap (l g : Nat) :
    (List.range g).flatMap (fun k => (List.range l).map (l * k + ·)) = List.range (l * g) := by
  induction g with
  | zero => simp
  | succ g ih => rw [List.range_succ, List.flatMap_append, ih, Nat.mul_succ, List.range_add, List.flatMap_singleton]

theorem filter_range_lt {m n : Nat} (h : m ≤ n) : (List.range n).filter (· < m) = List.range m := by
  obtain ⟨k, rfl⟩ := Nat.exists_eq_add_of_le h
  rw [List.range_add, List.filter_append, List.filter_eq_self.mpr (by simp), List.filter_eq_nil_iff.mpr (by simp),
    List.append_nil]

/-- The groups cover the counters in order, and the last group stops at the last block. -/
theorem keystreamByLanes_eq (e : Elem → Elem) {lanes : Nat} (positive : 0 < lanes) (nonce : Elem) (m : Nat) :
    keystreamByLanes e lanes nonce m = keystream e nonce m := by
  have enough : m ≤ lanes * ((m + lanes - 1) / lanes) := by
    have := Nat.lt_mul_div_succ (m + lanes - 1) positive
    rw [Nat.mul_succ] at this
    omega
  rw [keystream, ← filter_range_lt enough, ← range_mul_eq_flatMap]
  simp [keystreamByLanes, List.filter_flatMap, List.flatMap_assoc, List.filter_map, List.flatMap_map, Function.comp_def]

/-- Settles O27: the groups are of any size but 0. -/
theorem acceleratedKeystreamIdentical : Obligations.AcceleratedKeystreamIdentical := by
  unfold Obligations.AcceleratedKeystreamIdentical
  exact fun e nonce m => ⟨keystreamByLanes_eq e (by omega) nonce m, keystreamByLanes_eq e (by omega) nonce m⟩

/-! ### XCTR (R221, R224) -/

theorem xctrBytes_eq_xorKeystream (e : Elem → Elem) (nonce : Elem) (bs : List Byte) :
    xctrBytes e nonce bs = xorKeystream e nonce bs := by
  refine List.ext_getElem (by simp [xorKeystream]) fun j _ _ => ?_
  rw [xctrBytes_getElem]
  simp [xorKeystream, ksBlock, bin128]

theorem keystreamLog_eq_keystreamRequests (e : Elem → Elem) (nonce : Elem) (k : Nat) :
    keystreamLog e nonce k = keystreamRequests e nonce (ceil16 k) := rfl

/-- Regions that are equal, disjoint or empty do not partially overlap (R188). -/
theorem argsOverlap_of_apart {a : Args} (apart : Apart a.src.toNat a.dst.toNat a.len.toNat) :
    argsOverlap a = false := by
  rw [argsOverlap_eq_decide, decide_eq_false_iff_not]
  unfold Apart at apart
  omega

theorem xctrCheck_eq_none {s : State} (ready : s.ready = true)
    (source : s.curArg.src.toNat + s.curArg.len.toNat ≤ bufBytes s)
    (destination : s.curArg.dst.toNat + s.curArg.dlen.toNat ≤ bufBytes s)
    (room : s.curArg.len.toNat ≤ s.curArg.dlen.toNat)
    (apart : Apart s.curArg.src.toNat s.curArg.dst.toNat s.curArg.len.toNat) : xctrCheck s = none := by
  simp [xctrCheck, inRange, ready, source, destination, room, argsOverlap_of_apart apart]

/-- `xctr` over a written source, where its checks pass, makes its exchanges (R224). -/
theorem execXctr_of_bytesAt {s : State} {bs : List Byte} (check : xctrCheck s = none)
    (length : bs.length = s.curArg.len.toNat) (source : BytesAt s.buf s.curArg.src.toNat bs) (rs1 : FReg) :
    execXctr rs1 s = exchange (keystreamLog (ek s) (s.fr.read rs1) bs.length) s (xctrAfter rs1 bs s) := by
  simp only [execXctr, check, readBuf_of_bytesAt length source, xctrAfter]

/-- A write of `n` bytes leaves what is outside its region. -/
theorem sameBufOutside_of_writeBytes {s t : State} {a n : Nat} {bs : List Byte}
    (written : t.buf = s.buf.writeBytes a bs) (length : bs.length = n) : SameBufOutside a n s t := by
  intro x outside
  rw [written]
  exact Memory.read_writeBytes_outside _ _ _ _ (length ▸ outside)

/-- Settles O25: the checks pass, the source is read, and the answered command takes the state `xctrAfter`. -/
theorem xctrResult : Obligations.XctrResult := by
  unfold Obligations.XctrResult
  intro rs1 s bs ready answered inSource inDestination room apart length source
  have run := execXctr_of_bytesAt (xctrCheck_eq_none ready inSource inDestination room apart) length source rs1
  rw [exchange_answered (by rwa [keystreamLog_length, length, ← answered_xctr_iff rs1 s])] at run
  refine ⟨_, run, rfl, ?_, sameBufOutside_of_writeBytes rfl (by rw [xctrBytes_length, length]), ?_, rfl, fun _ => rfl,
    rfl, rfl, ⟨rfl, rfl, rfl⟩, ⟨rfl, rfl, rfl, rfl, rfl, rfl, rfl, rfl⟩⟩
  · rw [← xctrBytes_eq_xorKeystream]
    exact Memory.bytesAt_writeBytes _ _ _
  · rw [keystreamLog_eq_keystreamRequests, length]
    rfl

/-! ### HCTR2_INIT (R180) -/

theorem constantBlock_eq_one : constantBlock = 1 := by decide

/-- The state of a successful `hctr2.init`, before its exchanges are recorded. -/
def initAfter (s : State) : State :=
  complete { s with h := ek s 0, l := ek s 1, y := 0, cache := { s.cache with valid := false }, ready := true }

/-- The exchanges of `hctr2.init`: the encryption of 0 and of 1 (R86, R180). -/
def initLog (s : State) : List BcExchange := [⟨.encrypt, 0, ek s 0⟩, ⟨.encrypt, 1, ek s 1⟩]

theorem execHctr2Init_of_check_none {s : State} (check : initCheck s = none) :
    execHctr2Init s = exchange (initLog s) s (initAfter s) := by
  simp only [execHctr2Init, check, constantBlock_eq_one, initLog, initAfter]

/-- All that `hctr2.init` can do: BLOCK_SIZE, which clears READY, or its exchanges (R180). -/
theorem execHctr2Init_cases (s : State) :
    (initCheck s = some .blockSize ∧ execHctr2Init s = .next (raiseError .blockSize { s with ready := false })) ∨
      (initCheck s = none ∧ execHctr2Init s = exchange (initLog s) s (initAfter s)) := by
  rcases initCheck_cases s with ⟨-, -, check⟩ | ⟨-, check⟩
  · exact .inl ⟨check, execHctr2Init_of_check check⟩
  · exact .inr ⟨check, execHctr2Init_of_check_none check⟩

/-- The check passes on a block size of 16, and once it has been sampled (R180). -/
theorem initCheck_eq_none {s : State} (sampled : s.inputs.bcBlockSize = 16 ∨ s.port ≠ Port.idle) :
    initCheck s = none := by
  rcases initCheck_cases s with ⟨idle, size, -⟩ | ⟨-, check⟩
  · rcases sampled with same | transferred
    · exact absurd same size
    · exact absurd idle transferred
  · exact check

/-- Settles O23: the check passes, and the answered command takes the state `initAfter`. -/
theorem hctr2InitResult : Obligations.Hctr2InitResult := by
  unfold Obligations.Hctr2InitResult
  intro s sampled answered
  have run := execHctr2Init_of_check_none (initCheck_eq_none sampled)
  rw [exchange_answered (log := initLog s) answered] at run
  exact ⟨_, run, rfl, rfl, rfl, rfl, rfl, rfl, rfl, rfl, rfl, rfl, fun _ => rfl, fun _ => rfl,
    ⟨rfl, rfl, rfl, rfl, rfl, rfl, rfl, rfl⟩⟩

/-! ### The tweak hash from the snapshots (R182 to R184) -/

/-- The tail hash from the state after header and tweak is the tweak hash: the header block, the tweak and the marked
tail are absorbed one after the other. -/
theorem hashTail_tweakPrefix (h : Elem) (t x : List Byte) :
    hashTail h (tweakPrefix h (dot (hdr t.length (alignBit x.length)) h) t) x (alignBit x.length) =
      tweakHash h t x := by
  have header : absorb h 0 (hdr t.length (alignBit x.length)) = dot (hdr t.length (alignBit x.length)) h := by
    rw [absorb, show (0 : Elem) ^^^ hdr t.length (alignBit x.length) = hdr t.length (alignBit x.length) from
      BitVec.zero_xor]
  rw [← header]
  simp only [tweakHash, polyval, hashTail, tweakPrefix, absorbBytes, List.foldl_cons, List.foldl_append]
  rfl

/-- What the nine steps give with the tweak hash computed from scratch (R182, R190). -/
def hctr2Scratch (e d : Elem → Elem) (dir : BcDir) (h l : Elem) (p t : List Byte) : Hctr2Out :=
  let n := p.drop 16
  let mm := fe (p.take 16) ^^^ tweakHash h t n
  let uu := stepFive e d dir mm
  let nonce := mm ^^^ uu ^^^ l
  let v := xorKeystream e nonce n
  { bytes := bytesOf (uu ^^^ tweakHash h t v) ++ v
    y := tweakHash h t v
    log := ⟨dir, mm, uu⟩ :: keystreamRequests e nonce (ceil16 n.length) }

/-- The nine steps from the snapshot of the header block are the nine steps from scratch: the two tails have one length,
so one header. -/
theorem hctr2Core_eq_scratch (e d : Elem → Elem) (dir : BcDir) (h l : Elem) (p t : List Byte) :
    hctr2Core e d dir h l (dot (hdr t.length (alignBit (p.length - 16))) h) p t = hctr2Scratch e d dir h l p t := by
  have tail : p.length - 16 = (p.drop 16).length := List.length_drop.symm
  have hashed (nonce : Elem) := hashTail_tweakPrefix h t (xctrBytes e nonce (p.drop 16))
  simp only [xctrBytes_length] at hashed
  simp only [hctr2Core, hctr2Scratch, tail, hashTail_tweakPrefix, hashed, ← xctrBytes_eq_xorKeystream,
    keystreamLog_eq_keystreamRequests]

/-- From a current cache the nine steps give what they give from scratch (R183, R186). -/
theorem CacheCurrent.hctr2Of_eq_scratch {s : State} (current : CacheCurrent s) (dir : BcDir) (p : List Byte)
    {t : List Byte} (tweakLength : t.length = s.curArg.tlen.toNat) :
    hctr2Of dir p t s = hctr2Scratch (ek s) (dk s) dir s.h s.l p t := by
  rw [current.hctr2Of_eq, ← tweakLength, hctr2Core_eq_scratch]

/-- A cache that a cipher command leaves is valid and keyed by the tweak length (R183). -/
theorem cacheState_valid_tlen (c : Cache) (h : Elem) (tlen : Word) :
    (cacheState c h tlen).valid = true ∧ (cacheState c h tlen).tlen = tlen := by
  by_cases hit : c.valid = true ∧ c.tlen = tlen
  · rwa [cacheState_of_hit hit]
  · rw [cacheState_of_miss hit]
    exact ⟨rfl, rfl⟩

/-! ### The cipher commands (R187, R190 to R193) -/

theorem cipherCheck_eq_none {s : State} (ready : s.ready = true)
    (source : s.curArg.src.toNat + s.curArg.len.toNat ≤ bufBytes s)
    (destination : s.curArg.dst.toNat + s.curArg.dlen.toNat ≤ bufBytes s)
    (tweak : s.curArg.twk.toNat + s.curArg.tlen.toNat ≤ bufBytes s) (long : 16 ≤ s.curArg.len.toNat)
    (room : s.curArg.len.toNat ≤ s.curArg.dlen.toNat)
    (apart : Apart s.curArg.src.toNat s.curArg.dst.toNat s.curArg.len.toNat) : cipherCheck s = none := by
  simp [cipherCheck, inRange, ready, source, destination, tweak, Nat.not_lt.mpr long, Nat.not_lt.mpr room,
    argsOverlap_of_apart apart]

/-- A cipher command over a written source and a written tweak, where its checks pass, makes its exchanges (R187). -/
theorem hctr2Run_of_bytesAt {s : State} {p t : List Byte} (check : cipherCheck s = none)
    (sourceLength : p.length = s.curArg.len.toNat) (source : BytesAt s.buf s.curArg.src.toNat p)
    (tweakLength : t.length = s.curArg.tlen.toNat) (tweak : BytesAt s.buf s.curArg.twk.toNat t) (dir : BcDir) :
    hctr2Run dir s = exchange (hctr2Of dir p t s).log s (hctr2After dir p t s) := by
  rw [hctr2Run_of_check check, readBuf_of_bytesAt sourceLength source, readBuf_of_bytesAt tweakLength tweak]

/-- The result of a cipher command in either direction: the answered command takes the state `hctr2After`, whose output
is that of the nine steps from scratch. -/
theorem cipherResult_of_run {i : Instr} {dir : BcDir} (cipher : i = .hctr2Enc ∨ i = .hctr2Dec)
    (runs : ∀ s, exec i s = hctr2Run dir s) : CipherResult i dir := by
  unfold CipherResult
  intro s p t ready current answered inSource inDestination inTweak long room apart sourceLength source tweakLength
    tweak
  have check := cipherCheck_eq_none ready inSource inDestination inTweak long room apart
  have run := (runs s).trans (hctr2Run_of_bytesAt check sourceLength source tweakLength tweak dir)
  rw [exchange_answered (by rwa [hctr2Of_log_length, sourceLength, ← answered_cipher_iff cipher])] at run
  have steps := current.hctr2Of_eq_scratch dir p tweakLength
  have outLength : (hctr2Of dir p t s).bytes.length = s.curArg.len.toNat :=
    (hctr2Core_length _ _ _ _ _ _ p t (sourceLength ▸ long)).trans sourceLength
  have tailLength : (p.drop 16).length = s.curArg.len.toNat - 16 := by rw [List.length_drop, sourceLength]
  obtain ⟨valid, tlen⟩ := cacheState_valid_tlen s.cache s.h s.curArg.tlen
  refine ⟨_, run, rfl, ?_, ?_, valid, tlen, ?_, rfl, rfl, ready, rfl,
    fun _ => rfl, ⟨rfl, rfl, rfl, rfl, rfl, rfl, rfl, rfl⟩⟩
  · simp only [hctr2After_y, hctr2After_buf, steps]
    rw [hctr2Scratch, tailLength]
    cases dir with
    | encrypt => exact ⟨Memory.bytesAt_writeBytes _ _ _, rfl, rfl⟩
    | decrypt => exact ⟨Memory.bytesAt_writeBytes _ _ _, rfl, rfl⟩
  · refine sameBufOutside_of_writeBytes ?_ outLength
    simp only [hctr2After_buf]
  · refine CacheStep.keeps_current (s := s) ?_ current
    exact .filled rfl s.curArg.tlen rfl

/-- Settles O29: `hctr2.enc` is the run in the direction of encryption. -/
theorem hctr2EncryptResult : Obligations.Hctr2EncryptResult := by
  unfold Obligations.Hctr2EncryptResult
  exact cipherResult_of_run (.inl rfl) fun _ => rfl

/-- Settles O30: `hctr2.dec` is the run in the direction of decryption. -/
theorem hctr2DecryptResult : Obligations.Hctr2DecryptResult := by
  unfold Obligations.Hctr2DecryptResult
  exact cipherResult_of_run (.inr rfl) fun _ => rfl

/-! ### Two runs on the same inputs (R196) -/

/-- A completed run of a cipher command, with its requests answered, leaves the Y of the nine steps. -/
theorem hctr2Run_completed_y {dir : BcDir} {s u : State} {p t : List Byte}
    (sourceLength : p.length = s.curArg.len.toNat) (source : BytesAt s.buf s.curArg.src.toNat p)
    (tweakLength : t.length = s.curArg.tlen.toNat) (tweak : BytesAt s.buf s.curArg.twk.toNat t)
    (answered : s.inputs.bcAnswers = true ∨ 1 + ceil16 (s.curArg.len.toNat - 16) ≤ s.port.answered)
    (run : hctr2Run dir s = .next u) (completed : Completed s u) : u.y = (hctr2Of dir p t s).y := by
  cases check : cipherCheck s with
  | some code =>
    simp only [hctr2Run, check] at run
    cases run
    have noError : code = .noError := congrArg Status.errCode completed
    exact absurd (noError ▸ check) (cipherCheck_ne_noError s)
  | none =>
    rw [hctr2Run_of_bytesAt check sourceLength source tweakLength tweak,
      exchange_answered (by rwa [hctr2Of_log_length, sourceLength])] at run
    rw [← Host.Outcome.next.inj run]
    exact hctr2After_y dir p t s

/-- From two current caches the nine steps give the same on the same key, H, L and tweak length. -/
theorem CacheCurrent.hctr2Of_congr {s s' : State} (current : CacheCurrent s) (current' : CacheCurrent s')
    (key : s'.inputs.bcKey = s.inputs.bcKey) (h : s'.h = s.h) (l : s'.l = s.l)
    (tlen : s'.curArg.tlen = s.curArg.tlen) (dir : BcDir) (p t : List Byte) :
    hctr2Of dir p t s' = hctr2Of dir p t s := by
  have sameEk : ek s' = ek s := by unfold ek; rw [key]
  have sameDk : dk s' = dk s := by unfold dk; rw [key]
  rw [current'.hctr2Of_eq, current.hctr2Of_eq, sameEk, sameDk, h, l, tlen]

/-- Settles O33: both runs write and leave what the nine steps give on the same inputs. -/
theorem outputDependsOnInputsOnly : Obligations.OutputDependsOnInputsOnly := by
  unfold Obligations.OutputDependsOnInputsOnly
  intro i s t s' t' p tw cipher length source tweakLength tweak current answered run completed key h l len tlen source'
    tweak' current' answered' run' completed'
  obtain ⟨dir, runs⟩ : ∃ dir, ∀ s, exec i s = hctr2Run dir s := by
    rcases cipher with rfl | rfl
    · exact ⟨.encrypt, fun _ => rfl⟩
    · exact ⟨.decrypt, fun _ => rfl⟩
  rw [runs] at run run'
  rw [answered_cipher_iff cipher] at answered answered'
  have length' : p.length = s'.curArg.len.toNat := by rw [length, len]
  have tweakLength' : tw.length = s'.curArg.tlen.toNat := by rw [tweakLength, tlen]
  have same := current.hctr2Of_congr current' key h l tlen dir p tw
  obtain ⟨long, written⟩ := hctr2Run_completed length source tweakLength tweak answered run completed
  obtain ⟨-, written'⟩ := hctr2Run_completed length' source' tweakLength' tweak' answered' run' completed'
  have outLength : (hctr2Of dir p tw s).bytes.length = p.length := hctr2Core_length _ _ _ _ _ _ _ _ long
  constructor
  · intro j inside
    have inOutput : j < (hctr2Of dir p tw s).bytes.length := outLength ▸ inside
    rw [written, written', same, Memory.bytesAt_writeBytes _ _ _ j inOutput,
      Memory.bytesAt_writeBytes _ _ _ j inOutput]
  · rw [hctr2Run_completed_y length source tweakLength tweak answered run completed,
      hctr2Run_completed_y length' source' tweakLength' tweak' answered' run' completed', same]

end Sys2Proof.Machine
end

section
/-! PROOFS. The requests that a command issues and the answers to them, its faults, its wait for a silent block cipher
and its end with one that answers; and the inputs that a command does not read. -/

namespace Sys2Proof.Machine

open Sys2Proof.Claims

/-! ### The recorded requests (R84, R86) -/

/-- The answer of an exchange is `Ek` or `Dk` of its request, by its direction (R84). -/
def AnsweredBy (s : State) (e : BcExchange) : Prop :=
  e.rsp = stepFive (ek s) (dk s) e.dir e.req

/-- What a command that gives a next state adds to the record: nothing, where it issues no request, does not complete
without error or has a request that is not answered; or all its exchanges, in the rule's order, where it completed. -/
inductive Recorded (i : Instr) (s t : State) : Prop where
  | nothing (log : t.bcLog = s.bcLog) (why : requestDirs i s = [] ∨ ¬Completed s t ∨ ¬Answered i s)
  | exchanges (es : List BcExchange) (log : t.bcLog = s.bcLog ++ es) (answers : ∀ e ∈ es, AnsweredBy s e)
      (completed : Completed s t) (dirs : es.map (·.dir) = requestDirs i s)

/-- An error other than NONE is no completion without error (R244, R245). -/
theorem not_completed_of_failed {c : ErrCode} {s t : State} (real : c ≠ .noError) (failed : Failed c s t) :
    ¬Completed s t := by
  intro completed
  have codes := congrArg Status.errCode (failed.symm.trans completed)
  exact real codes

theorem Recorded.of_raiseError {i : Instr} {s : State} {c : ErrCode} (real : c ≠ .noError) :
    Recorded i s (raiseError c s) :=
  .nothing rfl (.inr (.inl (not_completed_of_failed real (raiseError_failed c s))))

/-- A command with its exchanges to make records them all, or waits and records nothing. -/
theorem Recorded.of_exchange {i : Instr} {log : List BcExchange} {s after t : State}
    (run : exchange log s after = .next t) (completed : Completed s after) (answers : ∀ e ∈ log, AnsweredBy s e)
    (dirs : log.map (·.dir) = requestDirs i s) : Recorded i s t := by
  rcases exchange_cases log s after with ⟨-, taken⟩ | ⟨silent, unanswered, kept⟩
  · cases run.symm.trans taken
    exact .exchanges log rfl answers completed dirs
  · cases run.symm.trans kept
    refine .nothing rfl (.inr (.inr ?_))
    have count : (requestDirs i s).length = log.length := by rw [← dirs, List.length_map]
    rintro (answering | answered)
    · exact absurd answering (by simp [silent])
    · omega

theorem keystreamLog_answers (s : State) (n : Elem) (k : Nat) : ∀ e ∈ keystreamLog (ek s) n k, AnsweredBy s e := by
  simp [keystreamLog, AnsweredBy, stepFive, ksBlock]

theorem keystreamLog_dirs (e : Elem → Elem) (n : Elem) (k : Nat) :
    (keystreamLog e n k).map (·.dir) = List.replicate (ceil16 k) .encrypt := by
  simp [keystreamLog, Function.comp_def, List.map_const']

theorem hctr2Of_answers (dir : BcDir) (p t : List Byte) (s : State) :
    ∀ e ∈ (hctr2Of dir p t s).log, AnsweredBy s e := by
  simp only [hctr2Of, hctr2Core, List.forall_mem_cons]
  exact ⟨rfl, keystreamLog_answers s _ _⟩

theorem hctr2Of_dirs (dir : BcDir) (p t : List Byte) (s : State) :
    (hctr2Of dir p t s).log.map (·.dir) = dir :: List.replicate (ceil16 (p.length - 16)) .encrypt := by
  simp [hctr2Of, hctr2Core, keystreamLog_dirs]

theorem execXctr_recorded {r : FReg} {s t : State} (run : execXctr r s = .next t) : Recorded (.xctr r) s t := by
  rcases execXctr_cases r s with ⟨c, check, error⟩ | ⟨-, e, -, -, fault⟩ | ⟨-, bs, length, -, exchanges⟩
  · cases run.symm.trans error
    exact .of_raiseError fun noError => xctrCheck_ne_noError s (noError ▸ check)
  · cases run.symm.trans fault
  · refine .of_exchange (exchanges.symm.trans run) rfl (keystreamLog_answers s _ _) ?_
    rw [keystreamLog_dirs, length]
    rfl

theorem hctr2Run_recorded {i : Instr} {dir : BcDir} {s t : State}
    (dirs : requestDirs i s = dir :: List.replicate (ceil16 (s.curArg.len.toNat - 16)) .encrypt)
    (run : hctr2Run dir s = .next t) : Recorded i s t := by
  rcases hctr2Run_cases dir s with ⟨c, check, error⟩ | ⟨-, e, -, -, fault⟩ | ⟨-, p, k, length, -, -, -, exchanges⟩
  · cases run.symm.trans error
    exact .of_raiseError fun noError => cipherCheck_ne_noError s (noError ▸ check)
  · cases run.symm.trans fault
  · refine .of_exchange (exchanges.symm.trans run) rfl (hctr2Of_answers dir p k s) ?_
    rw [hctr2Of_dirs, length, dirs]

theorem execHctr2Init_recorded {s t : State} (run : execHctr2Init s = .next t) : Recorded .hctr2Init s t := by
  rcases execHctr2Init_cases s with ⟨-, error⟩ | ⟨-, exchanges⟩
  · cases run.symm.trans error
    exact .nothing rfl (.inr (.inl (not_completed_of_failed (c := .blockSize) (by simp) rfl)))
  · exact .of_exchange (exchanges.symm.trans run) rfl (by simp [initLog, AnsweredBy, stepFive]) rfl

theorem execPvUpdb_recorded {s t : State} (run : execPvUpdb s = .next t) : Recorded .pvUpdb s t := by
  refine .nothing ?_ (.inl rfl)
  rcases execPvUpdb_cases s with ⟨c, -, error⟩ | ⟨-, e, -, -, fault⟩ | ⟨-, bs, -, -, absorbed⟩
  · cases run.symm.trans error
    rfl
  · cases run.symm.trans fault
  · cases run.symm.trans absorbed
    rfl

theorem exec_recorded {i : Instr} {s t : State} (run : exec i s = .next t) : Recorded i s t := by
  cases i with
  | nop | feXor | feMul | feDbl | pvInit | pvReset | pvUpd | pvSum | pvRest =>
    cases run
    exact .nothing rfl (.inl rfl)
  | pvUpdb => exact execPvUpdb_recorded run
  | xctr => exact execXctr_recorded run
  | hctr2Init => exact execHctr2Init_recorded run
  | hctr2Enc => exact hctr2Run_recorded rfl run
  | hctr2Dec => exact hctr2Run_recorded rfl run

/-- Settles O34: a command records nothing or all its exchanges. -/
theorem commandsIssueTheirRequests : Obligations.CommandsIssueTheirRequests := by
  unfold Obligations.CommandsIssueTheirRequests
  intro i s t run
  cases exec_recorded run with
  | nothing log why =>
    refine ⟨[], by simpa using log, by simp, by simp, fun answered completed => ?_⟩
    rcases why with none | failed | waits
    · exact none.symm
    · exact absurd completed failed
    · exact absurd answered waits
  | exchanges es log answers completed dirs =>
    refine ⟨es, log, fun e mem => ?_, fun _ => ⟨completed, dirs⟩, fun _ _ => dirs⟩
    have answer := answers e mem
    rw [AnsweredBy] at answer
    cases dir : e.dir <;> rw [dir] at answer <;> exact answer

/-! ### Faults (R71, R303) -/

/-- Where a command may fault: in the source of the four commands that read BUF, or in the tweak of the cipher commands
(R71). -/
def ReadsAt (i : Instr) (s : State) (x : Nat) : Prop :=
  (i = .pvUpdb ∨ (∃ r, i = .xctr r) ∨ i = .hctr2Enc ∨ i = .hctr2Dec) ∧
      s.curArg.src.toNat ≤ x ∧ x < s.curArg.src.toNat + s.curArg.len.toNat ∨
    (i = .hctr2Enc ∨ i = .hctr2Dec) ∧
      s.curArg.twk.toNat ≤ x ∧ x < s.curArg.twk.toNat + s.curArg.tlen.toNat

/-- A command with exchanges to make does not fault. -/
theorem exchange_ne_fault (log : List BcExchange) (s after : State) (f : Fault) : exchange log s after ≠ .fault f := by
  unfold exchange
  split <;> simp

theorem execPvUpdb_fault {s : State} {f : Fault} (run : execPvUpdb s = .fault f) :
    ∃ e, f = .unwrittenRead e ∧ s.buf.read e = none ∧ ReadsAt .pvUpdb s e := by
  rcases execPvUpdb_cases s with ⟨c, -, error⟩ | ⟨-, e, inside, unwritten, fault⟩ | ⟨-, bs, -, -, absorbed⟩
  · cases run.symm.trans error
  · cases run.symm.trans fault
    exact ⟨e, rfl, unwritten, .inl ⟨.inl rfl, inside⟩⟩
  · cases run.symm.trans absorbed

theorem execXctr_fault {r : FReg} {s : State} {f : Fault} (run : execXctr r s = .fault f) :
    ∃ e, f = .unwrittenRead e ∧ s.buf.read e = none ∧ ReadsAt (.xctr r) s e := by
  rcases execXctr_cases r s with ⟨c, -, error⟩ | ⟨-, e, inside, unwritten, fault⟩ | ⟨-, bs, -, -, exchanges⟩
  · cases run.symm.trans error
  · cases run.symm.trans fault
    exact ⟨e, rfl, unwritten, .inl ⟨.inr (.inl ⟨r, rfl⟩), inside⟩⟩
  · exact absurd (exchanges.symm.trans run) (exchange_ne_fault _ _ _ f)

theorem hctr2Run_fault {i : Instr} (cipher : i = .hctr2Enc ∨ i = .hctr2Dec) {dir : BcDir} {s : State} {f : Fault}
    (run : hctr2Run dir s = .fault f) : ∃ e, f = .unwrittenRead e ∧ s.buf.read e = none ∧ ReadsAt i s e := by
  rcases hctr2Run_cases dir s with ⟨c, -, error⟩ | ⟨-, e, inside, unwritten, fault⟩ | ⟨-, p, t, -, -, -, -, exchanges⟩
  · cases run.symm.trans error
  · cases run.symm.trans fault
    refine ⟨e, rfl, unwritten, ?_⟩
    rcases inside with source | tweak
    · exact .inl ⟨.inr (.inr cipher), source⟩
    · exact .inr ⟨cipher, tweak⟩
  · exact absurd (exchanges.symm.trans run) (exchange_ne_fault _ _ _ f)

theorem execHctr2Init_ne_fault (s : State) (f : Fault) : execHctr2Init s ≠ .fault f := by
  rcases execHctr2Init_cases s with ⟨-, error⟩ | ⟨-, exchanges⟩
  · simp [error]
  · exact exchanges ▸ exchange_ne_fault _ _ _ f

theorem exec_fault {i : Instr} {s : State} {f : Fault} (run : exec i s = .fault f) :
    ∃ e, f = .unwrittenRead e ∧ s.buf.read e = none ∧ ReadsAt i s e := by
  cases i with
  | nop | feXor | feMul | feDbl | pvInit | pvReset | pvUpd | pvSum | pvRest => cases run
  | pvUpdb => exact execPvUpdb_fault run
  | xctr => exact execXctr_fault run
  | hctr2Init => exact absurd run (execHctr2Init_ne_fault s f)
  | hctr2Enc => exact hctr2Run_fault (.inl rfl) run
  | hctr2Dec => exact hctr2Run_fault (.inr rfl) run

theorem Reports.ne_refused {s : State} {check : Option ErrCode} {result : Result} (reports : Reports s check result)
    (r : Refusal) : result ≠ .refused r := by
  cases reports <;> simp

theorem exec_ne_refused (i : Instr) (s : State) (r : Refusal) : exec i s ≠ .refused r :=
  (exec_reports i s).ne_refused r

theorem coreTurn_ne_refused (s : State) (r : Refusal) : coreTurn s ≠ .refused r := by
  unfold coreTurn runCommand
  split
  · split
    · exact exec_ne_refused _ s r
    · simp
  · simp

theorem happen_ne_refused (e : Event) (s : State) (r : Refusal) : happen e s ≠ .refused r := by
  cases e with
  | core | read | write | setRst | setBlockSize | setHasXctr | setAnswers | request | response => simp [happen]
  | rekey | strayResponse =>
    simp only [happen]
    split <;> simp

theorem step_ne_refused (s : State) (r : Refusal) : step s ≠ .refused r := by
  unfold step
  split
  · exact coreTurn_ne_refused s r
  · exact coreTurn_ne_refused _ r
  · exact happen_ne_refused _ _ r

/-- Settles O39: the faults are those of the reads of BUF, and neither the core's turn nor an event is refused. -/
theorem faultsOnlyAtUnwrittenBytes : Obligations.FaultsOnlyAtUnwrittenBytes := by
  unfold Obligations.FaultsOnlyAtUnwrittenBytes
  exact ⟨fun _ _ _ run => exec_fault run, step_ne_refused⟩

/-- A region that holds a byte string has no unwritten byte. -/
theorem BytesAt.ne_none {m : Memory} {a n x : Nat} {bs : List Byte} (holds : BytesAt m a bs) (length : bs.length = n)
    (inside : a ≤ x ∧ x < a + n) : m.read x ≠ none := by
  obtain ⟨j, rfl⟩ := Nat.exists_eq_add_of_le inside.1
  rw [holds j (by omega)]
  simp

theorem execPvUpdb_unwritten {s : State} {x : Nat} (check : updbCheck s = none) (unwritten : s.buf.read x = none)
    (inside : s.curArg.src.toNat ≤ x ∧ x < s.curArg.src.toNat + s.curArg.len.toNat) :
    ∃ e, execPvUpdb s = .fault (.unwrittenRead e) := by
  rcases execPvUpdb_cases s with ⟨c, failed, -⟩ | ⟨-, e, -, -, fault⟩ | ⟨-, bs, length, source, -⟩
  · cases check.symm.trans failed
  · exact ⟨e, fault⟩
  · exact absurd unwritten (source.ne_none length inside)

theorem execXctr_unwritten {r : FReg} {s : State} {x : Nat} (check : xctrCheck s = none)
    (unwritten : s.buf.read x = none)
    (inside : s.curArg.src.toNat ≤ x ∧ x < s.curArg.src.toNat + s.curArg.len.toNat) :
    ∃ e, execXctr r s = .fault (.unwrittenRead e) := by
  rcases execXctr_cases r s with ⟨c, failed, -⟩ | ⟨-, e, -, -, fault⟩ | ⟨-, bs, length, source, -⟩
  · cases check.symm.trans failed
  · exact ⟨e, fault⟩
  · exact absurd unwritten (source.ne_none length inside)

theorem hctr2Run_unwritten {dir : BcDir} {s : State} {x : Nat} (check : cipherCheck s = none)
    (unwritten : s.buf.read x = none)
    (inside : (s.curArg.src.toNat ≤ x ∧ x < s.curArg.src.toNat + s.curArg.len.toNat) ∨
      (s.curArg.twk.toNat ≤ x ∧ x < s.curArg.twk.toNat + s.curArg.tlen.toNat)) :
    ∃ e, hctr2Run dir s = .fault (.unwrittenRead e) := by
  rcases hctr2Run_cases dir s with
    ⟨c, failed, -⟩ | ⟨-, e, -, -, fault⟩ | ⟨-, p, t, sourceLength, source, tweakLength, tweak, -⟩
  · cases check.symm.trans failed
  · exact ⟨e, fault⟩
  · rcases inside with inSource | inTweak
    · exact absurd unwritten (source.ne_none sourceLength inSource)
    · exact absurd unwritten (tweak.ne_none tweakLength inTweak)

/-- Settles O40: past its checks a command reads its regions, and the read of an unwritten byte faults. -/
theorem unwrittenReadFaults : Obligations.UnwrittenReadFaults := by
  unfold Obligations.UnwrittenReadFaults
  intro i s x reader check unwritten inside
  rw [firstFailure_eq_commandCheck] at check
  have inCipher := inside.imp id And.right
  rcases reader with rfl | ⟨r, rfl⟩ | rfl | rfl
  · exact execPvUpdb_unwritten check unwritten (by simpa using inside)
  · exact execXctr_unwritten check unwritten (by simpa using inside)
  · exact hctr2Run_unwritten check unwritten inCipher
  · exact hctr2Run_unwritten check unwritten inCipher

/-! ### The wait and the end of a command (R305) -/

/-- Settles O41: past its checks and its reads a command comes to its exchanges, and waits there. -/
theorem silentBlockCipherHangs : Obligations.SilentBlockCipherHangs := by
  unfold Obligations.SilentBlockCipherHangs
  refine ⟨?_, ?_, ?_⟩
  · intro s silent sampled unanswered
    exact (execHctr2Init_of_check_none (initCheck_eq_none sampled)).trans (exchange_silent silent unanswered)
  · intro r s bs silent check unanswered length source
    rw [firstFailure_eq_commandCheck] at check
    refine (execXctr_of_bytesAt check length source r).trans (exchange_silent silent ?_)
    rwa [keystreamLog_length, length]
  · intro i s p t cipher silent check unanswered sourceLength source tweakLength tweak
    rw [firstFailure_eq_commandCheck] at check
    have waits (dir : BcDir) (check : cipherCheck s = none) : hctr2Run dir s = .next s := by
      refine (hctr2Run_of_bytesAt check sourceLength source tweakLength tweak dir).trans (exchange_silent silent ?_)
      rwa [hctr2Of_log_length, sourceLength]
    rcases cipher with rfl | rfl
    · exact waits .encrypt check
    · exact waits .decrypt check

/-- A command whose requests are all answered ends with BUSY 0 and DONE 1. -/
theorem Ending.ends {i : Instr} {s t : State} (ending : Ending i s t) (answered : Answered i s) :
    t.status.busy = false ∧ t.status.done = true := by
  cases ending with
  | completed status _ => simp [show t.status = _ from status]
  | failed c _ status _ _ => simp [show t.status = _ from status]
  | waits _ silent unanswered =>
    rcases answered with answering | all
    · exact absurd answering (by simp [silent])
    · omega

/-- Settles O42: an illegal word ends with an error, and a legal command has one of its endings, of which an answered
one does not wait. -/
theorem answeredCommandEnds : Obligations.AnsweredCommandEnds := by
  unfold Obligations.AnsweredCommandEnds
  intro s t hb hr answered turn run
  rw [step_of_hasTurn turn] at run
  cases word : decode s.curCmd with
  | error e =>
    cases run.symm.trans (coreTurn_of_illegal hb hr word)
    exact ⟨rfl, rfl⟩
  | ok i =>
    rw [coreTurn_of_decode_ok (s := turnTaken s) hb hr word] at run
    exact (exec_ending run).ends (answered i word)

/-! ### Inputs that a command does not read (R10, R180) -/

/-- The state with its inputs changed by `g`. -/
def setInputs (g : Inputs → Inputs) (s : State) : State := { s with inputs := g s.inputs }

section

variable {g : Inputs → Inputs} (key : ∀ x, (g x).bcKey = x.bcKey) (answers : ∀ x, (g x).bcAnswers = x.bcAnswers)

theorem readBuf_setInputs {s : State} {a n : Word} {k k' : List Byte → Result}
    (agree : ∀ bs, k' bs = mapNext (setInputs g) (k bs)) :
    readBuf (setInputs g s) a n k' = mapNext (setInputs g) (readBuf s a n k) := by
  have sameBuf : (setInputs g s).buf = s.buf := rfl
  unfold readBuf
  rw [sameBuf]
  cases s.buf.readBytes a.toNat n.toNat with
  | error e => rfl
  | ok bs => exact agree bs

include answers in
theorem exchange_setInputs {log : List BcExchange} {s after after' : State} (same : after' = setInputs g after) :
    exchange log (setInputs g s) after' = mapNext (setInputs g) (exchange log s after) := by
  have sameAnswers : (setInputs g s).inputs.bcAnswers = s.inputs.bcAnswers := answers s.inputs
  subst same
  rcases exchange_cases log s after with ⟨answered, taken⟩ | ⟨silent, waits, kept⟩
  · rw [taken, exchange_answered (sameAnswers ▸ answered)]
    rfl
  · rw [kept, exchange_silent (sameAnswers.trans silent) waits]
    rfl

include key in
theorem ek_setInputs (s : State) : ek (setInputs g s) = ek s := by
  have sameKey : (setInputs g s).inputs.bcKey = s.inputs.bcKey := key s.inputs
  unfold ek
  rw [sameKey]

include key in
theorem dk_setInputs (s : State) : dk (setInputs g s) = dk s := by
  have sameKey : (setInputs g s).inputs.bcKey = s.inputs.bcKey := key s.inputs
  unfold dk
  rw [sameKey]

theorem execPvUpdb_setInputs (s : State) :
    execPvUpdb (setInputs g s) = mapNext (setInputs g) (execPvUpdb s) := by
  have sameCheck : updbCheck (setInputs g s) = updbCheck s := rfl
  unfold execPvUpdb
  rw [sameCheck]
  cases updbCheck s with
  | some code => rfl
  | none => exact readBuf_setInputs fun _ => rfl

include key answers in
theorem execXctr_setInputs (r : FReg) (s : State) :
    execXctr r (setInputs g s) = mapNext (setInputs g) (execXctr r s) := by
  have sameCheck : xctrCheck (setInputs g s) = xctrCheck s := rfl
  unfold execXctr
  rw [sameCheck, ek_setInputs key]
  cases xctrCheck s with
  | some code => rfl
  | none => exact readBuf_setInputs fun _ => exchange_setInputs answers rfl

include key answers in
theorem execHctr2Init_setInputs {s : State} (size : (g s.inputs).bcBlockSize = s.inputs.bcBlockSize) :
    execHctr2Init (setInputs g s) = mapNext (setInputs g) (execHctr2Init s) := by
  have sameCheck : initCheck (setInputs g s) = initCheck s := by
    simp only [initCheck, setInputs, size]
  unfold execHctr2Init
  rw [sameCheck, ek_setInputs key]
  cases initCheck s with
  | some code => rfl
  | none => exact exchange_setInputs answers rfl

include key answers in
theorem hctr2Run_setInputs (dir : BcDir) (s : State) :
    hctr2Run dir (setInputs g s) = mapNext (setInputs g) (hctr2Run dir s) := by
  have sameCheck : cipherCheck (setInputs g s) = cipherCheck s := rfl
  cases check : cipherCheck s with
  | some code =>
    simp only [hctr2Run, sameCheck, check]
    rfl
  | none =>
    rw [hctr2Run_of_check check, hctr2Run_of_check (sameCheck.trans check)]
    refine readBuf_setInputs fun p => readBuf_setInputs fun t => ?_
    have steps : hctr2Of dir p t (setInputs g s) = hctr2Of dir p t s := by
      rw [hctr2Of, hctr2Of, ek_setInputs key, dk_setInputs key]
      rfl
    have after : hctr2After dir p t (setInputs g s) = setInputs g (hctr2After dir p t s) := by
      rw [hctr2After, steps]
      simp only [hctr2After, complete, leaveScratch, setInputs]
    rw [steps]
    exact exchange_setInputs answers after

include key answers in
/-- Other inputs, under which the block cipher has the same key and answers alike, stay there and change nothing else of
what a command does; `hctr2.init` reads the block size too. -/
theorem exec_setInputs (i : Instr) (s : State)
    (size : i = .hctr2Init → (g s.inputs).bcBlockSize = s.inputs.bcBlockSize) :
    exec i (setInputs g s) = mapNext (setInputs g) (exec i s) := by
  cases i with
  | nop | feXor | feMul | feDbl | pvInit | pvReset | pvUpd | pvSum | pvRest => rfl
  | pvUpdb => exact execPvUpdb_setInputs s
  | xctr r => exact execXctr_setInputs key answers r s
  | hctr2Init => exact execHctr2Init_setInputs key answers (size rfl)
  | hctr2Enc => exact hctr2Run_setInputs key answers .encrypt s
  | hctr2Dec => exact hctr2Run_setInputs key answers .decrypt s

end

/-- Settles O28: `bc_has_xctr` is neither the key, nor the answering of the block cipher, nor the block size. -/
theorem resultsIgnoreLanes : Obligations.ResultsIgnoreLanes := by
  unfold Obligations.ResultsIgnoreLanes
  exact fun i s b => exec_setInputs (g := fun x => { x with bcHasXctr := b }) (fun _ => rfl) (fun _ => rfl) i s
    fun _ => rfl

end Sys2Proof.Machine
end

section
/-! PROOFS. All that a step can be, and what it does to the key registers: who writes H, L, READY and the cache; then
reset. -/

namespace Sys2Proof.Machine

open Sys2Proof.Claims

/-! ### All that a step can be -/

/-- A step is a command that runs to its end or waits, the end of an illegal word, a turn of a core that is idle or
under reset, or an event of the surroundings. -/
inductive StepCase (s t : State) : Prop where
  | command (i : Instr) (runs : Runs s i) (run : exec i (turnTaken s) = .next t)
  | illegal (e : DecodeError) (word : decode s.curCmd = .error e) (rst : s.inputs.rst = false)
      (ended : t = raiseError .illegal (turnTaken s))
  | idle (same : t = turnTaken s)
  | event (e : Event) (entry : s.agenda = e :: s.agenda.tail) (event : happen e (turnTaken s) = .next t)

theorem StepCase.of_turn {s t : State} (turn : HasTurn s) (run : step s = .next t) : StepCase s t := by
  rw [step_of_hasTurn turn] at run
  by_cases active : s.status.busy = true ∧ s.inputs.rst = false
  · obtain ⟨hb, hr⟩ := active
    cases word : decode s.curCmd with
    | ok i =>
      rw [coreTurn_of_decode_ok (s := turnTaken s) hb hr word] at run
      exact .command i ⟨hb, hr, word, turn⟩ run
    | error e =>
      cases run.symm.trans (coreTurn_of_illegal (s := turnTaken s) hb hr word)
      exact .illegal e word hr rfl
  · have idle : (turnTaken s).status.busy = false ∨ (turnTaken s).inputs.rst = true := by
      simpa [turnTaken, Classical.or_iff_not_imp_left] using active
    cases run.symm.trans (coreTurn_of_idle idle)
    exact .idle rfl

theorem step_cases {s t : State} (run : step s = .next t) : StepCase s t := by
  cases agenda : s.agenda with
  | nil => exact .of_turn (.inl agenda) run
  | cons e rest =>
    by_cases core : e = .core
    · exact .of_turn (.inr ⟨rest, core ▸ agenda⟩) run
    · have event : step s = happen e (turnTaken s) := by
        simp only [step, turnTaken, agenda, List.tail_cons]
      exact .event e (by rw [agenda, List.tail_cons]) (event.symm.trans run)

/-! ### What a command does to the key registers and the cache (R31, R33, R34, R185) -/

/-- All that a command does to H, L, READY and the cache. -/
inductive KeyEffect (i : Instr) (s t : State) : Prop where
  | kept (h : t.h = s.h) (l : t.l = s.l) (ready : t.ready = s.ready) (cache : t.cache = s.cache)
  | filled (cipher : i = .hctr2Enc ∨ i = .hctr2Dec) (h : t.h = s.h) (l : t.l = s.l) (ready : t.ready = s.ready)
      (cache : t.cache = cacheState s.cache s.h s.curArg.tlen)
  | loaded (r : FReg) (init : i = .pvInit r) (l : t.l = s.l) (ready : t.ready = false)
  | refused (init : i = .hctr2Init) (ready : t.ready = false)
  | derived (init : i = .hctr2Init) (h : t.h = ek s 0) (l : t.l = ek s 1)

theorem execPvUpdb_keyEffect {s t : State} (run : execPvUpdb s = .next t) : KeyEffect .pvUpdb s t := by
  rcases execPvUpdb_cases s with ⟨c, -, error⟩ | ⟨-, e, -, -, fault⟩ | ⟨-, bs, -, -, absorbed⟩
  · cases run.symm.trans error
    exact .kept rfl rfl rfl rfl
  · cases run.symm.trans fault
  · cases run.symm.trans absorbed
    exact .kept rfl rfl rfl rfl

theorem execXctr_keyEffect {r : FReg} {s t : State} (run : execXctr r s = .next t) : KeyEffect (.xctr r) s t := by
  rcases execXctr_cases r s with ⟨c, -, error⟩ | ⟨-, e, -, -, fault⟩ | ⟨-, bs, -, -, exchanges⟩
  · cases run.symm.trans error
    exact .kept rfl rfl rfl rfl
  · cases run.symm.trans fault
  · rcases exchange_next (exchanges.symm.trans run) with rfl | rfl <;> exact .kept rfl rfl rfl rfl

theorem hctr2Run_keyEffect {i : Instr} (cipher : i = .hctr2Enc ∨ i = .hctr2Dec) {dir : BcDir} {s t : State}
    (run : hctr2Run dir s = .next t) : KeyEffect i s t := by
  rcases hctr2Run_cases dir s with ⟨c, -, error⟩ | ⟨-, e, -, -, fault⟩ | ⟨-, p, k, -, -, -, -, exchanges⟩
  · cases run.symm.trans error
    exact .kept rfl rfl rfl rfl
  · cases run.symm.trans fault
  · rcases exchange_next (exchanges.symm.trans run) with rfl | rfl
    · exact .filled cipher rfl rfl rfl rfl
    · exact .kept rfl rfl rfl rfl

theorem execHctr2Init_keyEffect {s t : State} (run : execHctr2Init s = .next t) : KeyEffect .hctr2Init s t := by
  rcases execHctr2Init_cases s with ⟨-, error⟩ | ⟨-, exchanges⟩
  · cases run.symm.trans error
    exact .refused rfl rfl
  · rcases exchange_next (exchanges.symm.trans run) with rfl | rfl
    · exact .derived rfl rfl rfl
    · exact .kept rfl rfl rfl rfl

theorem exec_keyEffect {i : Instr} {s t : State} (run : exec i s = .next t) : KeyEffect i s t := by
  cases i with
  | nop | feXor | feMul | feDbl | pvReset | pvUpd | pvSum | pvRest =>
    cases run
    exact .kept rfl rfl rfl rfl
  | pvInit r =>
    cases run
    exact .loaded r rfl rfl rfl
  | pvUpdb => exact execPvUpdb_keyEffect run
  | xctr => exact execXctr_keyEffect run
  | hctr2Init => exact execHctr2Init_keyEffect run
  | hctr2Enc => exact hctr2Run_keyEffect (.inl rfl) run
  | hctr2Dec => exact hctr2Run_keyEffect (.inr rfl) run

/-- The cache that a cipher command leaves is not invalid (R183). -/
theorem cacheState_valid_ne_false {c : Cache} (h : Elem) (tlen : Word) : (cacheState c h tlen).valid ≠ false := by
  rw [(cacheState_valid_tlen c h tlen).1]
  simp

/-! ### What an event does to them -/

/-- H, L, READY and the cache are as before. -/
structure SameKeyRegs (s t : State) : Prop where
  h : t.h = s.h
  l : t.l = s.l
  ready : t.ready = s.ready
  cache : t.cache = s.cache

theorem unlessBusy_sameKeyRegs {s taken : State} (same : SameKeyRegs s taken) :
    SameKeyRegs s (unlessBusy s taken) := by
  unfold unlessBusy
  split
  · exact ⟨rfl, rfl, rfl, rfl⟩
  · exact same

theorem writeTarget_sameKeyRegs (v : Word) (s : State) (x : Target) : SameKeyRegs s (writeTarget v s x) := by
  cases x with
  | misaligned | unmapped | id | config | ctrl | status => exact ⟨rfl, rfl, rfl, rfl⟩
  | cmd | arg | frWord | bufWord => exact unlessBusy_sameKeyRegs ⟨rfl, rfl, rfl, rfl⟩

theorem hostWrite_sameKeyRegs (a : BitVec 16) (v : Word) (s : State) : SameKeyRegs s (hostWrite a v s) :=
  { writeTarget_sameKeyRegs v s (target (bufBytes s) a) with }

/-- No event but a change of `rst` writes them. -/
theorem happen_sameKeyRegs {e : Event} {s t : State} (event : happen e s = .next t)
    (noReset : ∀ level, e ≠ .setRst level) : SameKeyRegs s t := by
  cases e with
  | core | setBlockSize | setHasXctr | setAnswers | request | response =>
    cases event
    exact ⟨rfl, rfl, rfl, rfl⟩
  | read a =>
    cases event
    split <;> exact ⟨rfl, rfl, rfl, rfl⟩
  | write a v =>
    cases event
    split
    · exact ⟨rfl, rfl, rfl, rfl⟩
    · exact hostWrite_sameKeyRegs a v s
  | setRst level => exact absurd rfl (noReset level)
  | rekey | strayResponse =>
    simp only [happen] at event
    split at event <;> cases event
    exact ⟨rfl, rfl, rfl, rfl⟩

/-- A step keeps the key registers and the cache, or is a command with its effect on them, or a change of `rst`. -/
theorem step_keyRegs {s t : State} (run : step s = .next t) :
    SameKeyRegs s t ∨ (∃ i, Runs s i ∧ KeyEffect i (turnTaken s) t) ∨
      ∃ level rest, s.agenda = .setRst level :: rest := by
  cases step_cases run with
  | command i runs run => exact .inr (.inl ⟨i, runs, exec_keyEffect run⟩)
  | illegal e _ _ ended => exact .inl (ended ▸ ⟨rfl, rfl, rfl, rfl⟩)
  | idle same => exact .inl (same ▸ ⟨rfl, rfl, rfl, rfl⟩)
  | event e entry event =>
    by_cases reset : ∃ level, e = .setRst level
    · obtain ⟨level, rfl⟩ := reset
      exact .inr (.inr ⟨level, _, entry⟩)
    · exact .inl { happen_sameKeyRegs event fun level same => reset ⟨level, same⟩ with }

/-- Settles O43: each register that changes was written by one of the effects of `KeyEffect` or by a change of `rst`. -/
theorem writersOfKeyRegisters : Obligations.WritersOfKeyRegisters := by
  unfold Obligations.WritersOfKeyRegisters
  intro s t run
  rcases step_keyRegs run with ⟨h, l, ready, cache⟩ | ⟨i, runs, effect⟩ | reset
  · simp +contextual [h, l, ready, cache]
  · cases effect with
    | kept h l ready cache => simp +contextual [turnTaken, h, l, ready, cache]
    | filled cipher h l ready cache =>
      have valid : t.cache.valid ≠ false := cache ▸ cacheState_valid_ne_false s.h s.curArg.tlen
      rcases cipher with rfl | rfl <;> simp [turnTaken, h, l, ready, valid, runs]
    | loaded r init l _ =>
      subst init
      have writer : ∃ r, Runs s (.pvInit r) := ⟨r, runs⟩
      simp [turnTaken, l, writer]
    | refused init _ | derived init _ _ =>
      subst init
      simp [runs]
  · simp [reset]

/-! ### Reset (R48, R290, R291) -/

theorem resetCore_atReset (s : State) : AtReset (resetCore s) :=
  ⟨fun r => by cases r <;> rfl, rfl, rfl, rfl, rfl, rfl, rfl, rfl, rfl, fun _ => rfl, rfl⟩

theorem setRst_of_asserted {s : State} {level : Bool} (reset : level = true ∨ s.inputs.rst = true) :
    setRst level s = resetCore { s with inputs := { s.inputs with rst := level } } := by
  rcases reset with rfl | asserted
  · rfl
  · simp [setRst, asserted]

/-- At reset STATUS reads 0 but for BCX (R39, R48). -/
theorem AtReset.statusWord_eq {s : State} (reset : AtReset s) :
    statusWord s = if s.inputs.bcHasXctr then 0x20 else 0 := by
  simp only [statusWord, reset.status, reset.ready]
  cases s.inputs.bcHasXctr <;> rfl

/-- Settles O57: both events reset the core, the second because `rst` is asserted. -/
theorem resetFromAnyState : Obligations.ResetFromAnyState := by
  unfold Obligations.ResetFromAnyState
  intro s rest
  have release (u : State) (asserted : u.inputs.rst = true) (agenda : u.agenda = .setRst false :: rest) :
      step u = .next (resetCore { u with agenda := rest, inputs := { u.inputs with rst := false } }) := by
    have event : step u = .next (setRst false { u with agenda := rest }) := by
      simp [step, agenda, happen]
    rw [event, setRst_of_asserted (s := { u with agenda := rest }) (.inr asserted)]
  refine ⟨_, _, rfl, resetCore_atReset _, release _ rfl rfl, resetCore_atReset _, rfl,
    (resetCore_atReset _).statusWord_eq, rfl, rfl, rfl, rfl⟩

end Sys2Proof.Machine
end

section
/-! PROOFS. The invariant of the machine: the reset state has it, and every step keeps it. -/

namespace Sys2Proof.Machine

open Sys2Proof.Claims

/-! ### What the invariant does not read -/

/-- The state without what the invariant does not read: the scratch registers, the inputs but `rst`, and the model's own
fields. -/
def ownRegisters (s : State) : State :=
  { s with
    scratch := ⟨0, 0, 0, 0, 0⟩
    inputs := ⟨s.inputs.rst, 0, false, 0, false⟩
    agenda := []
    busOut := none
    bcLog := []
    draws := 0 }

theorem AtReset.congr {s t : State} (reset : AtReset s) (same : ownRegisters t = ownRegisters s) : AtReset t := by
  have fields : AtReset (ownRegisters s) := { reset with }
  exact { (same ▸ fields : AtReset (ownRegisters t)) with }

/-- Where a request has been transferred, the block size is not read again (R180). -/
theorem requestCount_ownRegisters {s : State} (transferred : s.port ≠ Port.idle) (i : Instr) :
    requestCount (ownRegisters s) i = requestCount s i := by
  have sampled : initCheck s = none := initCheck_eq_none (.inr transferred)
  have sampled' : initCheck (ownRegisters s) = none := initCheck_eq_none (s := ownRegisters s) (.inr transferred)
  cases i with
  | hctr2Init => simp only [requestCount, sampled, sampled']
  | _ => rfl

/-- States that differ in what the invariant does not read have it alike. -/
theorem MachineInv.congr {s t : State} (inv : MachineInv s) (same : ownRegisters t = ownRegisters s) :
    MachineInv t := by
  have own : MachineInv (ownRegisters s) :=
    { inv with
      portBusy := fun transferred => by
        obtain ⟨busy, i, word, bound⟩ := inv.portBusy transferred
        exact ⟨busy, i, word, bound.trans_eq (requestCount_ownRegisters (s := s) transferred i).symm⟩
      underReset := fun asserted => (inv.underReset asserted).congr rfl }
  rw [← same] at own
  exact
    { own with
      portBusy := fun transferred => by
        obtain ⟨busy, i, word, bound⟩ := own.portBusy transferred
        exact ⟨busy, i, word, bound.trans_eq (requestCount_ownRegisters (s := t) transferred i)⟩
      underReset := fun asserted => (own.underReset asserted).congr rfl }

/-! ### The reset values have the invariant (R48) -/

theorem AtReset.machineInv {s : State} (reset : AtReset s) (empty : s.buf = []) : MachineInv s where
  bufWf := by simp [empty, Memory.wf]
  bufInside := by simp [empty]
  cacheCurrent := fun valid => absurd valid (by simp [reset.cache])
  readyKeyed := fun ready => absurd ready (by simp [reset.ready])
  firstErr := by simp [reset.status]
  busyNotDone := by simp [reset.status]
  portBusy := fun transferred => absurd reset.port transferred
  portWindow := by simp [reset.port, Port.idle]
  underReset := fun _ => reset

theorem atReset_reset : AtReset State.reset :=
  ⟨fun r => by cases r <;> rfl, rfl, rfl, rfl, rfl, rfl, rfl, rfl, rfl, fun _ => rfl, rfl⟩

/-- Settles O60: the reset values have the invariant, and 2 ^ 12 is 4096. -/
theorem resetStateHasInvariant : Obligations.ResetStateHasInvariant := by
  unfold Obligations.ResetStateHasInvariant
  exact ⟨atReset_reset.machineInv rfl, atReset_reset, rfl⟩

theorem setRst_inv {s : State} (level : Bool) (inv : MachineInv s) : MachineInv (setRst level s) := by
  by_cases reset : level = true ∨ s.inputs.rst = true
  · rw [setRst_of_asserted reset]
    exact (resetCore_atReset _).machineInv rfl
  · have kept : setRst level s = s := by simp_all [setRst]
    rwa [kept]

/-! ### BUF after a write inside it (R70, R73) -/

/-- BUF is as before but for one byte string written inside it. -/
def WrittenInside (s t : State) : Prop :=
  ∃ a bs, a + bs.length ≤ bufBytes s ∧ t.buf = s.buf.writeBytes a bs

theorem WrittenInside.of_same {s t : State} (same : t.buf = s.buf) : WrittenInside s t :=
  ⟨0, [], by simp, same⟩

theorem WrittenInside.wf {s t : State} (written : WrittenInside s t) (inv : MachineInv s) : t.buf.wf := by
  obtain ⟨a, bs, -, same⟩ := written
  exact same ▸ Memory.writeBytes_wf inv.bufWf a bs

theorem WrittenInside.inside {s t : State} (written : WrittenInside s t) (inv : MachineInv s) :
    ∀ c ∈ t.buf, c.1 < bufBytes s := by
  obtain ⟨a, bs, fits, same⟩ := written
  rw [same]
  intro c mem
  rcases Memory.mem_writeBytes mem with new | old
  · omega
  · exact inv.bufInside c old

/-! ### A command (R86, R180, R244, R245) -/

theorem execPvUpdb_writtenInside {s t : State} (run : execPvUpdb s = .next t) : WrittenInside s t := by
  rcases execPvUpdb_cases s with ⟨c, -, error⟩ | ⟨-, e, -, -, fault⟩ | ⟨-, bs, -, -, absorbed⟩
  · cases run.symm.trans error
    exact .of_same rfl
  · cases run.symm.trans fault
  · cases run.symm.trans absorbed
    exact .of_same rfl

theorem execXctr_writtenInside {r : FReg} {s t : State} (run : execXctr r s = .next t) : WrittenInside s t := by
  rcases execXctr_cases r s with ⟨c, -, error⟩ | ⟨-, e, -, -, fault⟩ | ⟨check, bs, length, -, exchanges⟩
  · cases run.symm.trans error
    exact .of_same rfl
  · cases run.symm.trans fault
  · obtain ⟨-, -, destination, room, -⟩ := xctrCheck_none check
    rcases exchange_next (exchanges.symm.trans run) with rfl | rfl
    · refine ⟨_, _, ?_, xctrAfter_buf r bs s⟩
      rw [xctrBytes_length]
      omega
    · exact .of_same rfl

theorem hctr2Run_writtenInside {dir : BcDir} {s t : State} (run : hctr2Run dir s = .next t) : WrittenInside s t := by
  rcases hctr2Run_cases dir s with ⟨c, -, error⟩ | ⟨-, e, -, -, fault⟩ | ⟨check, p, k, length, -, -, -, exchanges⟩
  · cases run.symm.trans error
    exact .of_same rfl
  · cases run.symm.trans fault
  · obtain ⟨-, -, destination, -, long, room, -⟩ := cipherCheck_none check
    rcases exchange_next (exchanges.symm.trans run) with rfl | rfl
    · refine ⟨s.curArg.dst.toNat, (hctr2Of dir p k s).bytes, ?_, by simp only [hctr2After_buf]⟩
      rw [show (hctr2Of dir p k s).bytes.length = p.length from hctr2Core_length _ _ _ _ _ _ _ _ (length ▸ long)]
      omega
    · exact .of_same rfl

theorem execHctr2Init_writtenInside {s t : State} (run : execHctr2Init s = .next t) : WrittenInside s t := by
  rcases execHctr2Init_cases s with ⟨-, error⟩ | ⟨-, exchanges⟩
  · cases run.symm.trans error
    exact .of_same rfl
  · rcases exchange_next (exchanges.symm.trans run) with rfl | rfl <;> exact .of_same rfl

theorem exec_writtenInside {i : Instr} {s t : State} (run : exec i s = .next t) : WrittenInside s t := by
  cases i with
  | nop | feXor | feMul | feDbl | pvInit | pvReset | pvUpd | pvSum | pvRest =>
    cases run
    exact .of_same rfl
  | pvUpdb => exact execPvUpdb_writtenInside run
  | xctr => exact execXctr_writtenInside run
  | hctr2Init => exact execHctr2Init_writtenInside run
  | hctr2Enc => exact hctr2Run_writtenInside run
  | hctr2Dec => exact hctr2Run_writtenInside run

/-- How a command can leave the port: idle, waiting as it was, or as it was where the command issues no request. -/
def LeavesPort (i : Instr) (s t : State) : Prop :=
  t.port = Port.idle ∨ t = s ∨ (t.port = s.port ∧ requestCount s i = 0)

theorem LeavesPort.of_exchange {i : Instr} {log : List BcExchange} {s after t : State}
    (run : exchange log s after = .next t) : LeavesPort i s t := by
  rcases exchange_next run with rfl | rfl
  · exact .inl rfl
  · exact .inr (.inl rfl)

theorem execPvUpdb_leavesPort {s t : State} (run : execPvUpdb s = .next t) : LeavesPort .pvUpdb s t := by
  rcases execPvUpdb_cases s with ⟨c, -, error⟩ | ⟨-, e, -, -, fault⟩ | ⟨-, bs, -, -, absorbed⟩
  · cases run.symm.trans error
    exact .inr (.inr ⟨rfl, rfl⟩)
  · cases run.symm.trans fault
  · cases run.symm.trans absorbed
    exact .inr (.inr ⟨rfl, rfl⟩)

theorem execXctr_leavesPort {r : FReg} {s t : State} (run : execXctr r s = .next t) : LeavesPort (.xctr r) s t := by
  rcases execXctr_cases r s with ⟨c, check, error⟩ | ⟨-, e, -, -, fault⟩ | ⟨-, bs, -, -, exchanges⟩
  · cases run.symm.trans error
    exact .inr (.inr ⟨rfl, by simp [requestCount, check]⟩)
  · cases run.symm.trans fault
  · exact .of_exchange (exchanges.symm.trans run)

theorem execHctr2Init_leavesPort {s t : State} (run : execHctr2Init s = .next t) : LeavesPort .hctr2Init s t := by
  rcases execHctr2Init_cases s with ⟨check, error⟩ | ⟨-, exchanges⟩
  · cases run.symm.trans error
    exact .inr (.inr ⟨rfl, by simp [requestCount, check]⟩)
  · exact .of_exchange (exchanges.symm.trans run)

theorem hctr2Run_leavesPort {i : Instr} (cipher : i = .hctr2Enc ∨ i = .hctr2Dec) {dir : BcDir} {s t : State}
    (run : hctr2Run dir s = .next t) : LeavesPort i s t := by
  rcases hctr2Run_cases dir s with ⟨c, check, error⟩ | ⟨-, e, -, -, fault⟩ | ⟨-, p, k, -, -, -, -, exchanges⟩
  · cases run.symm.trans error
    refine .inr (.inr ⟨rfl, ?_⟩)
    rcases cipher with rfl | rfl <;> simp [requestCount, check]
  · cases run.symm.trans fault
  · exact .of_exchange (exchanges.symm.trans run)

theorem exec_leavesPort {i : Instr} {s t : State} (run : exec i s = .next t) : LeavesPort i s t := by
  cases i with
  | nop | feXor | feMul | feDbl | pvInit | pvReset | pvUpd | pvSum | pvRest =>
    cases run
    exact .inr (.inr ⟨rfl, rfl⟩)
  | pvUpdb => exact execPvUpdb_leavesPort run
  | xctr => exact execXctr_leavesPort run
  | hctr2Init => exact execHctr2Init_leavesPort run
  | hctr2Enc => exact hctr2Run_leavesPort (.inl rfl) run
  | hctr2Dec => exact hctr2Run_leavesPort (.inr rfl) run

/-- A command that issues no request started from an idle port, so a command leaves the port idle or waits (R86). -/
theorem exec_port_idle {i : Instr} {s t : State} (inv : MachineInv s) (word : decode s.curCmd = .ok i)
    (run : exec i s = .next t) : t.port = Port.idle ∨ t = s := by
  rcases exec_leavesPort run with idle | waits | ⟨same, none⟩
  · exact .inl idle
  · exact .inr waits
  · by_cases idle : s.port = Port.idle
    · exact .inl (same.trans idle)
    · obtain ⟨-, j, word', bound⟩ := inv.portBusy idle
      cases word.symm.trans word'
      have zero : s.port.answered = 0 ∧ s.port.outstanding = 0 := by omega
      exact absurd (congrArg₂ Port.mk zero.1 zero.2) idle

/-- A command that ends keeps what no command writes. -/
theorem Ending.outside {i : Instr} {s t : State} (ending : Ending i s t) : SameOutside s t := by
  cases ending with
  | completed _ outside => exact outside
  | failed c _ _ frame _ =>
    constructor
    all_goals rw [← frame]
  | waits same _ _ => exact same ▸ ⟨rfl, rfl, rfl, rfl, rfl, rfl, rfl, rfl⟩

/-- The status of a command that ends: the core is idle, and FIRST_ERR is 0 exactly while ERR is 0. -/
theorem Ending.status {i : Instr} {s t : State} (ending : Ending i s t)
    (firstErr : s.status.firstErr = .noError ↔ s.status.err = false) :
    t = s ∨ (t.status.busy = false ∧ (t.status.firstErr = .noError ↔ t.status.err = false)) := by
  cases ending with
  | completed status _ => exact .inr (by simpa [show t.status = _ from status] using firstErr)
  | failed c real status _ _ =>
    refine .inr ?_
    rw [show t.status = _ from status]
    cases err : s.status.err <;> simp_all
  | waits same _ _ => exact .inl same

/-- READY = 1 means H and L of some key (R34): kept with the three registers, lost with READY, gained with both. -/
theorem KeyEffect.readyKeyed {i : Instr} {s t : State} (effect : KeyEffect i s t) (inv : MachineInv s)
    (ready : t.ready = true) : ∃ k, t.h = Config.blockCipher k 0 ∧ t.l = Config.blockCipher k 1 := by
  cases effect with
  | kept h l same _ | filled _ h l same _ =>
    rw [h, l]
    exact inv.readyKeyed (same ▸ ready)
  | loaded _ _ _ cleared | refused _ cleared => exact absurd ready (by simp [cleared])
  | derived _ h l => exact ⟨s.inputs.bcKey, h, l⟩

theorem exec_inv {i : Instr} {s t : State} (inv : MachineInv s) (released : s.inputs.rst = false)
    (word : decode s.curCmd = .ok i) (run : exec i s = .next t) : MachineInv t := by
  have ending := exec_ending run
  have outside := ending.outside
  have sameSize : bufBytes t = bufBytes s := by rw [bufBytes, bufLog2, outside.bufSel, bufBytes, bufLog2]
  rcases exec_port_idle inv word run with idle | rfl
  · rcases ending.status inv.firstErr with rfl | ⟨notBusy, firstErr⟩
    · exact inv
    · exact
        { bufWf := (exec_writtenInside run).wf inv
          bufInside := sameSize ▸ (exec_writtenInside run).inside inv
          cacheCurrent := (exec_cacheStep run).keeps_current inv.cacheCurrent
          readyKeyed := (exec_keyEffect run).readyKeyed inv
          firstErr := firstErr
          busyNotDone := fun busy => absurd busy (by simp [notBusy])
          portBusy := fun transferred => absurd idle transferred
          portWindow := by simp [idle, Port.idle]
          underReset := fun asserted => absurd asserted (by simp [outside.inputs, released]) }
  · exact inv

/-- An illegal word has issued no request, so its error leaves the port idle (R86). -/
theorem raiseError_illegal_inv {s : State} {e : DecodeError} (inv : MachineInv s) (released : s.inputs.rst = false)
    (word : decode s.curCmd = .error e) : MachineInv (raiseError .illegal s) := by
  have idle : s.port = Port.idle := by
    by_contra transferred
    obtain ⟨-, i, legal, -⟩ := inv.portBusy transferred
    cases word.symm.trans legal
  exact
    { bufWf := inv.bufWf
      bufInside := inv.bufInside
      cacheCurrent := inv.cacheCurrent
      readyKeyed := inv.readyKeyed
      firstErr := by
        have sticky := inv.firstErr
        cases err : s.status.err <;> simp_all
      busyNotDone := by simp
      portBusy := fun transferred => absurd idle transferred
      portWindow := inv.portWindow
      underReset := fun asserted => absurd asserted (by simp [released]) }

/-! ### Host accesses (R38 to R43, R76 to R81) -/

theorem not_busy_port_idle {s : State} (inv : MachineInv s) (notBusy : s.status.busy = false) : s.port = Port.idle := by
  by_contra transferred
  obtain ⟨busy, -⟩ := inv.portBusy transferred
  simp [notBusy] at busy

/-- The four bytes of a BUF word that an address names lie in BUF (R79, R81). -/
theorem target_eq_bufWord {size k : Nat} {a : BitVec 16} (words : size % 4 = 0) (h : target size a = .bufWord k) :
    4 * k + 4 ≤ size := by
  unfold target at h
  simp only at h
  split at h
  · cases h
  · split at h
    · rename_i low
      exfalso
      unfold lowTarget at h
      split at h <;> cases h
    · split at h
      · cases h
      · split at h
        · cases h
          omega
        · cases h

/-- What a write may change without a check of the invariant's other parts: STATUS in a way that keeps its rules, and
registers that the invariant reads only under reset. -/
theorem MachineInv.of_idle_port {s t : State} (inv : MachineInv s) (written : WrittenInside s t)
    (size : t.bufSel = s.bufSel) (keys : SameKeyRegs s t)
    (firstErr : t.status.firstErr = .noError ↔ t.status.err = false)
    (busyNotDone : t.status.busy = true → t.status.done = false) (idle : t.port = Port.idle)
    (released : t.inputs.rst = false) : MachineInv t where
  bufWf := written.wf inv
  bufInside := by
    have sameSize : bufBytes t = bufBytes s := by rw [bufBytes, bufLog2, size, bufBytes, bufLog2]
    exact sameSize ▸ written.inside inv
  cacheCurrent := (CacheStep.kept keys.h keys.cache).keeps_current inv.cacheCurrent
  readyKeyed := fun ready => by
    rw [keys.h, keys.l]
    exact inv.readyKeyed (keys.ready ▸ ready)
  firstErr := firstErr
  busyNotDone := busyNotDone
  portBusy := fun transferred => absurd idle transferred
  portWindow := by simp [idle, Port.idle]
  underReset := fun asserted => absurd asserted (by simp [released])

/-- A change of STATUS that keeps its rules and BUSY, with a change of IRQ_EN, keeps the invariant. -/
theorem MachineInv.of_status {s : State} {x : Status} {b : Bool} (inv : MachineInv s) (released : s.inputs.rst = false)
    (busy : x.busy = s.status.busy) (firstErr : x.firstErr = .noError ↔ x.err = false)
    (busyNotDone : x.busy = true → x.done = false) : MachineInv { s with status := x, irqEn := b } :=
  { bufWf := inv.bufWf
    bufInside := inv.bufInside
    cacheCurrent := inv.cacheCurrent
    readyKeyed := inv.readyKeyed
    firstErr := firstErr
    busyNotDone := busyNotDone
    portBusy := fun transferred => by
      obtain ⟨inProgress, i, word, bound⟩ := inv.portBusy transferred
      refine ⟨busy.trans inProgress, i, word, bound.trans_eq ?_⟩
      cases i <;> rfl
    portWindow := inv.portWindow
    underReset := fun asserted => absurd asserted (by simp [released]) }

theorem acknowledge_inv {s : State} (v : Word) (inv : MachineInv s) (released : s.inputs.rst = false) :
    MachineInv (acknowledge v s) := by
  have firstErr := inv.firstErr
  have busyNotDone := inv.busyNotDone
  refine inv.of_status (b := s.irqEn) released rfl ?_ fun busy => ?_
  · simp only [Status.clearedBy]
    cases v.getLsbD 2 <;> simp [firstErr]
  · simp [Status.clearedBy, busyNotDone busy]

theorem dropWrite_inv {s : State} (inv : MachineInv s) (released : s.inputs.rst = false) : MachineInv (dropWrite s) :=
  inv.of_status (b := s.irqEn) released rfl inv.firstErr inv.busyNotDone

/-- A write that is taken only while BUSY = 0 keeps the invariant if it does so from an idle core. -/
theorem unlessBusy_inv {s taken : State} (inv : MachineInv s) (released : s.inputs.rst = false)
    (ofTaken : s.status.busy = false → MachineInv taken) : MachineInv (unlessBusy s taken) := by
  unfold unlessBusy
  split
  · exact dropWrite_inv inv released
  · exact ofTaken (by simp_all)

theorem writeTarget_inv {s : State} {x : Target} (v : Word) (inv : MachineInv s) (released : s.inputs.rst = false)
    (inside : ∀ k, x = .bufWord k → 4 * k + 4 ≤ bufBytes s) : MachineInv (writeTarget v s x) := by
  have idlePort := not_busy_port_idle inv
  cases x with
  | misaligned | unmapped | id | config => exact inv
  | ctrl => exact inv.of_status released rfl inv.firstErr inv.busyNotDone
  | status => exact acknowledge_inv v inv released
  | cmd =>
    refine unlessBusy_inv inv released fun notBusy => ?_
    exact inv.of_idle_port (.of_same rfl) rfl ⟨rfl, rfl, rfl, rfl⟩ inv.firstErr (fun _ => rfl) (idlePort notBusy)
      released
  | arg | frWord =>
    refine unlessBusy_inv inv released fun notBusy => ?_
    exact inv.of_idle_port (.of_same rfl) rfl ⟨rfl, rfl, rfl, rfl⟩ inv.firstErr inv.busyNotDone (idlePort notBusy)
      released
  | bufWord k =>
    refine unlessBusy_inv inv released fun notBusy => ?_
    have written : WrittenInside s { s with buf := s.buf.writeBytes (4 * k) (wordBytes v) } :=
      ⟨4 * k, wordBytes v, by simpa using inside k rfl, rfl⟩
    exact inv.of_idle_port written rfl ⟨rfl, rfl, rfl, rfl⟩ inv.firstErr inv.busyNotDone (idlePort notBusy) released

theorem hostWrite_inv {s : State} (a : BitVec 16) (v : Word) (inv : MachineInv s) (released : s.inputs.rst = false) :
    MachineInv (hostWrite a v s) := by
  have words : bufBytes s % 4 = 0 := by have := bufBytes_bounds s; omega
  have written : MachineInv (writeTarget v s (target (bufBytes s) a)) :=
    writeTarget_inv v inv released fun k => target_eq_bufWord words
  exact written.congr rfl

/-! ### Requests and responses (R84 to R86) -/

/-- Once a request has been transferred, a command has no fewer requests than before: `hctr2.init` has sampled the block
size (R180). -/
theorem requestCount_le_of_transferred (s : State) {p : Port} (transferred : p ≠ Port.idle) (i : Instr) :
    requestCount s i ≤ requestCount { s with port := p } i := by
  have sampled : initCheck { s with port := p } = none := initCheck_eq_none (.inr transferred)
  cases i with
  | hctr2Init =>
    simp only [requestCount, sampled]
    split <;> simp
  | _ => exact le_rfl

/-- The port of a command in progress may move within the requests of the command and the window. -/
theorem MachineInv.of_port {s : State} {p : Port} {i : Instr} (inv : MachineInv s) (released : s.inputs.rst = false)
    (busy : s.status.busy = true) (word : decode s.curCmd = .ok i)
    (bound : p.answered + p.outstanding ≤ requestCount s i) (window : p.outstanding ≤ 4) :
    MachineInv { s with port := p } :=
  { bufWf := inv.bufWf
    bufInside := inv.bufInside
    cacheCurrent := inv.cacheCurrent
    readyKeyed := inv.readyKeyed
    firstErr := inv.firstErr
    busyNotDone := inv.busyNotDone
    portBusy := fun transferred =>
      ⟨busy, i, word, bound.trans (requestCount_le_of_transferred s transferred i)⟩
    portWindow := window
    underReset := fun asserted => absurd asserted (by simp [released]) }

theorem transferRequest_inv {s : State} (inv : MachineInv s) : MachineInv (transferRequest s) := by
  rcases transferRequest_cases s with ⟨may, issued⟩ | ⟨-, kept⟩
  · obtain ⟨busy, released, i, word, more, room⟩ := (mayRequest_iff s).mp may
    have window := requestWindow_le s i
    rw [issued]
    exact inv.of_port released busy word (by simp only; omega) (by simp only; omega)
  · rwa [kept]

theorem takeResponse_inv {s : State} (inv : MachineInv s) : MachineInv (takeResponse s) := by
  rcases takeResponse_cases s with ⟨outstanding, answered⟩ | ⟨-, kept⟩
  · have transferred : s.port ≠ Port.idle := by
      intro idle
      simp [idle, Port.idle] at outstanding
    have released : s.inputs.rst = false := by
      by_contra asserted
      exact transferred (inv.underReset (by simpa using asserted)).port
    obtain ⟨busy, i, word, bound⟩ := inv.portBusy transferred
    have window := inv.portWindow
    rw [answered]
    exact inv.of_port released busy word (by simp only; omega) (by simp only; omega)
  · rwa [kept]

/-! ### Every step -/

theorem happen_inv {e : Event} {s t : State} (inv : MachineInv s) (event : happen e s = .next t) : MachineInv t := by
  cases e with
  | core | setBlockSize | setHasXctr | setAnswers =>
    cases event
    exact inv.congr rfl
  | read a =>
    cases event
    split <;> exact inv.congr rfl
  | write a v =>
    cases event
    cases released : s.inputs.rst with
    | true => exact inv.congr rfl
    | false => exact hostWrite_inv a v inv released
  | setRst level =>
    cases event
    exact setRst_inv level inv
  | request =>
    cases event
    exact transferRequest_inv inv
  | response =>
    cases event
    exact takeResponse_inv inv
  | rekey | strayResponse =>
    simp only [happen] at event
    split at event <;> cases event
    exact inv.congr rfl

theorem happen_bufSel {e : Event} {s t : State} (event : happen e s = .next t) : t.bufSel = s.bufSel := by
  have ofUnlessBusy {taken : State} (same : taken.bufSel = s.bufSel) : (unlessBusy s taken).bufSel = s.bufSel := by
    unfold unlessBusy
    split
    · rfl
    · exact same
  cases e with
  | core | setBlockSize | setHasXctr | setAnswers | request | response =>
    cases event
    rfl
  | read a =>
    cases event
    split <;> rfl
  | write a v =>
    cases event
    split
    · rfl
    · show (writeTarget v s (target (bufBytes s) a)).bufSel = s.bufSel
      cases target (bufBytes s) a with
      | misaligned | unmapped | id | config | ctrl | status => rfl
      | cmd | arg | frWord | bufWord => exact ofUnlessBusy rfl
  | setRst level =>
    cases event
    unfold setRst
    split <;> rfl
  | rekey | strayResponse =>
    simp only [happen] at event
    split at event <;> cases event
    rfl

/-- Settles O59: a step is a command, the end of an illegal word, an idle turn or an event, and each keeps the
invariant. -/
theorem stepKeepsInvariant : Obligations.StepKeepsInvariant := by
  unfold Obligations.StepKeepsInvariant
  intro s t inv run
  have started : MachineInv (turnTaken s) := inv.congr rfl
  cases step_cases run with
  | command i runs run =>
    obtain ⟨-, released, word, -⟩ := runs
    exact ⟨exec_inv started released word run, (exec_ending run).outside.bufSel⟩
  | illegal e word released ended =>
    subst ended
    exact ⟨raiseError_illegal_inv started released word, rfl⟩
  | idle same =>
    subst same
    exact ⟨started, rfl⟩
  | event e _ event => exact ⟨happen_inv started event, happen_bufSel (s := turnTaken s) event⟩

end Sys2Proof.Machine
end

section
/-! PROOFS. Host reads that give a draw, STATUS and the ARG registers, the interrupt line, what no read shows, and the
duties of the surroundings. -/

namespace Sys2Proof.Machine

open Sys2Proof.Claims

/-! ### Reads that give a draw (R71, R248) -/

/-- A read that takes a draw changes the response and the number of the next draw. -/
theorem step_read_draw {s : State} {a : BitVec 16} {x : Target} {rest : List Event} (hr : s.inputs.rst = false)
    (hx : target (bufBytes s) a = x) (draws : readDraws s x = true) :
    step { s with agenda := .read a :: rest } =
      .next { s with agenda := rest, busOut := some (readResponse s x), draws := s.draws + 1 } := by
  have sameTarget : target (bufBytes { s with agenda := rest }) a = x := hx
  rw [step_read (s := { s with agenda := .read a :: rest }) rfl hr]
  simp [hostRead, sameTarget, readResponse_agenda, readDraws_agenda, draws]

/-- A listed address from 0x040 upward names a word of a field register or of BUF (R79). -/
theorem target_window {size : Nat} {a : BitVec 16} (listed : Listed size a) (window : 0x040 ≤ a.toNat) :
    (∃ r j, target size a = .frWord r j) ∨ ∃ k, target size a = .bufWord k := by
  obtain ⟨h4, range⟩ := listed
  have aligned : ¬a.toNat % 4 ≠ 0 := by omega
  have notLow : ¬a.toNat < 0x40 := by omega
  simp only [target, if_neg aligned, if_neg notLow]
  split
  · exact .inl ⟨_, _, rfl⟩
  · rw [if_pos (by omega)]
    exact .inr ⟨_, rfl⟩

/-- The offset of an ARG register (R38). -/
def ArgReg.offset : ArgReg → BitVec 16
  | .src => 0x014
  | .dst => 0x018
  | .len => 0x01C
  | .dlen => 0x020
  | .twk => 0x024
  | .tlen => 0x028

@[simp] theorem target_offset (size : Nat) (k : ArgReg) : target size k.offset = .arg k := by
  cases k <;> rfl

theorem step_read_arg {s : State} {rest : List Event} (hr : s.inputs.rst = false) (k : ArgReg) :
    step { s with agenda := .read k.offset :: rest } =
      .next { s with agenda := rest, busOut := some (.okayRead (s.arg.read k)) } :=
  step_read_target hr (target_offset _ k) rfl

/-- Settles O46: the two windows draw while BUSY = 1, and the other registers are read as always. -/
theorem readWhileBusyIsADraw : Obligations.ReadWhileBusyIsADraw := by
  unfold Obligations.ReadWhileBusyIsADraw
  intro s a rest hb hr answer
  refine ⟨fun listed window => ?_, step_read_target hr (target_id _) rfl, step_read_target hr (target_config _) rfl,
    step_read_target hr (target_ctrl _) rfl, step_read_target hr (target_status _) rfl, step_read_arg hr .src,
    step_read_arg hr .dst, step_read_arg hr .len, step_read_arg hr .dlen, step_read_arg hr .twk, step_read_arg hr .tlen⟩
  rcases target_window listed window with ⟨r, j, word⟩ | ⟨k, word⟩
  · have draw := step_read_draw (rest := rest) hr word (by simp [readDraws, hb])
    simpa [readResponse, hb] using draw
  · have draw := step_read_draw (rest := rest) hr word (by simp [readDraws, hb])
    simpa [readResponse, hb] using draw

/-- Byte `i` of a host word is the `i`-th of its four bytes (R81). -/
theorem wordOf_four_byte (b : Nat → Byte) {i : Nat} (hi : i < 4) :
    (wordOf [b 0, b 1, b 2, b 3]).extractLsb' (8 * i) 8 = b i := by
  rw [wordOf_four]
  apply BitVec.eq_of_getLsbD_eq
  intro j hj
  simp only [BitVec.getLsbD_extractLsb', BitVec.getLsbD_append, hj, decide_true, Bool.true_and]
  have position : i = 0 ∨ i = 1 ∨ i = 2 ∨ i = 3 := by omega
  rcases position with rfl | rfl | rfl | rfl
  · rw [if_pos (by omega), Nat.mul_zero, Nat.zero_add]
  · rw [if_neg (by omega), if_pos (by omega), show 8 * 1 + j - 8 = j by omega]
  · rw [if_neg (by omega), if_neg (by omega), if_pos (by omega), show 8 * 2 + j - 8 - 8 = j by omega]
  · rw [if_neg (by omega), if_neg (by omega), if_neg (by omega), show 8 * 3 + j - 8 - 8 - 8 = j by omega]

/-- A word with an unwritten byte is read with a draw (R71). -/
theorem readDraws_of_unwritten {s : State} {k j : Nat} (hj : j < 4) (unwritten : s.buf.read (4 * k + j) = none) :
    readDraws s (.bufWord k) = true := by
  have notAll : bufWordWritten s.buf k = false := by
    rw [bufWordWritten, List.all_eq_false]
    exact ⟨j, by simpa using hj, by simp [unwritten]⟩
  simp [readDraws, notAll]

/-- Settles O51: the read takes a draw, whose bytes stand where no byte is written. -/
theorem unwrittenByteReadIsADraw : Obligations.UnwrittenByteReadIsADraw := by
  unfold Obligations.UnwrittenByteReadIsADraw
  intro s k j rest hr hb hk hj unwritten
  obtain ⟨-, -, size⟩ := bufBytes_bounds s
  have draw := step_read_draw (rest := rest) hr (target_bufWord _ k size hk) (readDraws_of_unwritten hj unwritten)
  refine ⟨bufWordWith s.buf k (Config.freeWord s.draws), ?_, fun i hi => ?_⟩
  · simpa [readResponse, hb] using draw
  · exact wordOf_four_byte
      (fun i => (s.buf.read (4 * k + i)).getD ((Config.freeWord s.draws).extractLsb' (8 * i) 8)) hi

/-! ### STATUS (R39) -/

theorem flagAt_getLsbD_same {k : Nat} (hk : k < 32) (b : Bool) : (flagAt b k).getLsbD k = b := by
  cases b <;> simp [flagAt, hk]

/-- An error code shifted to bit `k` has its bits from there on. -/
theorem shiftedCode_getLsbD_inside (c : ErrCode) {k i : Nat} (hk : k + i < 32) :
    (c.code.setWidth 32 <<< k).getLsbD (k + i) = c.code.getLsbD i := by
  simp [hk]

/-- Each flag of STATUS stands in its bit (R39). -/
theorem statusWord_flags (s : State) :
    (statusWord s).getLsbD 0 = s.status.busy ∧ (statusWord s).getLsbD 1 = s.status.done ∧
      (statusWord s).getLsbD 2 = s.status.err ∧ (statusWord s).getLsbD 3 = s.status.overrun ∧
      (statusWord s).getLsbD 4 = s.ready ∧ (statusWord s).getLsbD 5 = s.inputs.bcHasXctr := by
  simp (disch := omega) only [statusWord, BitVec.getLsbD_or, flagAt_getLsbD_of_ne, flagAt_getLsbD_same,
    shiftedCode_getLsbD_outside, Bool.or_false, Bool.false_or, and_self]

/-- ERRCODE and FIRST_ERR stand in their bits (R39). -/
theorem statusWord_codes (s : State) : (statusWord s).extractLsb' 8 4 = s.status.errCode.code ∧
    (statusWord s).extractLsb' 12 4 = s.status.firstErr.code := by
  constructor
  all_goals
    apply BitVec.eq_of_getLsbD_eq
    intro i hi
    rw [BitVec.getLsbD_extractLsb', statusWord]
    simp (disch := omega) only [BitVec.getLsbD_or, flagAt_getLsbD_of_ne, shiftedCode_getLsbD_outside,
      shiftedCode_getLsbD_inside, Bool.or_false, Bool.false_or, hi, decide_true, Bool.true_and]

/-- A slice of clear bits is 0. -/
theorem extractLsb'_eq_zero {w : Word} {start len : Nat}
    (clear : ∀ k, start ≤ k → k < start + len → w.getLsbD k = false) : w.extractLsb' start len = 0 := by
  apply BitVec.eq_of_getLsbD_eq
  intro i hi
  simp [clear (start + i) (by omega) (by omega)]

/-- Settles O52: the layout of the word bit by bit, and the write is `clearedBy`. -/
theorem statusRegisterAccess : Obligations.StatusRegisterAccess := by
  unfold Obligations.StatusRegisterAccess
  intro s
  obtain ⟨busy, done, err, overrun, ready, lanes⟩ := statusWord_flags s
  obtain ⟨errCode, firstErr⟩ := statusWord_codes s
  refine ⟨⟨busy, done, err, overrun, ready, lanes, ?_, errCode, firstErr, ?_⟩, ?_⟩
  · exact extractLsb'_eq_zero fun k _ _ => statusWord_reserved s (by omega)
  · exact extractLsb'_eq_zero fun k _ _ => statusWord_reserved s (by omega)
  · intro v rest hr
    have cleared (field bit : Bool) : (field && !bit) = if bit then false else field := by
      cases bit <;> simp
    exact ⟨step_read_target hr (target_status _) rfl, _, step_write_target hr (target_status _), rfl, rfl, rfl,
      cleared _ _, cleared _ _, rfl, cleared _ _⟩

/-! ### The ARG registers (R38) -/

theorem writeTarget_arg {s : State} (v : Word) (k : ArgReg) (hb : s.status.busy = false) :
    writeTarget v s (.arg k) = { s with arg := s.arg.write k v } := by
  simp [writeTarget, unlessBusy, hb]

/-- Settles O54: the write is taken by an idle core, and the read answers with the register. -/
theorem argRegisterReadsBack : Obligations.ArgRegisterReadsBack := by
  unfold Obligations.ArgRegisterReadsBack
  intro s k v rest hr hb a
  have offset : a = k.offset := by cases k <;> rfl
  rw [offset]
  have write := step_write_target (v := v) (rest := .read k.offset :: rest) hr (target_offset (bufBytes s) k)
  rw [writeTarget_arg (s := { s with agenda := .read k.offset :: rest }) v k hb] at write
  refine ⟨_, write, rfl, fun q other => Args.read_write_other _ _ _ _ other, ?_⟩
  have read := step_read_arg (s := { s with arg := s.arg.write k v, busOut := some .okayWrite }) (rest := rest) hr k
  rw [Args.read_write_same] at read
  exact read

/-! ### The interrupt line (R45, R273) -/

theorem irq_eq_true_iff (s : State) : irq s = true ↔ s.irqEn = true ∧ s.status.done = true := by
  simp [irq]

/-- A command that ends sets DONE (R244, R245). -/
theorem Ending.done {i : Instr} {s t : State} (ending : Ending i s t) (ended : t ≠ s) : t.status.done = true := by
  cases ending with
  | completed status _ => simp [show t.status = _ from status]
  | failed c _ status _ _ => simp [show t.status = _ from status]
  | waits same _ _ => exact absurd same ended

/-- Settles O55: `irq` is the conjunction, and each event sets or clears one of its two registers. -/
theorem interruptLine : Obligations.InterruptLine := by
  unfold Obligations.InterruptLine
  refine ⟨irq_eq_true_iff, ?_, ?_⟩
  · intro i s t run enabled ended
    have ending := exec_ending run
    exact (irq_eq_true_iff t).mpr ⟨ending.outside.irqEn.trans enabled, ending.done ended⟩
  · intro s t v rest hr
    have ctrl := step_write_target (v := v) (rest := rest) hr (target_ctrl (bufBytes s))
    refine ⟨fun run bit => ?_, fun run bit => ?_, fun run bit => ?_, fun run notBusy => ?_⟩
    · cases run.symm.trans (step_write_target hr (target_status _))
      simp [irq, writeTarget, Status.clearedBy, bit]
    · cases run.symm.trans ctrl
      simp only [irq, writeTarget, bit, Bool.false_and]
    · cases run.symm.trans ctrl
      simp only [irq, writeTarget, bit, Bool.true_and]
    · have accepted := step_write_target (v := v) (rest := rest) hr (target_cmd (bufBytes s))
      rw [writeTarget_cmd (s := { s with agenda := rest }) v notBusy] at accepted
      cases run.symm.trans accepted
      simp [irq]

/-! ### What no read shows (R31 to R37) -/

/-- The state with other values in H, Y, L, the cache, the scratch registers and the command latch. -/
def setHidden (h y l : Elem) (c : Cache) (x : Scratch) (w : Word) (g : Args) (s : State) : State :=
  { s with h := h, y := y, l := l, cache := c, scratch := x, curCmd := w, curArg := g }

section

variable (h y l : Elem) (c : Cache) (x : Scratch) (w : Word) (g : Args)

theorem readResponse_setHidden (s : State) (r : Target) :
    readResponse (setHidden h y l c x w g s) r = readResponse s r := by
  cases r <;> rfl

theorem readDraws_setHidden (s : State) (r : Target) :
    readDraws (setHidden h y l c x w g s) r = readDraws s r := by
  cases r <;> rfl

theorem hostRead_setHidden (a : BitVec 16) (s : State) :
    hostRead a (setHidden h y l c x w g s) = setHidden h y l c x w g (hostRead a s) := by
  have sameTarget : target (bufBytes (setHidden h y l c x w g s)) a = target (bufBytes s) a := rfl
  simp only [hostRead, sameTarget, readResponse_setHidden, readDraws_setHidden]
  rfl

end

/-- Settles O56: the answer and the draw of a read do not depend on these registers, and a read writes none of them. -/
theorem hiddenRegistersAreNotReadable : Obligations.HiddenRegistersAreNotReadable := by
  unfold Obligations.HiddenRegistersAreNotReadable
  intro s a rest h y l c x w g
  cases hr : s.inputs.rst with
  | true =>
    have refused (u : State) (asserted : u.inputs.rst = true) (agenda : u.agenda = .read a :: rest) :
        step u = .next (refuseAccess { u with agenda := rest }) := by
      simp [step, happen, agenda, asserted]
    exact ⟨_, refused _ hr rfl, refused _ hr rfl⟩
  | false =>
    refine ⟨_, step_read rfl hr, ?_⟩
    have hidden := hostRead_setHidden h y l c x w g a { s with agenda := rest }
    exact (step_read (s := setHidden h y l c x w g { s with agenda := .read a :: rest }) rfl hr).trans
      (congrArg _ hidden)

/-! ### The duties of the surroundings (R84 to R86, R290 to R300) -/

/-- The requests of a command are those of R86 where no check fails, and none otherwise. -/
theorem requestCount_eq (s : State) (i : Instr) :
    requestCount s i = if firstFailure i s = none then (requestDirs i s).length else 0 := by
  rw [firstFailure_eq_commandCheck]
  cases i with
  | nop | feXor | feMul | feDbl | pvInit | pvReset | pvUpd | pvUpdb | pvSum | pvRest => simp [requestCount, requestDirs]
  | xctr r => simp [requestCount, commandCheck, requestDirs_length_xctr]
  | hctr2Init => simp [requestCount, commandCheck, requestDirs]
  | hctr2Enc => simp [requestCount, commandCheck, requestDirs_length_cipher]
  | hctr2Dec => simp [requestCount, commandCheck, requestDirs_length_cipher]

theorem requestWindow_eq_inFlightLimit (s : State) (i : Instr) : requestWindow s i = inFlightLimit i s := by
  cases i with
  | hctr2Enc | hctr2Dec =>
    simp only [requestWindow, inFlightLimit, xctrLanes, Nat.pos_iff_ne_zero]
    split <;> simp_all
  | _ => rfl

/-- The model's test for a request is the rule's (R84 to R86). -/
theorem mayRequest_iff_canRequest (s : State) : mayRequest s = true ↔ CanRequest s := by
  rw [mayRequest_iff, CanRequest]
  refine and_congr_right fun _ => and_congr_right fun _ => exists_congr fun i => and_congr_right fun _ => ?_
  rw [requestCount_eq, requestWindow_eq_inFlightLimit, ← and_assoc]
  refine and_congr_left fun _ => ?_
  split <;> simp_all

theorem step_request (s : State) (rest : List Event) :
    step { s with agenda := .request :: rest } = .next (transferRequest { s with agenda := rest }) := rfl

theorem step_response (s : State) (rest : List Event) :
    step { s with agenda := .response :: rest } = .next (takeResponse { s with agenda := rest }) := rfl

/-- Settles O58: each event is by its definition, and the transfer of a request by `mayRequest_iff_canRequest`. -/
theorem surroundingsDuties : Obligations.SurroundingsDuties := by
  unfold Obligations.SurroundingsDuties
  intro s rest
  have may : mayRequest { s with agenda := rest } = true ↔ CanRequest s := mayRequest_iff_canRequest s
  refine ⟨fun _ => rfl, fun _ => rfl, fun _ => rfl, ?_, ?_, ?_, ?_, ?_, ?_, ?_, ?_, ?_, ?_⟩
  · intro i n notInit
    exact exec_setInputs (g := fun x => { x with bcBlockSize := n }) (fun _ => rfl) (fun _ => rfl) i s
      fun init => absurd init notInit
  · intro k notBusy
    simp [step, happen, notBusy]
  · intro k busy
    simp [step, happen, busy]
  · intro can
    simp [step_request, transferRequest, may.mpr can, Port.issue]
  · intro cannot
    simp [step_request, transferRequest, Bool.eq_false_iff.mpr (mt may.mp cannot)]
  · intro outstanding
    simp [step_response, takeResponse, Port.answer, Nat.ne_of_gt outstanding]
  · intro none
    simp [step_response, takeResponse, Port.answer, none]
  · intro x none
    simp [step, happen, none]
  · intro x outstanding
    simp [step, happen, Nat.ne_of_gt outstanding]
  · intro asserted a v
    refine ⟨?_, ?_, ?_⟩
    · simp [step, happen, asserted, refuseAccess]
    · simp [step, happen, asserted, refuseAccess]
    · exact (step_core rfl).trans (coreTurn_of_idle (s := { s with agenda := rest }) (.inr asserted))

end Sys2Proof.Machine
end
